-- ==== Sys2Proof/Word.lean ====
section
/-! DEFINITION. The word types of the block: host request words, frame-buffer bytes and the fields of the
serial protocol (rules R8, R70). -/

namespace Sys2Proof

/-- A host request word (rule R70). -/
abbrev Word := BitVec 32

/-- A byte of the frame buffer, and an 8-bit chip command code (rule R8). -/
abbrev Byte := BitVec 8

/-- A 4-bit data word of a RAM write, the transfer granularity of the chip (rules R8, R80). -/
abbrev Nibble := BitVec 4

end Sys2Proof
end

