-- ==== Sys2Proof/Config.lean ====
section
/-! DEFINITION. The configuration of the block: every parameter of rule R7, its constraints, and the two named
configurations of rule R9. The configuration is fixed for the life of the block (rule R20). -/

namespace Sys2Proof

/-- The byte-offset order of a channel buffer (rules R7, R103). -/
inductive Layout where
  | outputMajor
  | groupMajor
  deriving DecidableEq, Repr

/-- What a select request does with an invalid index (rules R7, R115, R170). -/
inductive IndexPolicy where
  | ignoreInvalid
  | storeAny
  deriving DecidableEq, Repr

/-- The parameters of rule R7, under the rule's own names. `ADDR_SPACE_SIZE` is derived (`addrSpaceSize`), and
the draw `allocOk` is an input of the machine (assumption 3). -/
structure Config where
  numChannel : Nat
  outSize : Nat
  comSize : Nat
  pixelsPerByte : Nat
  layout : Layout
  maxBoards : Nat
  currentBoardSentinel : Nat
  commonModeCmd : Byte
  initSelectMask : Nat
  writeChannelPolicy : IndexPolicy
  renderTargetPolicy : IndexPolicy
  /-- `T_SETTLE`, a positive duration in a unit the spec leaves open; no rule reads it (rule R158). -/
  tSettle : Nat
  /-- `CS_PIN[i]`, one GPIO pin per possible board. -/
  csPin : List Nat
  wrPin : Nat
  dataPin : Nat
  clkPin : Nat
  deriving DecidableEq, Repr

namespace Config

/-- `ADDR_SPACE_SIZE`: bytes per channel buffer (rule R7, decision D7). -/
def addrSpaceSize (cfg : Config) : Nat := cfg.outSize * cfg.comSize / cfg.pixelsPerByte

/-- Bytes in all channel buffers together. -/
def bufferSize (cfg : Config) : Nat := cfg.numChannel * cfg.addrSpaceSize

/-- Row groups per column, the `G` of rule R103. -/
def groups (cfg : Config) : Nat := cfg.comSize / cfg.pixelsPerByte

/-- The GPIO pins of every line, in the order of rule R258. -/
def pins (cfg : Config) : List Nat := cfg.csPin ++ [cfg.wrPin, cfg.dataPin, cfg.clkPin]

/-- The constraint column of rule R7, and rule R258's pairwise distinct pins. -/
def wf (cfg : Config) : Bool :=
  List.all
    [decide (1 ≤ cfg.numChannel), decide (1 ≤ cfg.outSize), decide (1 ≤ cfg.comSize),
      decide (1 ≤ cfg.pixelsPerByte), decide (cfg.pixelsPerByte ≤ 8),
      decide (cfg.comSize % cfg.pixelsPerByte = 0),
      decide (1 ≤ cfg.maxBoards), decide (cfg.maxBoards ≤ 7),
      decide (2 ^ cfg.maxBoards ≤ cfg.currentBoardSentinel), decide (cfg.currentBoardSentinel < 256),
      decide (cfg.commonModeCmd ∈ [0x20#8, 0x24#8, 0x28#8, 0x2C#8]),
      decide (cfg.initSelectMask < 2 ^ cfg.maxBoards),
      decide (0 < cfg.tSettle),
      decide (cfg.csPin.length = cfg.maxBoards),
      decide cfg.pins.Nodup]
    id

/-- CFG-A of rule R9. `T_SETTLE` and the pin numbers are OPEN there; the values here are the model's
(DESIGN CHOICE, assumption 2): no rule reads them. -/
def cfgA : Config where
  numChannel := 1
  outSize := 32
  comSize := 8
  pixelsPerByte := 8
  layout := .outputMajor
  maxBoards := 4
  currentBoardSentinel := 0x10
  commonModeCmd := 0x20
  initSelectMask := 0x0F
  writeChannelPolicy := .ignoreInvalid
  renderTargetPolicy := .storeAny
  tSettle := 1
  csPin := [0, 1, 2, 3]
  wrPin := 4
  dataPin := 5
  clkPin := 6

/-- CFG-B of rule R9. -/
def cfgB : Config := { cfgA with numChannel := 2, outSize := 24, comSize := 16 }

end Config

end Sys2Proof
end

