-- ==== Sys2Proof/Syntax.lean ====
section
/-! DEFINITION. The instructions: one constructor per row of spec/opcode_table.json. The host requests are the
abstract requests of rule R70, with integer operands; the protocol words and frames are what the sequencer
makes the transmitter send (rules R78 to R83). -/

namespace Sys2Proof

/-- One constructor per row of the opcode table, in the table's order. -/
inductive Instr where
  /-- INIT n (rule R200). -/
  | init (n : Int)
  /-- SELECT_WRITE_CHANNEL n (rule R115). -/
  | selectWriteChannel (n : Int)
  /-- SELECT_RENDER_TARGET n (rule R170). -/
  | selectRenderTarget (n : Int)
  /-- SET_PIXEL x, y (rule R106). -/
  | setPixel (x y : Int)
  /-- CLEAR_PIXEL x, y (rule R107). -/
  | clearPixel (x y : Int)
  /-- GET_PIXEL x, y (rule R108). -/
  | getPixel (x y : Int)
  /-- SET_PIXEL_CH x, y, channel (rule R109). -/
  | setPixelCh (x y ch : Int)
  /-- CLEAR_PIXEL_CH x, y, channel (rule R110). -/
  | clearPixelCh (x y ch : Int)
  /-- GET_PIXEL_CH x, y, channel (rule R111). -/
  | getPixelCh (x y ch : Int)
  /-- FILL (rule R112). -/
  | fill
  /-- FILL_ALL (rule R113). -/
  | fillAll
  /-- CLEAR (rule R114). -/
  | clear
  /-- RENDER (rule R172). -/
  | render
  /-- SET_BRIGHTNESS level, mask (rule R192). -/
  | setBrightness (level : Int) (mask : Nat)
  /-- The pseudo-request SET_BRIGHTNESS_CURRENT level (rule R76). -/
  | setBrightnessCurrent (level : Int)
  /-- A request word with OP 0x0, reserved (rule R74); the payload is bits 27:0. -/
  | reservedOp0 (payload : BitVec 28)
  /-- A request word with OP 0xF, reserved (rule R74); the payload is bits 27:0. -/
  | reservedOpF (payload : BitVec 28)
  /-- ID `100`, command mode (rule R78). -/
  | idCmd
  /-- ID `101`, write RAM (rule R78). -/
  | idWr
  /-- ID `110`, read RAM, never sent (rules R78, R84). -/
  | idRd
  | sysDis
  | sysEn
  | ledOff
  | ledOn
  | blinkOff
  | blinkOn
  | slaveMode
  | masterMode
  | intClk
  | extClk
  | com20
  | com24
  | com28
  | com2C
  /-- PWM with the duty field d = duty - 1 (rule R83). -/
  | pwm (d : Nibble)
  /-- The command frame `100 (cccccccc0)` of rule R81, k ≥ 1 commands. -/
  | commandFrame (cmds : List Byte)
  /-- The RAM-write frame `101 0000000 (dddd)` of rule R81; its address is always 0 (rule R80). -/
  | ramWriteFrame (words : List Nibble)
  deriving DecidableEq, Repr

namespace Instr

/-- The pseudo-request expansion of rule R76; every other instruction stands for itself. -/
def expand (cfg : Config) : Instr → Instr
  | .setBrightnessCurrent level => .setBrightness level cfg.currentBoardSentinel
  | i => i

/-- The rows that are host requests (rule R73), with the pseudo-request of rule R76. -/
def isRequest : Instr → Bool
  | .init _ | .selectWriteChannel _ | .selectRenderTarget _ => true
  | .setPixel _ _ | .clearPixel _ _ | .getPixel _ _ => true
  | .setPixelCh _ _ _ | .clearPixelCh _ _ _ | .getPixelCh _ _ _ => true
  | .fill | .fillAll | .clear | .render => true
  | .setBrightness _ _ | .setBrightnessCurrent _ => true
  | .reservedOp0 _ | .reservedOpF _ => false
  | .idCmd | .idWr | .idRd => false
  | .sysDis | .sysEn | .ledOff | .ledOn | .blinkOff | .blinkOn | .slaveMode | .masterMode => false
  | .intClk | .extClk | .com20 | .com24 | .com28 | .com2C | .pwm _ => false
  | .commandFrame _ | .ramWriteFrame _ => false

end Instr

end Sys2Proof
end

