-- ==== Sys2Proof/WellFormed.lean ====
section
/-! DEFINITION. Well-formed instructions: those that an encoding of the spec can carry. A host request's
operands fit the 8-bit fields of rule R71; a command frame has at least one command (rule R81); a RAM-write
frame has the word count of rule R81. Abstract operands outside the fields still have a meaning (rule R70),
but no word. -/

namespace Sys2Proof

/-- An operand that an 8-bit field carries, zero-extended (rule R72). -/
def fitsField (v : Int) : Bool := decide (0 ≤ v) && decide (v < 256)

namespace Instr

/-- An encoding of the spec carries this instruction with these operands. -/
def wellFormed (cfg : Config) : Instr → Bool
  | .init n => fitsField n
  | .selectWriteChannel n => fitsField n
  | .selectRenderTarget n => fitsField n
  | .setPixel x y => fitsField x && fitsField y
  | .clearPixel x y => fitsField x && fitsField y
  | .getPixel x y => fitsField x && fitsField y
  | .setPixelCh x y ch => fitsField x && fitsField y && fitsField ch
  | .clearPixelCh x y ch => fitsField x && fitsField y && fitsField ch
  | .getPixelCh x y ch => fitsField x && fitsField y && fitsField ch
  | .fill => true
  | .fillAll => true
  | .clear => true
  | .render => true
  | .setBrightness level mask => fitsField level && decide (mask < 256)
  | .setBrightnessCurrent level => fitsField level && decide (cfg.currentBoardSentinel < 256)
  | .reservedOp0 _ => true
  | .reservedOpF _ => true
  | .idCmd => true
  | .idWr => true
  | .idRd => true
  | .sysDis => true
  | .sysEn => true
  | .ledOff => true
  | .ledOn => true
  | .blinkOff => true
  | .blinkOn => true
  | .slaveMode => true
  | .masterMode => true
  | .intClk => true
  | .extClk => true
  | .com20 => true
  | .com24 => true
  | .com28 => true
  | .com2C => true
  | .pwm _ => true
  | .commandFrame cmds => !cmds.isEmpty
  | .ramWriteFrame words => decide (words.length = 2 * cfg.bufferSize)

end Instr

end Sys2Proof
end

