-- ==== Sys2Proof/Decode.lean ====
section
/-! DEFINITION. The encodings: the code tables of the serial protocol (rules R78, R82, R83), the total decoder of
the host request word (rules R71 to R74, R86) and of the protocol words and frames (rules R78 to R81, R85), the
encoder, and the assembler notation of rule R75. -/

namespace Sys2Proof

/-! ### Bit fields -/

/-- The low `n` bits of a value, most significant first (rules R10, R53, R150). -/
def bitsMSB (v : Nat) : Nat → List Bool
  | 0 => []
  | n + 1 => v.testBit n :: bitsMSB v n

/-- The number a list of bits spells, most significant first (rule R10). -/
def ofBits (bs : List Bool) : Nat := bs.foldl (fun acc b => 2 * acc + b.toNat) 0

/-! ### The code tables (kept in one place, 93 I16) -/

namespace ProtocolId

/-- Command mode (rule R78). -/
def cmd : BitVec 3 := 0b100#3
/-- Write RAM (rule R78). -/
def wr : BitVec 3 := 0b101#3
/-- Read RAM, never sent (rule R78). -/
def rd : BitVec 3 := 0b110#3

/-- The IDs the block sends (the last column of rule R78). -/
def sendable (v : BitVec 3) : Bool := decide (v = cmd) || decide (v = wr)

end ProtocolId

namespace ChipCommand

/-! The codes of rule R82. -/

def sysDis : Byte := 0x00#8
def sysEn : Byte := 0x01#8
def ledOff : Byte := 0x02#8
def ledOn : Byte := 0x03#8
def blinkOff : Byte := 0x08#8
def blinkOn : Byte := 0x09#8
def slaveMode : Byte := 0x10#8
def masterMode : Byte := 0x14#8
def intClk : Byte := 0x18#8
def extClk : Byte := 0x1C#8
def com20 : Byte := 0x20#8
def com24 : Byte := 0x24#8
def com28 : Byte := 0x28#8
def com2C : Byte := 0x2C#8
/-- The base of the PWM command `0xA0 | (duty - 1)` (rule R83). -/
def pwmBase : Byte := 0xA0#8

/-- The PWM command with duty field `d` (rule R83). -/
def pwmOfField (d : Nibble) : Byte := pwmBase ||| d.setWidth 8

/-- `pwm(level) = 0xA0 | low_8(level - 1)`, without clamping (rule R191). -/
def pwmOfLevel (level : Int) : Byte := pwmBase ||| BitVec.ofInt 8 (level - 1)

/-- The command codes the block can send: the "sent" rows of rule R82, and every word `0xA0 | v` that
SET_BRIGHTNESS forms (rules R83, R84). -/
def sendable (c : Byte) : Bool :=
  decide (c = sysDis) || decide (c = sysEn) || decide (c = ledOn)
    || decide (c = com20) || decide (c = com24) || decide (c = com28) || decide (c = com2C)
    || decide (c &&& pwmBase = pwmBase)

end ChipCommand

/-! ### The units of code -/

/-- What a decoder is given: a host request word (rule R70), or one of the serial protocol's forms: a 3-bit ID
(rule R78), a command with its padding bit (rule R79), the bits of a whole frame (rule R81). -/
inductive Code where
  | request (w : Word)
  | id (v : BitVec 3)
  | command (v : BitVec 9)
  | frame (bits : List Bool)
  deriving DecidableEq, Repr

/-- Why a unit of code is no instruction. -/
inductive DecodeError where
  /-- An illegal request word (rule R74): RSV or an unused field is not zero. -/
  | reservedEncoding (w : Word)
  /-- An ID value that rule R78 does not name. -/
  | unnamedId (v : BitVec 3)
  /-- A command code that rule R82 does not list. -/
  | unlistedCommand (c : Byte)
  /-- A command whose ninth bit is not the padding 0 (rule R79). -/
  | badPadding (v : BitVec 9)
  /-- Bits that are neither frame form of rule R81. -/
  | badFrame
  deriving DecidableEq, Repr

/-! ### The host request word -/

namespace Word

/-- The fields of rule R71. -/
def op (w : Word) : BitVec 4 := w.extractLsb' 28 4
def fieldA (w : Word) : Byte := w.extractLsb' 20 8
def fieldB (w : Word) : Byte := w.extractLsb' 12 8
def fieldC (w : Word) : Byte := w.extractLsb' 4 8
def rsv (w : Word) : BitVec 4 := w.extractLsb' 0 4
/-- Everything below OP. -/
def payload (w : Word) : BitVec 28 := w.extractLsb' 0 28

end Word

/-- `zext_8` of a field, read as an integer (rule R72). -/
def operand (f : Byte) : Int := (f.toNat : Int)

/-- The instruction if the fields the request does not use are zero, else the word is illegal (rule R74). -/
def ifZero (w : Word) (unused : Bool) (i : Instr) : Except DecodeError Instr :=
  if unused then .ok i else .error (.reservedEncoding w)

/-- The decoder of rule R86: OP first, then the unused fields and RSV. OP 0x0 and 0xF give the table's reserved
rows, whose meaning is the refusal of rule R74. -/
def decodeRequest (w : Word) : Except DecodeError Instr :=
  let a := Word.fieldA w
  let b := Word.fieldB w
  let c := Word.fieldC w
  let noRsv := decide (Word.rsv w = 0)
  let noC := noRsv && decide (c = 0)
  let noBC := noC && decide (b = 0)
  let noABC := noBC && decide (a = 0)
  match (Word.op w).toNat with
  | 0x0 => .ok (.reservedOp0 (Word.payload w))
  | 0x1 => ifZero w noBC (.init (operand a))
  | 0x2 => ifZero w noBC (.selectWriteChannel (operand a))
  | 0x3 => ifZero w noBC (.selectRenderTarget (operand a))
  | 0x4 => ifZero w noC (.setPixel (operand a) (operand b))
  | 0x5 => ifZero w noC (.clearPixel (operand a) (operand b))
  | 0x6 => ifZero w noC (.getPixel (operand a) (operand b))
  | 0x7 => ifZero w noRsv (.setPixelCh (operand a) (operand b) (operand c))
  | 0x8 => ifZero w noRsv (.clearPixelCh (operand a) (operand b) (operand c))
  | 0x9 => ifZero w noRsv (.getPixelCh (operand a) (operand b) (operand c))
  | 0xA => ifZero w noABC .fill
  | 0xB => ifZero w noABC .fillAll
  | 0xC => ifZero w noABC .clear
  | 0xD => ifZero w noABC .render
  | 0xE => ifZero w noC (.setBrightness (operand a) b.toNat)
  | _ => .ok (.reservedOpF (Word.payload w))

/-! ### The serial protocol -/

/-- The ID codes that rule R78 names. -/
def decodeId (v : BitVec 3) : Except DecodeError Instr :=
  if v = ProtocolId.cmd then .ok .idCmd
  else if v = ProtocolId.wr then .ok .idWr
  else if v = ProtocolId.rd then .ok .idRd
  else .error (.unnamedId v)

/-- The command codes of rule R82, each matched exactly but for the duty field of PWM. -/
def decodeCommandCode (c : Byte) : Except DecodeError Instr :=
  if c = ChipCommand.sysDis then .ok .sysDis
  else if c = ChipCommand.sysEn then .ok .sysEn
  else if c = ChipCommand.ledOff then .ok .ledOff
  else if c = ChipCommand.ledOn then .ok .ledOn
  else if c = ChipCommand.blinkOff then .ok .blinkOff
  else if c = ChipCommand.blinkOn then .ok .blinkOn
  else if c = ChipCommand.slaveMode then .ok .slaveMode
  else if c = ChipCommand.masterMode then .ok .masterMode
  else if c = ChipCommand.intClk then .ok .intClk
  else if c = ChipCommand.extClk then .ok .extClk
  else if c = ChipCommand.com20 then .ok .com20
  else if c = ChipCommand.com24 then .ok .com24
  else if c = ChipCommand.com28 then .ok .com28
  else if c = ChipCommand.com2C then .ok .com2C
  else if c.extractLsb' 4 4 = 0xA#4 then .ok (.pwm (c.extractLsb' 0 4))
  else .error (.unlistedCommand c)

/-- A command is 8 bits and one padding bit 0 (rule R79). -/
def decodeCommand (v : BitVec 9) : Except DecodeError Instr :=
  if v.extractLsb' 0 1 = 0#1 then decodeCommandCode (v.extractLsb' 1 8) else .error (.badPadding v)

/-- The commands of a command frame, each followed by its padding bit 0. -/
def decodeCommands : List Bool → Option (List Byte)
  | [] => some []
  | b7 :: b6 :: b5 :: b4 :: b3 :: b2 :: b1 :: b0 :: pad :: rest =>
    if pad then none
    else (decodeCommands rest).map (BitVec.ofNat 8 (ofBits [b7, b6, b5, b4, b3, b2, b1, b0]) :: ·)
  | _ => none

/-- The data words of a RAM-write frame. -/
def decodeNibbles : List Bool → Option (List Nibble)
  | [] => some []
  | b3 :: b2 :: b1 :: b0 :: rest => (decodeNibbles rest).map (BitVec.ofNat 4 (ofBits [b3, b2, b1, b0]) :: ·)
  | _ => none

/-- A frame's form is told from its first 3 bits, the ID, and its length from where it ends (rule R85). -/
def decodeFrame : List Bool → Except DecodeError Instr
  | true :: false :: false :: rest =>
    match decodeCommands rest with
    | some (c :: cs) => .ok (.commandFrame (c :: cs))
    | _ => .error .badFrame
  | true :: false :: true :: rest =>
    match rest.take 7 == [false, false, false, false, false, false, false], decodeNibbles (rest.drop 7) with
    | true, some ws => .ok (.ramWriteFrame ws)
    | _, _ => .error .badFrame
  | _ => .error .badFrame

/-- The decoder, total on any unit of code. -/
def decode : Code → Except DecodeError Instr
  | .request w => decodeRequest w
  | .id v => decodeId v
  | .command v => decodeCommand v
  | .frame bits => decodeFrame bits

/-! ### The encoder -/

/-- A request word from its fields (rule R71). -/
def requestWord (op : BitVec 4) (a b c : Int) : Code :=
  .request (op ++ (BitVec.ofInt 8 a) ++ (BitVec.ofInt 8 b) ++ (BitVec.ofInt 8 c) ++ 0#4)

/-- A command code with its padding bit (rule R79). -/
def commandWord (c : Byte) : Code := .command (c ++ 0#1)

/-- The bits of a command and its padding, most significant first (rule R79). -/
def commandBits (c : Byte) : List Bool := bitsMSB c.toNat 8 ++ [false]

/-- The bits of a data word, most significant first (rule R80). -/
def nibbleBits (w : Nibble) : List Bool := bitsMSB w.toNat 4

/-- The code of an instruction, by the encodings of rules R73, R74, R76, R78, R81, R82 and R83. The pseudo-request
has the words of its expansion, which the configuration's sentinel decides. -/
def encode (cfg : Config) : Instr → Code
  | .init n => requestWord 0x1#4 n 0 0
  | .selectWriteChannel n => requestWord 0x2#4 n 0 0
  | .selectRenderTarget n => requestWord 0x3#4 n 0 0
  | .setPixel x y => requestWord 0x4#4 x y 0
  | .clearPixel x y => requestWord 0x5#4 x y 0
  | .getPixel x y => requestWord 0x6#4 x y 0
  | .setPixelCh x y ch => requestWord 0x7#4 x y ch
  | .clearPixelCh x y ch => requestWord 0x8#4 x y ch
  | .getPixelCh x y ch => requestWord 0x9#4 x y ch
  | .fill => requestWord 0xA#4 0 0 0
  | .fillAll => requestWord 0xB#4 0 0 0
  | .clear => requestWord 0xC#4 0 0 0
  | .render => requestWord 0xD#4 0 0 0
  | .setBrightness level mask => requestWord 0xE#4 level mask 0
  | .setBrightnessCurrent level => requestWord 0xE#4 level cfg.currentBoardSentinel 0
  | .reservedOp0 p => .request (0x0#4 ++ p)
  | .reservedOpF p => .request (0xF#4 ++ p)
  | .idCmd => .id ProtocolId.cmd
  | .idWr => .id ProtocolId.wr
  | .idRd => .id ProtocolId.rd
  | .sysDis => commandWord ChipCommand.sysDis
  | .sysEn => commandWord ChipCommand.sysEn
  | .ledOff => commandWord ChipCommand.ledOff
  | .ledOn => commandWord ChipCommand.ledOn
  | .blinkOff => commandWord ChipCommand.blinkOff
  | .blinkOn => commandWord ChipCommand.blinkOn
  | .slaveMode => commandWord ChipCommand.slaveMode
  | .masterMode => commandWord ChipCommand.masterMode
  | .intClk => commandWord ChipCommand.intClk
  | .extClk => commandWord ChipCommand.extClk
  | .com20 => commandWord ChipCommand.com20
  | .com24 => commandWord ChipCommand.com24
  | .com28 => commandWord ChipCommand.com28
  | .com2C => commandWord ChipCommand.com2C
  | .pwm d => commandWord (ChipCommand.pwmOfField d)
  | .commandFrame cmds => .frame (bitsMSB ProtocolId.cmd.toNat 3 ++ cmds.flatMap commandBits)
  | .ramWriteFrame words =>
    .frame (bitsMSB ProtocolId.wr.toNat 3 ++ bitsMSB 0 7 ++ words.flatMap nibbleBits)

/-! ### The host's numbering of the table's words -/

/-- The unit of code that a table word of `nbits` bits stands for: 32 bits is a host request word; 8 or 16 bits is
a protocol word, where the numbers of the IDs that rule R78 names are those IDs and every other number is a
command code (no number is both in the table; assumption 9). -/
def tableCode (nbits w : Nat) : Option Code :=
  if nbits = 32 then
    if w < 2 ^ 32 then some (.request (BitVec.ofNat 32 w)) else none
  else if nbits = 8 ∨ nbits = 16 then
    if w = ProtocolId.cmd.toNat ∨ w = ProtocolId.wr.toNat ∨ w = ProtocolId.rd.toNat then
      some (.id (BitVec.ofNat 3 w))
    else if w < 2 ^ 8 then some (commandWord (BitVec.ofNat 8 w))
    else none
  else none

/-- The instruction the decoder reads from a table word. -/
def decodeTableWord (nbits w : Nat) : Option Instr :=
  match tableCode nbits w with
  | some code =>
    match decode code with
    | .ok i => some i
    | .error _ => none
  | none => none

/-! ### Assembler notation -/

/-- A mnemonic with its operands in field order, separated by commas (rule R75). -/
def asmLine (mnemonic : String) (operands : List Int) : String :=
  if operands.isEmpty then mnemonic else mnemonic ++ " " ++ ", ".intercalate (operands.map toString)

/-- The assembler syntax of a host request (rule R75), and of the pseudo-request (rule R76). The serial protocol
has no assembler syntax. -/
def assembly : Instr → Option String
  | .init n => some (asmLine "INIT" [n])
  | .selectWriteChannel n => some (asmLine "SELECT_WRITE_CHANNEL" [n])
  | .selectRenderTarget n => some (asmLine "SELECT_RENDER_TARGET" [n])
  | .setPixel x y => some (asmLine "SET_PIXEL" [x, y])
  | .clearPixel x y => some (asmLine "CLEAR_PIXEL" [x, y])
  | .getPixel x y => some (asmLine "GET_PIXEL" [x, y])
  | .setPixelCh x y ch => some (asmLine "SET_PIXEL_CH" [x, y, ch])
  | .clearPixelCh x y ch => some (asmLine "CLEAR_PIXEL_CH" [x, y, ch])
  | .getPixelCh x y ch => some (asmLine "GET_PIXEL_CH" [x, y, ch])
  | .fill => some (asmLine "FILL" [])
  | .fillAll => some (asmLine "FILL_ALL" [])
  | .clear => some (asmLine "CLEAR" [])
  | .render => some (asmLine "RENDER" [])
  | .setBrightness level mask => some (asmLine "SET_BRIGHTNESS" [level, mask])
  | .setBrightnessCurrent level => some (asmLine "SET_BRIGHTNESS_CURRENT" [level])
  | .reservedOp0 _ | .reservedOpF _ => none
  | .idCmd | .idWr | .idRd => none
  | .sysDis | .sysEn | .ledOff | .ledOn | .blinkOff | .blinkOn | .slaveMode | .masterMode => none
  | .intClk | .extClk | .com20 | .com24 | .com28 | .com2C | .pwm _ => none
  | .commandFrame _ | .ramWriteFrame _ => none

end Sys2Proof
end

