-- ==== Sys2Proof/Machine/State.lean ====
section
/-! DEFINITION. The state of the block (rules R20 to R27, R30, R31) as plain data, the reasons a step can stop, and
the state after power-on (rules R33, R250). -/

namespace Sys2Proof.Machine

/-- The three phases of rule R21. -/
inductive Phase where
  | uninit
  | ready
  | fatal
  deriving DecidableEq, Repr

/-- The output lines of rule R26. -/
inductive Line where
  | cs (i : Nat)
  | wr
  | data
  | clk
  deriving DecidableEq, Repr

/-- The levels of rule R26: `z` not driven, `u` driven at a level no rule fixes, `lo` 0, `hi` 1. -/
inductive Level where
  | z
  | u
  | lo
  | hi
  deriving DecidableEq, Repr

/-- One line: its level and whether it has been configured as an output (rule R26). -/
structure LineState where
  level : Level
  cfgd : Bool
  deriving DecidableEq, Repr

/-- All lines: one select line per possible board, and the three shared lines (rule R26). -/
structure Lines where
  cs : List LineState
  wr : LineState
  data : LineState
  clk : LineState
  deriving DecidableEq, Repr

/-- The line events of rule R27. -/
inductive LineEvent where
  | cfg (l : Line)
  | w (l : Line) (v : Bool)
  | settle
  deriving DecidableEq, Repr

/-- A response to the host: an acknowledgement, or the bit of a GET (rules R12, R221). -/
inductive Response where
  | ack
  | bit (b : Bool)
  deriving DecidableEq, Repr

/-- The outcomes of rule R221, in the order of their codes. -/
inductive ReqOutcome where
  | ok
  | ignoredOutOfRange
  | ignoredInvalidIndex
  | ignoredNoTarget
  | fatalAlloc
  | refusedReservedEncoding
  | refusedNotInitialized
  | refusedReinit
  | refusedBadBoardCount
  | faultStrobeHigh
  | faultUnconfiguredLine
  | faultBadAddress
  deriving DecidableEq, Repr

/-- The request an outcome is recorded with (rule R221): an abstract request, or a request word that is none. -/
inductive RequestRef where
  | instr (i : Instr)
  | word (w : Word)
  deriving DecidableEq, Repr

/-- "The information recorded with each outcome is the request and the outcome code" (rule R221). -/
structure OutcomeRecord where
  request : RequestRef
  outcome : ReqOutcome
  deriving DecidableEq, Repr

/-- One position of the sequencer (rule R31): the next thing it does in the fixed sequence of the running request. -/
inductive SeqItem where
  /-- INIT step (a): record the board count (rule R201). -/
  | record (n : Nat)
  /-- INIT step (b): `Cfg(l)`, and `Drive(l, 0)` where `low` (rule R202). -/
  | configure (l : Line) (low : Bool)
  /-- INIT step (d): allocate and zero the buffers (rule R204). -/
  | allocate
  /-- INIT step (d) with allocOk false (rule R204). -/
  | allocFail (req : RequestRef)
  /-- `select(mask)` (rule R140). -/
  | select (mask : Nat)
  /-- `writeBits(id, 3)` (rule R157). -/
  | id (v : BitVec 3)
  /-- `writeCommand(cmd)` (rule R157). -/
  | command (c : Byte)
  /-- `writeBits(addr, 7)` (rule R157). -/
  | address (a : BitVec 7)
  /-- `writeBits(word, 4)` (rule R157). -/
  | data (w : Nibble)
  /-- `renderTarget <- b` of INIT steps (g) and (h) (rules R207, R208). -/
  | target (b : Int)
  /-- `phase <- READY` of INIT step (h) (rule R208). -/
  | ready
  /-- `Respond`, with outcome OK (rule R12). -/
  | respond (req : RequestRef) (r : Response)
  deriving DecidableEq, Repr

/-- The frame buffer: bytes by the address `c * ADDR_SPACE_SIZE + o` of byte `o` of channel `c` (rule R50), in one
canonical form (`Memory.wf`). A listed byte is not zero; an unlisted one reads 0x00 (assumption 16). -/
abbrev Memory := List Host.Cell

/-- Why the machine stops for good. -/
inductive Fault where
  /-- FAULT_STROBE_HIGH (rules R150, R153, R221): WR is not low at a transmitter entry. Raised by every send of a
  field. Safe: the spec names it, and no state of the invariant reaches it (rule R235). -/
  | strobeHigh
  /-- FAULT_UNCONFIGURED_LINE (rules R27, R221): a Drive on a line that is not configured. Raised by select and by
  the transmitter. Safe, as above. -/
  | unconfiguredLine
  /-- FAULT_BAD_ADDRESS (rules R51, R221): a buffer access outside the address space, or while no buffer exists.
  Raised by the pixel and bulk requests and RENDER. Safe, as above. -/
  | badAddress
  /-- The block is stuck in phase FATAL (rules R224, R225, R228): it has no step. Raised by every step and every
  request in that phase. Safe: the spec says so. -/
  | fatalStuck
  deriving DecidableEq, Repr

/-- Why the model gives a state or an instruction no meaning. -/
inductive Refusal where
  /-- An instruction with no meaning yet, raised by exec's own arms only (none is left). Safe. -/
  | notModelled (mnemonic : String)
  /-- The configuration breaks a constraint of rule R7 or repeats a pin (rule R258). Raised by every step. Safe. -/
  | invalidConfiguration
  /-- An ID the block never sends: ID_RD and the unnamed values (rules R78, R84). Raised by ID_RD. Safe. -/
  | neverSentId (v : BitVec 3)
  /-- A command the block never sends (rules R82, R84). Raised by the "never" rows of rule R82. Safe. -/
  | neverSentCommand (c : Byte)
  /-- A command frame with no command (rule R81, k ≥ 1). Raised by COMMAND_FRAME. Safe. -/
  | emptyCommandFrame
  deriving DecidableEq, Repr

/-- The state tuple of rule R20, the ghost components of rule R30, and four components of the model's own: `cfg`
(the configuration a step is relative to), `allocOk` (the draw of rule R7), `port` (the host's requests not yet
accepted) and `responses` (the observation of rule R6 (b)). `traceRev` is the trace of rule R27 with its newest event
first; `State.trace` reads it in order. -/
structure State where
  cfg : Config
  allocOk : Bool
  phase : Phase
  boardCount : Nat
  writeChannel : Int
  renderTarget : Int
  memExists : Bool
  mem : Memory
  lines : Lines
  busy : Bool
  seqpos : List SeqItem
  port : List Word
  responses : List Response
  traceRev : List LineEvent
  outcome : Option OutcomeRecord
  refusedMark : Bool
  deriving DecidableEq, Repr

/-- The line events so far, in order (rule R27). -/
def State.trace (s : State) : List LineEvent := s.traceRev.reverse

/-- A line before it is configured: not driven (rule R33). -/
def LineState.off : LineState := ⟨.z, false⟩

/-- Every line before INIT (rule R33). -/
def Lines.off (maxBoards : Nat) : Lines := ⟨List.replicate maxBoards .off, .off, .off, .off⟩

/-- The state at power-on of a block with configuration `cfg` and draw `allocOk` (rules R33, R250).
`writeChannel` and `renderTarget` are unspecified there: 0 is the model's (DESIGN CHOICE, assumption 4). Rule R33 has no
row for `seqpos`: that no sequence is laid out is the model's (DESIGN CHOICE, assumption 32). That `outcome`,
`responses` and `port` are empty is the model's too (DESIGN CHOICE, assumptions 5 and 7). -/
def State.powerOn (cfg : Config) (allocOk : Bool) : State where
  cfg := cfg
  allocOk := allocOk
  phase := .uninit
  boardCount := 0
  writeChannel := 0
  renderTarget := 0
  memExists := false
  mem := []
  lines := .off cfg.maxBoards
  busy := false
  seqpos := []
  port := []
  responses := []
  traceRev := []
  outcome := none
  refusedMark := false

/-- The machine right after reset: power-on of CFG-A with a draw that lets INIT succeed (DESIGN CHOICE, assumptions
2 and 3). -/
def State.reset : State := State.powerOn Config.cfgA true

end Sys2Proof.Machine
end

