-- ==== Sys2Proof/Machine/Flags.lean ====
section
/-! DEFINITION. The block has no flags, no condition codes and no error register (rule R30), so no instruction
computes a flag. What stands in their place is ghost state: the outcome of a request, with the codes and the
classes of rule R221. -/

namespace Sys2Proof.Machine

/-- The code column of rule R221. -/
def outcomeCode : ReqOutcome → Nat
  | .ok => 0
  | .ignoredOutOfRange => 1
  | .ignoredInvalidIndex => 2
  | .ignoredNoTarget => 3
  | .fatalAlloc => 4
  | .refusedReservedEncoding => 5
  | .refusedNotInitialized => 6
  | .refusedReinit => 7
  | .refusedBadBoardCount => 8
  | .faultStrobeHigh => 9
  | .faultUnconfiguredLine => 10
  | .faultBadAddress => 11

/-- The outcome of rule R221 that a stop of the model stands for. A step in phase FATAL is not a request and has
none (rule R225). -/
def faultOutcome : Fault → Option ReqOutcome
  | .strobeHigh => some .faultStrobeHigh
  | .unconfiguredLine => some .faultUnconfiguredLine
  | .badAddress => some .faultBadAddress
  | .fatalStuck => none

end Sys2Proof.Machine
end

