-- ==== Sys2Proof/Machine/Operands.lean ====
section
/-! DEFINITION. The operand forms: the address decoder (rules R100 to R103), channel and board indexes (rules R105,
R170, R171), the resolution of a brightness mask (rule R190), and the words a buffer byte is sent as
(rule R174). -/

namespace Sys2Proof.Machine

/-- `valid(x, y)` of rule R101. -/
def validPixel (cfg : Config) (x y : Int) : Bool :=
  decide (0 ≤ x) && decide (x < cfg.outSize) && decide (0 ≤ y) && decide (y < cfg.comSize)

/-- The bit index of a row (rule R102). -/
def bitIndex (cfg : Config) (y : Nat) : Nat := (cfg.pixelsPerByte - 1) - y % cfg.pixelsPerByte

/-- The one-bit mask of a row (rule R102). -/
def pixelMask (cfg : Config) (y : Nat) : Byte := 1#8 <<< bitIndex cfg y

/-- The byte offset of a pixel, by the layout (rule R103). -/
def pixelOffset (cfg : Config) (x y : Nat) : Nat :=
  match cfg.layout with
  | .outputMajor => x * cfg.groups + y / cfg.pixelsPerByte
  | .groupMajor => y / cfg.pixelsPerByte * cfg.outSize + x

/-- The address decoder `decode(x, y)` of rule R100: the offset and the mask, or none where the pixel is invalid. -/
def decodePixel (cfg : Config) (x y : Int) : Option (Nat × Byte) :=
  if validPixel cfg x y then some (pixelOffset cfg x.toNat y.toNat, pixelMask cfg y.toNat) else none

/-- A valid channel index (rule R105). -/
def validChannel (cfg : Config) (c : Int) : Bool := decide (0 ≤ c) && decide (c < cfg.numChannel)

/-- The byte address and mask of a pixel request, or none where the channel or the pixel is invalid (rules R105,
R106). -/
def pixelOperand (cfg : Config) (c x y : Int) : Option (Nat × Nat × Byte) :=
  if validChannel cfg c then (decodePixel cfg x y).map fun (o, m) => (c.toNat, o, m) else none

/-- A valid board index (rules R170, R171). -/
def validBoard (boardCount : Nat) (b : Int) : Bool := decide (0 ≤ b) && decide (b < boardCount)

/-- The mask that selects one board (rule R144). -/
def boardMask (b : Nat) : Nat := 1 <<< b

/-- Mask resolution (rule R190): the sentinel, compared for exact equality, is the render target if that is a valid
board; every other mask is used as given. -/
def resolveMask (cfg : Config) (boardCount : Nat) (renderTarget : Int) (mask : Nat) : Option Nat :=
  if mask = cfg.currentBoardSentinel then
    if validBoard boardCount renderTarget then some (boardMask renderTarget.toNat) else none
  else some mask

/-- `b[7:4]` (rule R174). -/
def highNibble (b : Byte) : Nibble := b.extractLsb' 4 4

/-- `b[3:0]` (rule R174). -/
def lowNibble (b : Byte) : Nibble := b.extractLsb' 0 4

/-- Offsets 0 .. ADDR_SPACE_SIZE - 1 of one channel, ascending (rules R112, R173). -/
def channelAddresses (cfg : Config) (c : Nat) : List (Nat × Nat) :=
  (List.range cfg.addrSpaceSize).map fun o => (c, o)

/-- Every address, channels ascending and offsets ascending in each (rules R113, R114, R173). -/
def allAddresses (cfg : Config) : List (Nat × Nat) :=
  (List.range cfg.numChannel).flatMap (channelAddresses cfg)

end Sys2Proof.Machine
end

