-- ==== Sys2Proof/Machine/Ops.lean ====
section
/-! DEFINITION. The named operations over the frame buffer and the lines, the micro-operations of the transmitter and
the chip-select multiplexer (rules R77, R140, R150 to R154), the sequencer, and how a request ends. The block
has no trap and no return from one (rules R220, R228): what a request does instead when a condition of rule
R221 holds is `respond` with an IGNORED outcome, `refuse`, or the phase FATAL. -/

namespace Sys2Proof.Machine

/-- What a step or a meaning answers. -/
abbrev Result := Host.Outcome State Fault Refusal

/-- Run a second operation on the state the first one leaves. -/
def andThen (r : Result) (k : State → Result) : Result :=
  match r with
  | .next s => k s
  | .fault f => .fault f
  | .refused q => .refused q

/-! ### The frame buffer -/

/-- Reading one byte: an unlisted address reads 0x00. -/
def Memory.get : Memory → Nat → Byte
  | [], _ => 0#8
  | (k, v) :: rest, a => if k = a then v else Memory.get rest a

/-- Writing one byte, keeping the canonical form: a zero is not listed. -/
def Memory.set : Memory → Nat → Byte → Memory
  | [], a, v => if v = 0#8 then [] else [(a, v)]
  | (k, w) :: rest, a, v =>
    if a < k then (if v = 0#8 then (k, w) :: rest else (a, v) :: (k, w) :: rest)
    else if a = k then (if v = 0#8 then rest else (a, v) :: rest)
    else (k, w) :: Memory.set rest a v

/-- Addresses from `lo` on, strictly rising, and no byte listed that an unlisted address reads as. -/
def Memory.wfFrom : Nat → Memory → Bool
  | _, [] => true
  | lo, (k, v) :: rest => decide (lo ≤ k) && decide (v ≠ 0#8) && Memory.wfFrom (k + 1) rest

/-- The canonical form. -/
def Memory.wf (m : Memory) : Bool := Memory.wfFrom 0 m

/-- The key of byte `o` of channel `c` (rule R56). -/
def cellOf (cfg : Config) (c o : Nat) : Nat := c * cfg.addrSpaceSize + o

/-- The address exists (rule R50) and the buffer does (rule R25). -/
def addressOk (s : State) (c o : Nat) : Bool :=
  s.memExists && decide (c < s.cfg.numChannel) && decide (o < s.cfg.addrSpaceSize)

/-- `mem[c][o]`, with no check. -/
def byteAt (s : State) (c o : Nat) : Byte := Memory.get s.mem (cellOf s.cfg c o)

/-- `MemRead((c, o), 1)` of rule R12; none is FAULT_BAD_ADDRESS (rule R51). -/
def memRead (s : State) (c o : Nat) : Option Byte :=
  if addressOk s c o then some (byteAt s c o) else none

/-- The state with byte `o` of channel `c` replaced, with no check. -/
def State.withByte (s : State) (c o : Nat) (v : Byte) : State :=
  { s with mem := Memory.set s.mem (cellOf s.cfg c o) v }

/-- `MemWrite((c, o), 1, v)` of rule R12; none is FAULT_BAD_ADDRESS (rule R51). -/
def memWrite (s : State) (c o : Nat) (v : Byte) : Option State :=
  if addressOk s c o then some (s.withByte c o v) else none

/-- Writing one value to a list of addresses, in order (rules R112 to R114, R204). -/
def memWriteAll (v : Byte) : List (Nat × Nat) → State → Option State
  | [], s => some s
  | (c, o) :: rest, s =>
    match memWrite s c o v with
    | some s' => memWriteAll v rest s'
    | none => none

/-- Reading a list of addresses, in order (rule R172). -/
def memReadAll (s : State) : List (Nat × Nat) → Option (List Byte)
  | [] => some []
  | (c, o) :: rest =>
    match memRead s c o, memReadAll s rest with
    | some b, some bs => some (b :: bs)
    | _, _ => none

/-! ### The lines -/

/-- `line[l]` and `cfgd[l]` (rule R26). -/
def Lines.get (L : Lines) : Line → LineState
  | .cs i => L.cs.getD i .off
  | .wr => L.wr
  | .data => L.data
  | .clk => L.clk

/-- Replace one line's state. -/
def Lines.set (L : Lines) (l : Line) (x : LineState) : Lines :=
  match l with
  | .cs i => { L with cs := L.cs.set i x }
  | .wr => { L with wr := x }
  | .data => { L with data := x }
  | .clk => { L with clk := x }

/-- The level of a driven bit (rule R28). -/
def levelOf (v : Bool) : Level := if v then .hi else .lo

/-- What an event does to the lines (rules R12, R27): Cfg makes a line an output at an unspecified level, W sets the
level of a configured line, Settle changes nothing. None is FAULT_UNCONFIGURED_LINE. -/
def Lines.apply (L : Lines) : LineEvent → Option Lines
  | .cfg l => some (L.set l ⟨.u, true⟩)
  | .w l v => if (L.get l).cfgd then some (L.set l ⟨levelOf v, true⟩) else none
  | .settle => some L

/-- What a list of events does to the lines, in order. -/
def Lines.applyAll : List LineEvent → Lines → Option Lines
  | [], L => some L
  | e :: rest, L =>
    match L.apply e with
    | some L' => Lines.applyAll rest L'
    | none => none

/-- The state in which events have happened and left the lines at `L`. -/
def State.emitted (s : State) (evs : List LineEvent) (L : Lines) : State :=
  { s with lines := L, traceRev := evs.reverseAux s.traceRev }

/-- Make events happen: they act on the lines and are appended to the trace (rule R27). -/
def emit (evs : List LineEvent) (s : State) : Result :=
  match Lines.applyAll evs s.lines with
  | some L => .next (s.emitted evs L)
  | none => .fault .unconfiguredLine

/-- The events of `Cfg(l)`, and of `Drive(l, 0)` with it where the line is driven low at once (rule R202). -/
def configureEvents (l : Line) (low : Bool) : List LineEvent :=
  if low then [.cfg l, .w l false] else [.cfg l]

/-- The transition view of rule R6: of a list of events, the writes that change a line's level. -/
def transitions : List LineEvent → Lines → List LineEvent
  | [], _ => []
  | e :: rest, L =>
    match L.apply e with
    | none => []
    | some L' =>
      match e with
      | .w l _ => if (L'.get l).level = (L.get l).level then transitions rest L' else e :: transitions rest L'
      | .cfg _ | .settle => transitions rest L'

/-! ### Chip select (41_chip_select.md) -/

/-- The events of `select(mask)`: each board's line, ascending, low where its bit is set (rule R140). -/
def selectEvents (boardCount mask : Nat) : List LineEvent :=
  (List.range boardCount).map fun i => .w (.cs i) (!mask.testBit i)

/-- `select(mask)` (rule R140). -/
def select (mask : Nat) (s : State) : Result := emit (selectEvents s.boardCount mask) s

/-- `select()` is `select(0)` (rule R141). -/
def deselectMask : Nat := 0

/-! ### The serial transmitter (42_serial_writer.md) -/

/-- The five events of one bit cycle (rule R151). -/
def bitCycle (b : Bool) : List LineEvent :=
  [.w .data b, .settle, .w .wr true, .w .wr false, .settle]

/-- Bit cycles for a list of bits, in order. -/
def bitsEvents (bs : List Bool) : List LineEvent := bs.flatMap bitCycle

/-- The transmitter's precondition: WR is low (rules R150, R152). -/
def strobeLow (s : State) : Bool := decide (s.lines.wr.level = .lo)

/-- `writeBits(value, n)` (rule R150). -/
def writeBits (value n : Nat) (s : State) : Result :=
  if strobeLow s then emit (bitsEvents (bitsMSB value n)) s else .fault .strobeHigh

/-- `writeSingleBit()` (rule R153): always the bit 0. -/
def writeSingleBit (s : State) : Result :=
  if strobeLow s then emit (bitCycle false) s else .fault .strobeHigh

/-- `writeCommand(cmd)` (rule R154). -/
def writeCommand (c : Byte) (s : State) : Result := andThen (writeBits c.toNat 8 s) writeSingleBit

/-- Send an ID code (rule R157); an ID the block never sends is refused (rule R84). -/
def sendId (v : BitVec 3) (s : State) : Result :=
  if ProtocolId.sendable v then writeBits v.toNat 3 s else .refused (.neverSentId v)

/-- Send a command (rule R157); a command the block never sends is refused (rule R84). -/
def sendCommand (c : Byte) (s : State) : Result :=
  if ChipCommand.sendable c then writeCommand c s else .refused (.neverSentCommand c)

/-! ### How a request ends (60_exceptions.md) -/

/-- The state in which a request is answered: not busy, the response given, the outcome recorded. -/
def State.answered (s : State) (req : RequestRef) (o : ReqOutcome) (r : Response) : State :=
  { s with busy := false, responses := s.responses ++ [r], outcome := some ⟨req, o⟩ }

/-- The state in which a request is refused: not busy, no response, the refused mark set, the outcome recorded. -/
def State.refusedAs (s : State) (req : RequestRef) (o : ReqOutcome) : State :=
  { s with busy := false, refusedMark := true, outcome := some ⟨req, o⟩ }

/-- `Respond(r)` (rule R12) with an outcome: the request is complete. -/
def respond (req : RequestRef) (o : ReqOutcome) (r : Response) (s : State) : Result := .next (s.answered req o r)

/-- A refusal (rules R221, R227): no response, nothing changed but the refused mark and the recorded outcome. -/
def refuse (req : RequestRef) (o : ReqOutcome) (s : State) : Result := .next (s.refusedAs req o)

/-- FATAL_ALLOC (rules R204, R221, R224): the block is in phase FATAL, and the request is never answered. -/
def failAllocation (req : RequestRef) (s : State) : Result :=
  .next { s with phase := .fatal, outcome := some ⟨req, .fatalAlloc⟩ }

/-- The acceptance of every request but INIT (rule R225, checks 1 and 3). -/
def whenReady (req : RequestRef) (s : State) (k : State → Result) : Result :=
  match s.phase with
  | .fatal => .fault .fatalStuck
  | .uninit => refuse req .refusedNotInitialized s
  | .ready => k s

/-- The refusal of an illegal request word (rule R225, checks 1 and 2; rule R74). -/
def refuseWord (w : Word) (s : State) : Result :=
  match s.phase with
  | .fatal => .fault .fatalStuck
  | .uninit | .ready => refuse (.word w) .refusedReservedEncoding s

/-- A configuration outside rule R7's constraints or with a repeated pin has no meaning (rule R258). -/
def whenConfigured (s : State) (k : State → Result) : Result :=
  if s.cfg.wf then k s else .refused .invalidConfiguration

/-! ### The sequencer -/

/-- One item of a request's fixed sequence. -/
def runItem (it : SeqItem) (s : State) : Result :=
  match it with
  | .record n => .next { s with boardCount := n, writeChannel := 0 }
  | .configure l low => emit (configureEvents l low) s
  | .allocate => .next { s with memExists := true, mem := [] }
  | .allocFail req => failAllocation req s
  | .select mask => select mask s
  | .id v => sendId v s
  | .command c => sendCommand c s
  | .address a => writeBits a.toNat 7 s
  | .data w => writeBits w.toNat 4 s
  | .target b => .next { s with renderTarget := b }
  | .ready => .next { s with phase := .ready }
  | .respond req r => respond req .ok r s

/-- A sequence of items, in order, up to the first stop. -/
def runItems : List SeqItem → State → Result
  | [], s => .next s
  | it :: rest, s => andThen (runItem it s) (runItems rest)

/-- Run the whole sequence of an accepted request (rule R31: "one atomic step"). -/
def runRequest (items : List SeqItem) (s : State) : Result := runItems items { s with busy := true }

/-- One step of a sequencer that is inside a sequence: the next item; at the end it is idle (assumption 10). -/
def sequencerStep (s : State) : Result :=
  match s.seqpos with
  | [] => .next { s with busy := false }
  | it :: rest => runItem it { s with seqpos := rest }

/-- The words of a buffer byte: high nibble, then low (rule R174). -/
def byteItems (b : Byte) : List SeqItem := [.data (highNibble b), .data (lowNibble b)]

/-- The RAM-write frame of rule R172, without the bracket: ID_WR, address 0, every byte. -/
def ramWriteItems (bytes : List Byte) : List SeqItem :=
  [.id ProtocolId.wr, .address 0] ++ bytes.flatMap byteItems

/-- The command frame of rule R81, without the bracket: ID_CMD, then the commands. -/
def commandItems (cmds : List Byte) : List SeqItem := .id ProtocolId.cmd :: cmds.map .command

/-- A transaction between its select and its deselect (rules R58, R144). -/
def bracket (mask : Nat) (frame : List SeqItem) : List SeqItem :=
  .select mask :: frame ++ [.select deselectMask]

/-- The render body of rule R172 for board `t` and the buffer content `bytes`. -/
def renderItems (t : Nat) (bytes : List Byte) : List SeqItem := bracket (boardMask t) (ramWriteItems bytes)

end Sys2Proof.Machine
end

