-- ==== Sys2Proof/Machine/Brightness.lean ====
section
/-! DEFINITION. The brightness command sequence (44_brightness.md) and its pseudo-request (rule R76). -/

namespace Sys2Proof.Machine

/-- The fixed sequence of SET_BRIGHTNESS for the resolved mask `m` (rule R192). -/
def brightnessSequence (req : RequestRef) (level : Int) (m : Nat) : List SeqItem :=
  bracket m (commandItems [ChipCommand.pwmOfLevel level]) ++ [.respond req .ack]

/-- Send a PWM command to the boards that a mask resolves to (rules R190 to R192). -/
def brightness (level : Int) (mask : Nat) (s : State) : Result :=
  whenReady (.instr (.setBrightness level mask)) s fun s =>
    match resolveMask s.cfg s.boardCount s.renderTarget mask with
    | none => respond (.instr (.setBrightness level mask)) .ignoredNoTarget .ack s
    | some m => runRequest (brightnessSequence (.instr (.setBrightness level mask)) level m) s

/-- SET_BRIGHTNESS (rule R192). -/
def execSetBrightness (level : Int) (mask : Nat) (s : State) : Result := brightness level mask s

/-- SET_BRIGHTNESS_CURRENT, the request it expands to (rule R76). -/
def execSetBrightnessCurrent (level : Int) (s : State) : Result := brightness level s.cfg.currentBoardSentinel s

end Sys2Proof.Machine
end

