-- ==== Sys2Proof/Machine/Init.lean ====
section
/-! DEFINITION. The initialization sequencer (45_init_sequencer.md). -/

namespace Sys2Proof.Machine

/-- Steps (a) to (c): record, configure, deselect (rules R201 to R203). -/
def initConfigureItems (n : Nat) : List SeqItem :=
  [.record n] ++ (List.range n).map (fun i => .configure (.cs i) false)
    ++ [.configure .wr true, .configure .data true, .select deselectMask]

/-- The five commands of step (e), in order (rule R205). -/
def bringUpCommands (cfg : Config) : List Byte :=
  [ChipCommand.sysDis, cfg.commonModeCmd, ChipCommand.sysEn, ChipCommand.ledOn, ChipCommand.pwmOfLevel 16]

/-- Step (g) for one board: make it the target and send a blank render; every byte is 0x00 there (rule R207). -/
def blankRenderItems (cfg : Config) (b : Nat) : List SeqItem :=
  .target b :: renderItems b (List.replicate cfg.bufferSize 0)

/-- Steps (d) to (h) where the allocation succeeds (rules R204 to R208). -/
def initBringUpItems (cfg : Config) (n : Nat) (req : RequestRef) : List SeqItem :=
  [.allocate] ++ bracket cfg.initSelectMask (commandItems (bringUpCommands cfg))
    ++ (List.range n).flatMap (blankRenderItems cfg)
    ++ [.target 0, .ready, .respond req .ack]

/-- The fixed sequence of INIT, by the draw (rules R201 to R208). -/
def initSequence (cfg : Config) (allocOk : Bool) (n : Nat) (req : RequestRef) : List SeqItem :=
  initConfigureItems n ++ (if allocOk then initBringUpItems cfg n req else [.allocFail req])

/-- INIT (rules R200, R225): in order, stuck in FATAL, refused in READY, refused for a bad board count, else run. -/
def execInit (n : Int) (s : State) : Result :=
  match s.phase with
  | .fatal => .fault .fatalStuck
  | .ready => refuse (.instr (.init n)) .refusedReinit s
  | .uninit =>
    if decide (1 ≤ n) && decide (n ≤ s.cfg.maxBoards) then
      runRequest (initSequence s.cfg s.allocOk n.toNat (.instr (.init n))) s
    else refuse (.instr (.init n)) .refusedBadBoardCount s

end Sys2Proof.Machine
end

