-- ==== Sys2Proof/Machine/Pixel.lean ====
section
/-! DEFINITION. The frame-buffer requests (40_frame_buffer.md): the pixel requests, FILL, FILL_ALL, CLEAR and
SELECT_WRITE_CHANNEL. None of them touches a line (rule R116). -/

namespace Sys2Proof.Machine

/-- SET and CLEAR: read-modify-write of one byte, or ignored out of range (rules R106, R107). -/
def modifyPixel (req : RequestRef) (c x y : Int) (f : Byte → Byte → Byte) (s : State) : Result :=
  match pixelOperand s.cfg c x y with
  | none => respond req .ignoredOutOfRange .ack s
  | some (c, o, m) =>
    match memRead s c o with
    | none => .fault .badAddress
    | some b =>
      match memWrite s c o (f b m) with
      | none => .fault .badAddress
      | some s' => respond req .ok .ack s'

/-- GET: the pixel's bit, or 0 out of range (rule R108). -/
def readPixel (req : RequestRef) (c x y : Int) (s : State) : Result :=
  match pixelOperand s.cfg c x y with
  | none => respond req .ignoredOutOfRange (.bit false) s
  | some (c, o, m) =>
    match memRead s c o with
    | none => .fault .badAddress
    | some b => respond req .ok (.bit (decide (b &&& m ≠ 0))) s

/-- The byte SET leaves (rule R106). -/
def setMask (b m : Byte) : Byte := b ||| m

/-- The byte CLEAR leaves (rule R107). -/
def clearMask (b m : Byte) : Byte := b &&& ~~~m

/-- Write one value to a list of addresses and acknowledge (rules R112 to R114). -/
def fillAddresses (req : RequestRef) (v : Byte) (addrs : List (Nat × Nat)) (s : State) : Result :=
  match memWriteAll v addrs s with
  | none => .fault .badAddress
  | some s' => respond req .ok .ack s'

/-- SET_PIXEL (rule R106). -/
def execSetPixel (x y : Int) (s : State) : Result :=
  whenReady (.instr (.setPixel x y)) s fun s => modifyPixel (.instr (.setPixel x y)) s.writeChannel x y setMask s

/-- CLEAR_PIXEL (rule R107). -/
def execClearPixel (x y : Int) (s : State) : Result :=
  whenReady (.instr (.clearPixel x y)) s fun s =>
    modifyPixel (.instr (.clearPixel x y)) s.writeChannel x y clearMask s

/-- GET_PIXEL (rule R108). -/
def execGetPixel (x y : Int) (s : State) : Result :=
  whenReady (.instr (.getPixel x y)) s fun s => readPixel (.instr (.getPixel x y)) s.writeChannel x y s

/-- SET_PIXEL_CH (rule R109). -/
def execSetPixelCh (x y ch : Int) (s : State) : Result :=
  whenReady (.instr (.setPixelCh x y ch)) s fun s => modifyPixel (.instr (.setPixelCh x y ch)) ch x y setMask s

/-- CLEAR_PIXEL_CH (rule R110). -/
def execClearPixelCh (x y ch : Int) (s : State) : Result :=
  whenReady (.instr (.clearPixelCh x y ch)) s fun s => modifyPixel (.instr (.clearPixelCh x y ch)) ch x y clearMask s

/-- GET_PIXEL_CH (rule R111). -/
def execGetPixelCh (x y ch : Int) (s : State) : Result :=
  whenReady (.instr (.getPixelCh x y ch)) s fun s => readPixel (.instr (.getPixelCh x y ch)) ch x y s

/-- FILL (rule R112). -/
def execFill (s : State) : Result :=
  whenReady (.instr .fill) s fun s =>
    if validChannel s.cfg s.writeChannel then
      fillAddresses (.instr .fill) 0xFF#8 (channelAddresses s.cfg s.writeChannel.toNat) s
    else respond (.instr .fill) .ignoredOutOfRange .ack s

/-- FILL_ALL (rule R113). -/
def execFillAll (s : State) : Result :=
  whenReady (.instr .fillAll) s fun s => fillAddresses (.instr .fillAll) 0xFF#8 (allAddresses s.cfg) s

/-- CLEAR (rule R114). -/
def execClear (s : State) : Result :=
  whenReady (.instr .clear) s fun s => fillAddresses (.instr .clear) 0x00#8 (allAddresses s.cfg) s

/-- SELECT_WRITE_CHANNEL (rule R115). -/
def execSelectWriteChannel (n : Int) (s : State) : Result :=
  whenReady (.instr (.selectWriteChannel n)) s fun s =>
    if validChannel s.cfg n || decide (s.cfg.writeChannelPolicy = .storeAny) then
      respond (.instr (.selectWriteChannel n)) .ok .ack { s with writeChannel := n }
    else respond (.instr (.selectWriteChannel n)) .ignoredInvalidIndex .ack s

end Sys2Proof.Machine
end

