-- ==== Sys2Proof/Machine/Protocol.lean ====
section
/-! DEFINITION. The serial protocol's words and frames as the transmitter sends them (rules R78 to R84), and the
reserved request words (rule R74). A protocol word is run from the sequencer's position, never issued by the host
(rule R77); it acts on DATA and WR only, whatever boards are selected. -/

namespace Sys2Proof.Machine

/-- RESERVED_OP_0 (rule R74). -/
def execReservedOp0 (p : BitVec 28) (s : State) : Result := refuseWord (0x0#4 ++ p) s

/-- RESERVED_OP_F (rule R74). -/
def execReservedOpF (p : BitVec 28) (s : State) : Result := refuseWord (0xF#4 ++ p) s

/-- ID_CMD (rule R78). -/
def execIdCmd (s : State) : Result := sendId ProtocolId.cmd s

/-- ID_WR (rule R78). -/
def execIdWr (s : State) : Result := sendId ProtocolId.wr s

/-- ID_RD: never sent (rules R78, R84). -/
def execIdRd (s : State) : Result := sendId ProtocolId.rd s

/-- SYS_DIS (rule R82). -/
def execSysDis (s : State) : Result := sendCommand ChipCommand.sysDis s

/-- SYS_EN (rule R82). -/
def execSysEn (s : State) : Result := sendCommand ChipCommand.sysEn s

/-- LED_OFF: never sent (rules R82, R84). -/
def execLedOff (s : State) : Result := sendCommand ChipCommand.ledOff s

/-- LED_ON (rule R82). -/
def execLedOn (s : State) : Result := sendCommand ChipCommand.ledOn s

/-- BLINK_OFF: never sent (rules R82, R84). -/
def execBlinkOff (s : State) : Result := sendCommand ChipCommand.blinkOff s

/-- BLINK_ON: never sent (rules R82, R84). -/
def execBlinkOn (s : State) : Result := sendCommand ChipCommand.blinkOn s

/-- SLAVE_MODE: never sent (rules R82, R84). -/
def execSlaveMode (s : State) : Result := sendCommand ChipCommand.slaveMode s

/-- MASTER_MODE: never sent (rules R82, R84). -/
def execMasterMode (s : State) : Result := sendCommand ChipCommand.masterMode s

/-- INT_CLK: never sent (rules R82, R84). -/
def execIntClk (s : State) : Result := sendCommand ChipCommand.intClk s

/-- EXT_CLK: never sent (rules R82, R84). -/
def execExtClk (s : State) : Result := sendCommand ChipCommand.extClk s

/-- COM_20 (rule R82). -/
def execCom20 (s : State) : Result := sendCommand ChipCommand.com20 s

/-- COM_24 (rule R82). -/
def execCom24 (s : State) : Result := sendCommand ChipCommand.com24 s

/-- COM_28 (rule R82). -/
def execCom28 (s : State) : Result := sendCommand ChipCommand.com28 s

/-- COM_2C (rule R82). -/
def execCom2C (s : State) : Result := sendCommand ChipCommand.com2C s

/-- PWM (rule R83). -/
def execPwm (d : Nibble) (s : State) : Result := sendCommand (ChipCommand.pwmOfField d) s

/-- COMMAND_FRAME: ID_CMD, then at least one command, each with its padding (rule R81). -/
def execCommandFrame (cmds : List Byte) (s : State) : Result :=
  match cmds with
  | [] => .refused .emptyCommandFrame
  | c :: cs => runItems (commandItems (c :: cs)) s

/-- RAM_WRITE_FRAME: ID_WR, address 0, then the data words (rule R81). -/
def execRamWriteFrame (words : List Nibble) (s : State) : Result :=
  runItems ([.id ProtocolId.wr, .address 0] ++ words.map .data) s

end Sys2Proof.Machine
end

