-- ==== Sys2Proof/Machine/Render.lean ====
section
/-! DEFINITION. The render sequencer (43_render.md): SELECT_RENDER_TARGET and RENDER. -/

namespace Sys2Proof.Machine

/-- SELECT_RENDER_TARGET (rule R170). -/
def execSelectRenderTarget (n : Int) (s : State) : Result :=
  whenReady (.instr (.selectRenderTarget n)) s fun s =>
    if decide (s.cfg.renderTargetPolicy = .storeAny) || validBoard s.boardCount n then
      respond (.instr (.selectRenderTarget n)) .ok .ack { s with renderTarget := n }
    else respond (.instr (.selectRenderTarget n)) .ignoredInvalidIndex .ack s

/-- The fixed sequence of RENDER for the buffer content `bytes` (rule R172). -/
def renderSequence (t : Nat) (bytes : List Byte) : List SeqItem :=
  renderItems t bytes ++ [.respond (.instr .render) .ack]

/-- RENDER (rules R171, R172). The buffer cannot change while it runs (rule R57), so the bytes are read at the
start. -/
def execRender (s : State) : Result :=
  whenReady (.instr .render) s fun s =>
    if validBoard s.boardCount s.renderTarget then
      match memReadAll s (allAddresses s.cfg) with
      | none => .fault .badAddress
      | some bytes => runRequest (renderSequence s.renderTarget.toNat bytes) s
    else respond (.instr .render) .ignoredNoTarget .ack s

end Sys2Proof.Machine
end

