-- ==== Sys2Proof/Machine/Dispatch.lean ====
section
/-! DEFINITION. The dispatch: one arm per constructor of Instr. -/

namespace Sys2Proof.Machine

def exec (i : Instr) (s : State) : Host.Outcome State Fault Refusal :=
  match i with
  | .init n => Sys2Proof.Machine.execInit n s
  | .selectWriteChannel n => Sys2Proof.Machine.execSelectWriteChannel n s
  | .selectRenderTarget n => Sys2Proof.Machine.execSelectRenderTarget n s
  | .setPixel x y => Sys2Proof.Machine.execSetPixel x y s
  | .clearPixel x y => Sys2Proof.Machine.execClearPixel x y s
  | .getPixel x y => Sys2Proof.Machine.execGetPixel x y s
  | .setPixelCh x y ch => Sys2Proof.Machine.execSetPixelCh x y ch s
  | .clearPixelCh x y ch => Sys2Proof.Machine.execClearPixelCh x y ch s
  | .getPixelCh x y ch => Sys2Proof.Machine.execGetPixelCh x y ch s
  | .fill => Sys2Proof.Machine.execFill s
  | .fillAll => Sys2Proof.Machine.execFillAll s
  | .clear => Sys2Proof.Machine.execClear s
  | .render => Sys2Proof.Machine.execRender s
  | .setBrightness level mask => Sys2Proof.Machine.execSetBrightness level mask s
  | .setBrightnessCurrent level => Sys2Proof.Machine.execSetBrightnessCurrent level s
  | .reservedOp0 p => Sys2Proof.Machine.execReservedOp0 p s
  | .reservedOpF p => Sys2Proof.Machine.execReservedOpF p s
  | .idCmd => Sys2Proof.Machine.execIdCmd s
  | .idWr => Sys2Proof.Machine.execIdWr s
  | .idRd => Sys2Proof.Machine.execIdRd s
  | .sysDis => Sys2Proof.Machine.execSysDis s
  | .sysEn => Sys2Proof.Machine.execSysEn s
  | .ledOff => Sys2Proof.Machine.execLedOff s
  | .ledOn => Sys2Proof.Machine.execLedOn s
  | .blinkOff => Sys2Proof.Machine.execBlinkOff s
  | .blinkOn => Sys2Proof.Machine.execBlinkOn s
  | .slaveMode => Sys2Proof.Machine.execSlaveMode s
  | .masterMode => Sys2Proof.Machine.execMasterMode s
  | .intClk => Sys2Proof.Machine.execIntClk s
  | .extClk => Sys2Proof.Machine.execExtClk s
  | .com20 => Sys2Proof.Machine.execCom20 s
  | .com24 => Sys2Proof.Machine.execCom24 s
  | .com28 => Sys2Proof.Machine.execCom28 s
  | .com2C => Sys2Proof.Machine.execCom2C s
  | .pwm d => Sys2Proof.Machine.execPwm d s
  | .commandFrame cmds => Sys2Proof.Machine.execCommandFrame cmds s
  | .ramWriteFrame words => Sys2Proof.Machine.execRamWriteFrame words s

end Sys2Proof.Machine
end

