-- ==== Sys2Proof/Machine/Accept.lean ====
section
/-! DEFINITION. How the next instruction comes to run: the host's request port (rules R5, R225) and, while a sequence
is running, the sequencer's position (rule R31). Also the item-by-item run of a request, which rule R31's one
atomic step stands for. -/

namespace Sys2Proof.Machine

/-- Accept the host's next request, if it has issued one: decode it and run it, or refuse it (rule R225). With none
issued the sequencer waits (rule R250). -/
def acceptRequest (s : State) : Result :=
  match s.port with
  | [] => .next s
  | w :: rest =>
    match decode (.request w) with
    | .ok i => exec i { s with port := rest }
    | .error _ => refuseWord w { s with port := rest }

/-- One step of the block: none without a valid configuration (rule R258), none in phase FATAL (rule R228), the next
item of a running sequence (rule R31), else the next request. -/
def nextStep (s : State) : Result :=
  whenConfigured s fun s =>
    match s.phase with
    | .fatal => .fault .fatalStuck
    | .uninit | .ready => if s.busy then sequencerStep s else acceptRequest s

/-- Place a unit of code where the next step takes it from: a request word at the head of the port of an idle block,
a protocol word at the sequencer's position. -/
def placeCode (code : Code) (s : State) : State :=
  match code with
  | .request w => { s with busy := false, port := w :: s.port }
  | .id v => { s with busy := true, seqpos := .id v :: s.seqpos }
  | .command v => { s with busy := true, seqpos := .command (v.extractLsb' 1 8) :: s.seqpos }
  | .frame _ => s

/-- The sequence that an accepted request runs; none for a request that is refused, ignored or runs no sequence. -/
def requestSequence (i : Instr) (s : State) : Option (List SeqItem) :=
  match i.expand s.cfg with
  | .init n =>
    if s.phase = .uninit ∧ 1 ≤ n ∧ n ≤ s.cfg.maxBoards then
      some (initSequence s.cfg s.allocOk n.toNat (.instr (.init n)))
    else none
  | .render =>
    if s.phase = .ready ∧ validBoard s.boardCount s.renderTarget then
      (memReadAll s (allAddresses s.cfg)).map (renderSequence s.renderTarget.toNat)
    else none
  | .setBrightness level mask =>
    if s.phase = .ready then
      (resolveMask s.cfg s.boardCount s.renderTarget mask).map
        (brightnessSequence (.instr (.setBrightness level mask)) level)
    else none
  | _ => none

/-- The block at the start of a sequence: busy, at the sequence's first position (rule R31). -/
def startSequence (items : List SeqItem) (s : State) : State := { s with busy := true, seqpos := items }

end Sys2Proof.Machine
end

