-- ==== Sys2Proof/Safety.lean ====
section
/-! DEFINITION. What counts as a safe run: the invariant of the states a run reaches between requests (rules R34, R204,
R209), which rules out the faults of rule R235, and the terms the claims about events use. -/

namespace Sys2Proof.Machine

/-- A line configured and held at a level. -/
def LineState.driven (v : Bool) : LineState := ⟨levelOf v, true⟩

/-- The select lines between requests: the first `n` inactive, the others never driven (rules R34, R143). -/
def restCs (n maxBoards : Nat) : List LineState :=
  List.replicate n (.driven true) ++ List.replicate (maxBoards - n) .off

/-- The lines between requests, once they are configured (rule R34): no board selected, WR low, DATA at the level of
the last bit (rule R155), CLK never driven (rule R159). -/
def Lines.atRest (L : Lines) (n maxBoards : Nat) : Prop :=
  L.cs = restCs n maxBoards ∧ L.wr = .driven false ∧ (∃ b, L.data = .driven b) ∧ L.clk = .off

/-- The invariant at request boundaries: what rule R34 says of phase READY, rule R33 of UNINIT and rule R204 of
FATAL, with the canonical form of the frame buffer. -/
structure State.Inv (s : State) : Prop where
  cfg_wf : s.cfg.wf = true
  mem_wf : s.mem.wf = true
  mem_within : (s.mem.all fun cell => decide (cell.1 < s.cfg.bufferSize)) = true
  idle : s.seqpos = [] ∧ (s.phase ≠ .fatal → s.busy = false)
  uninit : s.phase = .uninit →
    s.boardCount = 0 ∧ s.memExists = false ∧ s.mem = [] ∧ s.lines = .off s.cfg.maxBoards ∧ s.traceRev = []
      ∧ s.responses = []
  configured : s.phase ≠ .uninit →
    1 ≤ s.boardCount ∧ s.boardCount ≤ s.cfg.maxBoards ∧ s.lines.atRest s.boardCount s.cfg.maxBoards
  ready : s.phase = .ready →
    s.memExists = true
      ∧ (s.cfg.writeChannelPolicy = .ignoreInvalid → 0 ≤ s.writeChannel ∧ s.writeChannel < s.cfg.numChannel)
      ∧ (s.cfg.renderTargetPolicy = .ignoreInvalid → 0 ≤ s.renderTarget ∧ s.renderTarget < s.boardCount)
  fatal : s.phase = .fatal →
    s.busy = true ∧ s.memExists = false ∧ s.mem = [] ∧ s.writeChannel = 0 ∧ s.lines.data = .driven false
      ∧ s.responses = []

/-! ### Terms of the claims -/

namespace Claims

/-- A valid channel and a valid pixel (rules R101, R105). -/
def inRange (cfg : Config) (c x y : Int) : Prop :=
  0 ≤ c ∧ c < cfg.numChannel ∧ 0 ≤ x ∧ x < cfg.outSize ∧ 0 ≤ y ∧ y < cfg.comSize

/-- What GET_PIXEL_CH answers in a state. -/
def getAnswer (s : State) (x y c : Int) : Option Response :=
  match exec (.getPixelCh x y c) s with
  | .next t => t.responses.getLast?
  | .fault _ => none
  | .refused _ => none

/-- The events of one select, with the level of each board's line given (rule R140). -/
def selects (n : Nat) (level : Nat → Bool) : List LineEvent := (List.range n).map fun i => .w (.cs i) (level i)

/-- The events of a list of bits: five for each bit (rule R151). -/
def bits (bs : List Bool) : List LineEvent :=
  bs.flatMap fun b => [.w .data b, .settle, .w .wr true, .w .wr false, .settle]

/-- The bits of the whole buffer in the order RENDER sends them (rules R173, R174). -/
def bufferBits (s : State) : List Bool :=
  (List.range s.cfg.numChannel).flatMap fun c =>
    (List.range s.cfg.addrSpaceSize).flatMap fun o => bitsMSB (byteAt s c o).toNat 8

/-- The header of a RAM-write frame: `101`, then address 0 in 7 bits (rules R78, R80). -/
def ramWriteHeader : List Bool := [true, false, true, false, false, false, false, false, false, false]

/-- A request word that rule R74 calls illegal: OP 0x0 or 0xF, RSV not 0, or a field not 0 that rule R73 does not list
for its OP. -/
def illegalWord (w : Word) : Prop :=
  let op := w.toNat / 2 ^ 28
  let a := w.toNat / 2 ^ 20 % 2 ^ 8
  let b := w.toNat / 2 ^ 12 % 2 ^ 8
  let c := w.toNat / 2 ^ 4 % 2 ^ 8
  op = 0x0 ∨ op = 0xF ∨ w.toNat % 2 ^ 4 ≠ 0
    ∨ (op ∈ [0xA, 0xB, 0xC, 0xD] ∧ a ≠ 0)
    ∨ (op ∈ [0x1, 0x2, 0x3, 0xA, 0xB, 0xC, 0xD] ∧ b ≠ 0)
    ∨ (op ∈ [0x1, 0x2, 0x3, 0x4, 0x5, 0x6, 0xA, 0xB, 0xC, 0xD, 0xE] ∧ c ≠ 0)

/-- Every rise of WR is followed at once by its fall, so WR is never high across any other event (rules R151, R156). -/
def pulsed : List LineEvent → Bool
  | [] => true
  | [e] => decide (e ≠ .w .wr true)
  | e :: e' :: rest => (decide (e ≠ .w .wr true) || decide (e' = .w .wr false)) && pulsed (e' :: rest)

end Claims

end Sys2Proof.Machine
end

