-- ==== Sys2Proof/Certificates/Slice0/Obligations.lean ====
section
/-! DEFINITION. The statements for the provers. -/

open Sys2Proof Sys2Proof.Machine

/-! ### Encoding -/

/-- Decoding what the encoder writes gives the instruction back, for every well-formed instruction of every row and
every operand its encoding carries; the pseudo-request comes back as the request it expands to (rule R76). -/
def Obligations.DecodeOfEncodeIsTheInstruction : Prop :=
  ∀ (cfg : Config) (i : Instr), i.wellFormed cfg = true → decode (encode cfg i) = .ok (i.expand cfg)

/-- Every host request word that decodes to an instruction is that instruction's one encoding: no bit of a word is
ignored (rule R86). -/
def Obligations.EncodeOfDecodedWordIsTheWord : Prop :=
  ∀ (cfg : Config) (w : Word) (i : Instr), decode (.request w) = .ok i → encode cfg i = .request w

/-- The opcode map of the request word, with every operand field in its place, zero-extended (rules R71, R72, R73). -/
def Obligations.RequestWordFields : Prop :=
  ∀ a b c : Byte,
    decode (.request (0x1#4 ++ a ++ 0x00000#20)) = .ok (.init a.toNat)
    ∧ decode (.request (0x2#4 ++ a ++ 0x00000#20)) = .ok (.selectWriteChannel a.toNat)
    ∧ decode (.request (0x3#4 ++ a ++ 0x00000#20)) = .ok (.selectRenderTarget a.toNat)
    ∧ decode (.request (0x4#4 ++ a ++ b ++ 0x000#12)) = .ok (.setPixel a.toNat b.toNat)
    ∧ decode (.request (0x5#4 ++ a ++ b ++ 0x000#12)) = .ok (.clearPixel a.toNat b.toNat)
    ∧ decode (.request (0x6#4 ++ a ++ b ++ 0x000#12)) = .ok (.getPixel a.toNat b.toNat)
    ∧ decode (.request (0x7#4 ++ a ++ b ++ c ++ 0x0#4)) = .ok (.setPixelCh a.toNat b.toNat c.toNat)
    ∧ decode (.request (0x8#4 ++ a ++ b ++ c ++ 0x0#4)) = .ok (.clearPixelCh a.toNat b.toNat c.toNat)
    ∧ decode (.request (0x9#4 ++ a ++ b ++ c ++ 0x0#4)) = .ok (.getPixelCh a.toNat b.toNat c.toNat)
    ∧ decode (.request (0xA#4 ++ 0x0000000#28)) = .ok .fill
    ∧ decode (.request (0xB#4 ++ 0x0000000#28)) = .ok .fillAll
    ∧ decode (.request (0xC#4 ++ 0x0000000#28)) = .ok .clear
    ∧ decode (.request (0xD#4 ++ 0x0000000#28)) = .ok .render
    ∧ decode (.request (0xE#4 ++ a ++ b ++ 0x000#12)) = .ok (.setBrightness a.toNat b.toNat)

/-- Nine words written out from the encodings of rules R73, R78, R79, R82 and R83 (host requests, an ID, commands with their
padding bit) decode to the instructions they stand for. The last clause reads a request word as a word of the opcode
table, which is the model's choice (log entry 9). -/
def Obligations.SampleWordsDecode : Prop :=
  decode (.request 0x10200000#32) = .ok (.init 2)
    ∧ decode (.request 0x4170F000#32) = .ok (.setPixel 23 15)
    ∧ decode (.request 0x8170F000#32) = .ok (.clearPixelCh 23 15 0)
    ∧ decode (.request 0x9170F010#32) = .ok (.getPixelCh 23 15 1)
    ∧ decode (.request 0xE0805000#32) = .ok (.setBrightness 8 5)
    ∧ decode (.request 0xD0000000#32) = .ok .render
    ∧ decode (.id 0b101#3) = .ok .idWr
    ∧ decode (.command 0b101011110#9) = .ok (.pwm 15)
    ∧ decode (.command 0b000000110#9) = .ok .ledOn
    ∧ decodeTableWord 32 0x30500000 = some (.selectRenderTarget 5)

/-! ### The step -/

/-- Rule R225: the checks of an issued request word, in order, and the request's own rule where none applies; a block
that is inside a sequence accepts nothing. -/
def Obligations.AcceptanceChecksInOrder : Prop :=
  ∀ (s : State) (w : Word) (rest : List Word), s.cfg.wf = true → s.port = w :: rest →
    (s.phase = .fatal → step s = .fault .fatalStuck)
    ∧ (s.phase ≠ .fatal → s.busy = true → ∀ t, step s = .next t → t.port = s.port)
    ∧ (s.phase ≠ .fatal → s.busy = false →
        (Claims.illegalWord w → step s = .next
          { s with port := rest, refusedMark := true, outcome := some ⟨.word w, .refusedReservedEncoding⟩ })
        ∧ (¬ Claims.illegalWord w → ∃ i, decode (.request w) = .ok i
            ∧ (s.phase = .uninit → (∀ n, i ≠ .init n) → step s = .next
                { s with port := rest, refusedMark := true, outcome := some ⟨.instr i, .refusedNotInitialized⟩ })
            ∧ (s.phase = .ready → (∃ n, i = .init n) → step s = .next
                { s with port := rest, refusedMark := true, outcome := some ⟨.instr i, .refusedReinit⟩ })
            ∧ (s.phase = .uninit → (∃ n, i = .init n ∧ ¬ (1 ≤ n ∧ n ≤ s.cfg.maxBoards)) → step s = .next
                { s with port := rest, refusedMark := true, outcome := some ⟨.instr i, .refusedBadBoardCount⟩ })
            ∧ step s = exec i { s with port := rest }))

/-- A step of an idle block whose next request word decodes runs exactly the decoded instruction, on the state with the
word taken from the port. -/
def Obligations.StepRunsTheDecodedRequest : Prop :=
  ∀ (s : State) (w : Word) (rest : List Word) (i : Instr), s.cfg.wf = true → s.phase ≠ .fatal → s.busy = false →
    s.port = w :: rest → decode (.request w) = .ok i → step s = exec i { s with port := rest }

/-- A step of a block inside a sequence, whose position holds a protocol word of rule R78 or R82, runs exactly the
decoded instruction, on the state past that position. -/
def Obligations.StepRunsTheSequencersWord : Prop :=
  ∀ (s : State) (rest : List SeqItem) (i : Instr), s.cfg.wf = true → s.phase ≠ .fatal → s.busy = true →
    ((∃ v, s.seqpos = .id v :: rest ∧ decode (.id v) = .ok i)
      ∨ (∃ c : Byte, s.seqpos = .command c :: rest ∧ decode (.command (c ++ 0#1)) = .ok i)) →
    step s = exec i { s with seqpos := rest }

/-- An idle block to which no request is issued waits (rule R250). -/
def Obligations.StepWaitsForARequest : Prop :=
  ∀ s : State, s.cfg.wf = true → s.phase ≠ .fatal → s.busy = false → s.port = [] → step s = .next s

/-- A stuck block has no step, whatever it holds and whatever is issued to it (rule R228). -/
def Obligations.FatalBlockHasNoStep : Prop :=
  ∀ s : State, s.cfg.wf = true → s.phase = .fatal → step s = .fault .fatalStuck

/-- A configuration with a repeated pin is refused whole (rule R258). -/
def Obligations.RepeatedPinIsRefused : Prop :=
  ∀ s : State, ¬ s.cfg.pins.Nodup → step s = .refused .invalidConfiguration

/-! ### Power-on and the invariant -/

/-- The state at power-on, component by component (rule R33). The registers that the rule leaves unspecified are not
mentioned. -/
def Obligations.PowerOnStateOfTheSpec : Prop :=
  ∀ (cfg : Config) (allocOk : Bool), let s := State.powerOn cfg allocOk
    s.phase = .uninit ∧ s.boardCount = 0 ∧ s.memExists = false ∧ s.busy = false ∧ s.trace = []
      ∧ s.refusedMark = false
      ∧ (∀ l, (s.lines.get l).level = .z ∧ (s.lines.get l).cfgd = false)

/-- The invariant of `State.Inv` holds at power-on, in every valid configuration and for both draws. That no sequence
is laid out there and no response is recorded is the model's choice (log entries 32 and 5). -/
def Obligations.PowerOnMeetsTheBoundaryConditions : Prop :=
  ∀ (cfg : Config) (allocOk : Bool), cfg.wf = true → (State.powerOn cfg allocOk).Inv

/-- Every step keeps the invariant: rule R34's conditions hold at every request boundary, the buffer stays in canonical
form and in its address space, and the FATAL state is the one of rule R204. -/
def Obligations.StepKeepsTheBoundaryConditions : Prop :=
  ∀ s t : State, s.Inv → step s = .next t → t.Inv

/-- From every state of the invariant that is not FATAL a step completes: the faults of rule R235 are never reached, and
nothing is refused. -/
def Obligations.NoFaultIsReached : Prop :=
  ∀ s : State, s.Inv → s.phase ≠ .fatal → ∃ t, step s = .next t

/-! ### Whole-machine rules -/

/-- The configuration and the draw are fixed for the life of the block (rules R20, R29). -/
def Obligations.ConfigurationNeverChanges : Prop :=
  ∀ s t : State, step s = .next t → t.cfg = s.cfg ∧ t.allocOk = s.allocOk

/-- Only INIT moves the phase, and only from UNINIT, to READY or FATAL by the draw (rules R21, R251). -/
def Obligations.OnlyInitMovesThePhase : Prop :=
  ∀ s t : State, s.busy = false → step s = .next t → t.phase ≠ s.phase →
    ∃ (w : Word) (rest : List Word) (n : Int), s.port = w :: rest ∧ decode (.request w) = .ok (.init n)
      ∧ s.phase = .uninit ∧ 1 ≤ n ∧ n ≤ s.cfg.maxBoards
      ∧ t.phase = (if s.allocOk then .ready else .fatal)

/-- The refused mark is never cleared, and the trace only grows: events happened are never taken back (rules R27, R30). -/
def Obligations.GhostRecordsOnlyGrow : Prop :=
  ∀ s t : State, step s = .next t → (s.refusedMark = true → t.refusedMark = true) ∧ s.trace <+: t.trace

/-- Every step's events keep the strobe discipline: WR falls right after each rise, so DATA cannot change while WR is
high (rules R151, R156). -/
def Obligations.StrobeIsPulsedInEveryStep : Prop :=
  ∀ s t : State, step s = .next t → ∃ evs, t.trace = s.trace ++ evs ∧ Claims.pulsed evs = true

/-- No step of an idle block configures or drives CLK (rules R26, R159). -/
def Obligations.ClockLineIsNeverTouched : Prop :=
  ∀ s t : State, s.busy = false → step s = .next t →
    t.lines.clk = s.lines.clk
      ∧ ∃ evs, t.trace = s.trace ++ evs ∧ ∀ e ∈ evs, e ≠ .cfg .clk ∧ ∀ v, e ≠ .w .clk v

/-- A request run in one atomic step is the run of its sequence item by item, from the same state: rule R31's two readings
agree, for every request that runs a sequence. What one item is (a select, a protocol field, a register write, the
response) is the model's choice (log entry 6). -/
def Obligations.AtomicStepIsTheItemByItemRun : Prop :=
  ∀ (s : State) (i : Instr) (items : List SeqItem), s.cfg.wf = true → s.seqpos = [] →
    requestSequence i s = some items →
    Host.Core.run Sys2Proof.core items.length (startSequence items s) = exec i s

/-- No frame-buffer request drives, configures or reads a line, and none appends an event (rule R116); CLEAR and the
select too. -/
def Obligations.BufferRequestsTouchNoLine : Prop :=
  ∀ (s t : State) (i : Instr),
    (∃ x y c n, i ∈ [.setPixel x y, .clearPixel x y, .getPixel x y, .setPixelCh x y c, .clearPixelCh x y c,
      .getPixelCh x y c, .fill, .fillAll, .clear, .selectWriteChannel n]) →
    exec i s = .next t →
    t.lines = s.lines ∧ t.trace = s.trace
      ∧ ∀ L : Lines, exec i { s with lines := L } = .next { t with lines := L }

/-! ### The address decoder -/

/-- The decoder's result, by the formulas of rules R101, R102 and R103. -/
def Obligations.AddressDecoderFormulas : Prop :=
  ∀ (cfg : Config) (x y : Int),
    (¬ (0 ≤ x ∧ x < cfg.outSize ∧ 0 ≤ y ∧ y < cfg.comSize) → decodePixel cfg x y = none)
    ∧ (0 ≤ x ∧ x < cfg.outSize ∧ 0 ≤ y ∧ y < cfg.comSize →
        decodePixel cfg x y = some
          (match cfg.layout with
            | .outputMajor => x.toNat * (cfg.comSize / cfg.pixelsPerByte) + y.toNat / cfg.pixelsPerByte
            | .groupMajor => y.toNat / cfg.pixelsPerByte * cfg.outSize + x.toNat,
           1#8 <<< ((cfg.pixelsPerByte - 1) - y.toNat % cfg.pixelsPerByte)))

/-- Which pixels the decoder takes, and the mask it gives them: one bit, the top one of the PPB for the first row of a
group (rules R101, R102). -/
def Obligations.AddressDecoderMask : Prop :=
  ∀ (cfg : Config) (x y : Int), cfg.wf = true →
    (¬ (0 ≤ x ∧ x < cfg.outSize ∧ 0 ≤ y ∧ y < cfg.comSize) → decodePixel cfg x y = none)
    ∧ (0 ≤ x ∧ x < cfg.outSize ∧ 0 ≤ y ∧ y < cfg.comSize →
        ∃ o m, decodePixel cfg x y = some (o, m)
          ∧ (let b := (cfg.pixelsPerByte - 1) - y.toNat % cfg.pixelsPerByte
             m = 1#8 <<< b ∧ b < 8 ∧ ∀ k, m.getLsbD k = decide (k = b))
          ∧ (cfg.pixelsPerByte = 8 → m = 0x80#8 >>> (y.toNat % 8)))

/-- The decoder is a bijection from the valid pixels onto the (offset, bit) pairs of a channel buffer, with the inverse that
rule R104 gives, in both layouts. -/
def Obligations.AddressDecoderIsABijection : Prop :=
  ∀ cfg : Config, cfg.wf = true →
    let ppb := cfg.pixelsPerByte
    let g := cfg.comSize / ppb
    let inverse : Nat → Nat → Nat × Nat := fun o b =>
      match cfg.layout with
      | .outputMajor => (o / g, o % g * ppb + (ppb - 1 - b))
      | .groupMajor => (o % cfg.outSize, o / cfg.outSize * ppb + (ppb - 1 - b))
    (∀ x y : Nat, x < cfg.outSize → y < cfg.comSize →
      ∃ o b, decodePixel cfg x y = some (o, 1#8 <<< b) ∧ o < cfg.addrSpaceSize ∧ b ≤ ppb - 1 ∧ inverse o b = (x, y))
    ∧ (∀ o b : Nat, o < cfg.addrSpaceSize → b ≤ ppb - 1 →
      (inverse o b).1 < cfg.outSize ∧ (inverse o b).2 < cfg.comSize
        ∧ decodePixel cfg (inverse o b).1 (inverse o b).2 = some (o, 1#8 <<< b))

/-! ### Pixel and bulk requests -/

/-- SET_PIXEL and SET_PIXEL_CH: the pixel's bit is set and nothing else changes; out of range they are ignored (rules R106,
R109). -/
def Obligations.SetPixelSetsOneBit : Prop :=
  (∀ a b c : Byte, decode (.request (0x4#4 ++ a ++ b ++ 0x000#12)) = .ok (.setPixel a.toNat b.toNat)
    ∧ decode (.request (0x7#4 ++ a ++ b ++ c ++ 0x0#4)) = .ok (.setPixelCh a.toNat b.toNat c.toNat))
  ∧ ∀ (s : State) (i : Instr) (c x y : Int),
    (i = .setPixel x y ∧ c = s.writeChannel) ∨ i = .setPixelCh x y c →
    s.phase = .ready → s.memExists = true → s.mem.wf = true → s.cfg.wf = true →
    let o := pixelOffset s.cfg x.toNat y.toNat
    (Claims.inRange s.cfg c x y → ∃ t, exec i s = .next t
      ∧ byteAt t c.toNat o = byteAt s c.toNat o ||| pixelMask s.cfg y.toNat
      ∧ (∀ c' o', c' < s.cfg.numChannel → o' < s.cfg.addrSpaceSize → ¬ (c' = c.toNat ∧ o' = o) →
          byteAt t c' o' = byteAt s c' o')
      ∧ t = { s with mem := t.mem, busy := false, responses := s.responses ++ [.ack],
                     outcome := some ⟨.instr i, .ok⟩ })
    ∧ (¬ Claims.inRange s.cfg c x y → exec i s = .next
        { s with busy := false, responses := s.responses ++ [.ack], outcome := some ⟨.instr i, .ignoredOutOfRange⟩ })

/-- CLEAR_PIXEL and CLEAR_PIXEL_CH: the pixel's bit is cleared and nothing else changes; out of range they are ignored
(rules R107, R110). -/
def Obligations.ClearPixelClearsOneBit : Prop :=
  (∀ a b c : Byte, decode (.request (0x5#4 ++ a ++ b ++ 0x000#12)) = .ok (.clearPixel a.toNat b.toNat)
    ∧ decode (.request (0x8#4 ++ a ++ b ++ c ++ 0x0#4)) = .ok (.clearPixelCh a.toNat b.toNat c.toNat))
  ∧ ∀ (s : State) (i : Instr) (c x y : Int),
    (i = .clearPixel x y ∧ c = s.writeChannel) ∨ i = .clearPixelCh x y c →
    s.phase = .ready → s.memExists = true → s.mem.wf = true → s.cfg.wf = true →
    let o := pixelOffset s.cfg x.toNat y.toNat
    (Claims.inRange s.cfg c x y → ∃ t, exec i s = .next t
      ∧ byteAt t c.toNat o = byteAt s c.toNat o &&& ~~~ pixelMask s.cfg y.toNat
      ∧ (∀ c' o', c' < s.cfg.numChannel → o' < s.cfg.addrSpaceSize → ¬ (c' = c.toNat ∧ o' = o) →
          byteAt t c' o' = byteAt s c' o')
      ∧ t = { s with mem := t.mem, busy := false, responses := s.responses ++ [.ack],
                     outcome := some ⟨.instr i, .ok⟩ })
    ∧ (¬ Claims.inRange s.cfg c x y → exec i s = .next
        { s with busy := false, responses := s.responses ++ [.ack], outcome := some ⟨.instr i, .ignoredOutOfRange⟩ })

/-- GET_PIXEL and GET_PIXEL_CH answer the pixel's bit, or 0 out of range, and change nothing (rules R108, R111). -/
def Obligations.GetPixelAnswersTheBit : Prop :=
  (∀ a b c : Byte, decode (.request (0x6#4 ++ a ++ b ++ 0x000#12)) = .ok (.getPixel a.toNat b.toNat)
    ∧ decode (.request (0x9#4 ++ a ++ b ++ c ++ 0x0#4)) = .ok (.getPixelCh a.toNat b.toNat c.toNat))
  ∧ ∀ (s : State) (i : Instr) (c x y : Int),
    (i = .getPixel x y ∧ c = s.writeChannel) ∨ i = .getPixelCh x y c →
    s.phase = .ready → s.memExists = true → s.cfg.wf = true →
    (Claims.inRange s.cfg c x y → exec i s = .next
        { s with busy := false, outcome := some ⟨.instr i, .ok⟩,
                 responses := s.responses ++ [.bit (decide (
                   byteAt s c.toNat (pixelOffset s.cfg x.toNat y.toNat) &&& pixelMask s.cfg y.toNat ≠ 0))] })
    ∧ (¬ Claims.inRange s.cfg c x y → exec i s = .next
        { s with busy := false, responses := s.responses ++ [.bit false],
                 outcome := some ⟨.instr i, .ignoredOutOfRange⟩ })

/-- The pixel properties of rule R117: a GET after a SET or CLEAR, no aliasing, no effect out of range, and the values
after FILL_ALL and CLEAR. -/
def Obligations.PixelPropertiesOfTheSource : Prop :=
  ∀ s : State, s.phase = .ready → s.memExists = true → s.mem.wf = true → s.cfg.wf = true →
    (∀ x y c : Int, Claims.inRange s.cfg c x y → ∃ t, exec (.setPixelCh x y c) s = .next t
      ∧ Claims.getAnswer t x y c = some (.bit true)
      ∧ ∀ x' y' c' : Int, Claims.inRange s.cfg c' x' y' → ¬ (x' = x ∧ y' = y ∧ c' = c) →
          Claims.getAnswer t x' y' c' = Claims.getAnswer s x' y' c')
    ∧ (∀ x y c : Int, Claims.inRange s.cfg c x y → ∃ t, exec (.clearPixelCh x y c) s = .next t
      ∧ Claims.getAnswer t x y c = some (.bit false)
      ∧ ∀ x' y' c' : Int, Claims.inRange s.cfg c' x' y' → ¬ (x' = x ∧ y' = y ∧ c' = c) →
          Claims.getAnswer t x' y' c' = Claims.getAnswer s x' y' c')
    ∧ (∀ x y c : Int, ¬ (0 ≤ x ∧ x < s.cfg.outSize ∧ 0 ≤ y ∧ y < s.cfg.comSize) →
        (∃ t, exec (.setPixelCh x y c) s = .next t ∧ t.mem = s.mem)
        ∧ (∃ t, exec (.clearPixelCh x y c) s = .next t ∧ t.mem = s.mem)
        ∧ Claims.getAnswer s x y c = some (.bit false))
    ∧ (∃ t, exec .fillAll s = .next t
        ∧ ∀ x y c : Int, Claims.inRange s.cfg c x y → Claims.getAnswer t x y c = some (.bit true))
    ∧ (∃ t, exec .clear s = .next t
        ∧ ∀ x y c : Int, Claims.inRange s.cfg c x y → Claims.getAnswer t x y c = some (.bit false))

/-- FILL sets every byte of the write channel and no other; with an invalid write channel it is ignored (rule R112). -/
def Obligations.FillSetsTheWriteChannel : Prop :=
  decode (.request 0xA0000000#32) = .ok .fill
  ∧ ∀ s : State, s.phase = .ready → s.memExists = true → s.mem.wf = true →
    (0 ≤ s.writeChannel ∧ s.writeChannel < s.cfg.numChannel → ∃ t, exec .fill s = .next t
      ∧ (∀ c o, c < s.cfg.numChannel → o < s.cfg.addrSpaceSize →
          byteAt t c o = if (c : Int) = s.writeChannel then 0xFF#8 else byteAt s c o)
      ∧ t = { s with mem := t.mem, busy := false, responses := s.responses ++ [.ack],
                     outcome := some ⟨.instr .fill, .ok⟩ })
    ∧ (¬ (0 ≤ s.writeChannel ∧ s.writeChannel < s.cfg.numChannel) → exec .fill s = .next
        { s with busy := false, responses := s.responses ++ [.ack],
                 outcome := some ⟨.instr .fill, .ignoredOutOfRange⟩ })

/-- FILL_ALL sets every byte of every channel to 0xFF, CLEAR to 0x00, whatever the write channel (rules R113, R114). -/
def Obligations.FillAllAndClearSetEveryByte : Prop :=
  decode (.request 0xB0000000#32) = .ok .fillAll ∧ decode (.request 0xC0000000#32) = .ok .clear
  ∧ ∀ (s : State) (i : Instr) (v : Byte), (i = .fillAll ∧ v = 0xFF#8) ∨ (i = .clear ∧ v = 0x00#8) →
    s.phase = .ready → s.memExists = true → s.mem.wf = true → ∃ t, exec i s = .next t
      ∧ (∀ c o, c < s.cfg.numChannel → o < s.cfg.addrSpaceSize → byteAt t c o = v)
      ∧ t = { s with mem := t.mem, busy := false, responses := s.responses ++ [.ack],
                     outcome := some ⟨.instr i, .ok⟩ }

/-- SELECT_WRITE_CHANNEL stores a valid index, and an invalid one under STORE_ANY only (rule R115). -/
def Obligations.SelectWriteChannelStores : Prop :=
  ∀ (s : State) (n : Int), s.phase = .ready →
    ((0 ≤ n ∧ n < s.cfg.numChannel) ∨ s.cfg.writeChannelPolicy = .storeAny →
      exec (.selectWriteChannel n) s = .next
        { s with writeChannel := n, busy := false, responses := s.responses ++ [.ack],
                 outcome := some ⟨.instr (.selectWriteChannel n), .ok⟩ })
    ∧ (¬ (0 ≤ n ∧ n < s.cfg.numChannel) → s.cfg.writeChannelPolicy = .ignoreInvalid →
      exec (.selectWriteChannel n) s = .next
        { s with busy := false, responses := s.responses ++ [.ack],
                 outcome := some ⟨.instr (.selectWriteChannel n), .ignoredInvalidIndex⟩ })

/-! ### Chip select and the transmitter -/

/-- `select(mask)` drives the line of every board to its bit's active-low level, in ascending order, and touches nothing
else (rules R140, R143). -/
def Obligations.SelectDrivesEveryBoardLine : Prop :=
  ∀ (s : State) (mask : Nat), (∀ i < s.boardCount, (s.lines.get (.cs i)).cfgd = true) →
    ∃ t, select mask s = .next t
      ∧ t.trace = s.trace ++ Claims.selects s.boardCount (fun i => !mask.testBit i)
      ∧ (∀ i < s.boardCount, (t.lines.get (.cs i)).level = if mask.testBit i then .lo else .hi)
      ∧ (∀ i ≥ s.boardCount, t.lines.get (.cs i) = s.lines.get (.cs i))
      ∧ t = { s with lines := { s.lines with cs := t.lines.cs }, traceRev := t.traceRev }

/-- Mask bits of boards that are not configured have no effect; of the configured boards, exactly the lines whose bit is
set are asserted and all others are deasserted (rule R142). -/
def Obligations.SelectIgnoresHigherMaskBits : Prop :=
  ∀ (s : State) (mask : Nat),
    select mask s = select (mask &&& (2 ^ s.boardCount - 1)) s
    ∧ ((∀ i < s.boardCount, (s.lines.get (.cs i)).cfgd = true) → ∃ t, select mask s = .next t
        ∧ ∀ i < s.boardCount, ((t.lines.get (.cs i)).level = .lo ↔ mask.testBit i = true)
            ∧ ((t.lines.get (.cs i)).level = .hi ↔ mask.testBit i = false))

/-- `writeBits(value, n)` sends the low n bits, most significant first, five events a bit; it starts and ends with WR low,
DATA keeps the last bit, and with WR not low it faults (rules R150 to R152, R155). -/
def Obligations.WriteBitsSendsTheLowBits : Prop :=
  ∀ (s : State) (v n : Nat),
    (s.lines.wr.level = .lo → s.lines.wr.cfgd = true → s.lines.data.cfgd = true → ∃ t, writeBits v n s = .next t
      ∧ t.trace = s.trace ++ Claims.bits ((List.range n).reverse.map fun j => v.testBit j)
      ∧ t.lines.wr = s.lines.wr
      ∧ (0 < n → t.lines.data = ⟨if v.testBit 0 then .hi else .lo, true⟩) ∧ (n = 0 → t.lines.data = s.lines.data)
      ∧ t = { s with lines := { s.lines with data := t.lines.data }, traceRev := t.traceRev })
    ∧ (s.lines.wr.level ≠ .lo → writeBits v n s = .fault .strobeHigh)

/-- Word boundaries are not visible on the lines: sending a value in two parts is sending it whole, from every state
(rule R160). -/
def Obligations.SplitFieldsSendTheSameEvents : Prop :=
  ∀ (s : State) (v m n : Nat),
    andThen (writeBits (v >>> n) m s) (writeBits v n) = writeBits v (m + n) s

/-- The protocol words that the block sends complete from every state whose lines can send, and put exactly the word's bits
on DATA, a command's padding bit 0 after its 8 bits, and no padding after an ID (rules R78, R79, R82, R83). That such a
row runs by itself, from the sequencer's position (log entry 9), in every phase (log entry 10), and COM_20 to COM_2C
whatever COMMON_MODE_CMD is (log entry 12), is the model's choice. -/
def Obligations.ProtocolWordsAreSent : Prop :=
  ∀ (s : State) (d : Nibble) (i : Instr) (bs : List Bool),
    (i, bs) ∈ [
      (.idCmd, [true, false, false]),
      (.idWr, [true, false, true]),
      (.sysDis, [false, false, false, false, false, false, false, false, false]),
      (.sysEn, [false, false, false, false, false, false, false, true, false]),
      (.ledOn, [false, false, false, false, false, false, true, true, false]),
      (.com20, [false, false, true, false, false, false, false, false, false]),
      (.com24, [false, false, true, false, false, true, false, false, false]),
      (.com28, [false, false, true, false, true, false, false, false, false]),
      (.com2C, [false, false, true, false, true, true, false, false, false]),
      (.pwm d, [true, false, true, false] ++ bitsMSB d.toNat 4 ++ [false])] →
    s.lines.wr = ⟨.lo, true⟩ → s.lines.data.cfgd = true →
    ∃ t, exec i s = .next t ∧ t.trace = s.trace ++ Claims.bits bs
      ∧ t = { s with lines := { s.lines with data := ⟨if bs.getLastD false then .hi else .lo, true⟩ },
                     traceRev := t.traceRev }

/-- The protocol words that the block never sends are refused from every state (rules R78, R82, R84); so is a command frame
with no command (rule R81 asks for k ≥ 1), and, where the lines can send, one that holds a command the block never
sends: the first such command is named. That these stops are refusals is the model's choice (log entries 11 and 13). -/
def Obligations.NeverSentWordsAreRefused : Prop :=
  ∀ s : State, exec .idRd s = .refused (.neverSentId 0b110#3)
    ∧ exec .ledOff s = .refused (.neverSentCommand 0x02#8)
    ∧ exec .blinkOff s = .refused (.neverSentCommand 0x08#8)
    ∧ exec .blinkOn s = .refused (.neverSentCommand 0x09#8)
    ∧ exec .slaveMode s = .refused (.neverSentCommand 0x10#8)
    ∧ exec .masterMode s = .refused (.neverSentCommand 0x14#8)
    ∧ exec .intClk s = .refused (.neverSentCommand 0x18#8)
    ∧ exec .extClk s = .refused (.neverSentCommand 0x1C#8)
    ∧ exec (.commandFrame []) s = .refused .emptyCommandFrame
    ∧ (s.lines.wr = ⟨.lo, true⟩ → s.lines.data.cfgd = true →
        ∀ (sent : List Byte) (c : Byte) (rest : List Byte),
          (∀ b ∈ sent, ChipCommand.sendable b = true) → ChipCommand.sendable c = false →
          exec (.commandFrame (sent ++ c :: rest)) s = .refused (.neverSentCommand c))

/-- A command frame of commands the block can send puts its ID and then each command with its padding on DATA, 3 + 9k bit
cycles (rule R81). That the row is the bits between the selects is the model's choice (log entry 13). -/
def Obligations.CommandFrameIsSent : Prop :=
  ∀ (s : State) (cmds : List Byte), cmds ≠ [] → (∀ c ∈ cmds, ChipCommand.sendable c = true) →
    s.lines.wr = ⟨.lo, true⟩ → s.lines.data.cfgd = true →
    ∃ t, exec (.commandFrame cmds) s = .next t
      ∧ t.trace = s.trace ++ Claims.bits ([true, false, false] ++ cmds.flatMap fun c => bitsMSB c.toNat 8 ++ [false])
      ∧ t.trace.length = s.trace.length + 5 * (3 + 9 * cmds.length)
      ∧ t = { s with lines := { s.lines with data := ⟨.lo, true⟩ }, traceRev := t.traceRev }

/-- A RAM-write frame puts its ID, the address 0 and its data words on DATA, 10 + 4m bit cycles, with no padding
(rules R78, R80, R81). That the row is the bits between the selects and runs with any number of words is the model's choice
(log entry 13). -/
def Obligations.RamWriteFrameIsSent : Prop :=
  ∀ (s : State) (words : List Nibble), s.lines.wr = ⟨.lo, true⟩ → s.lines.data.cfgd = true →
    let bs := Claims.ramWriteHeader ++ words.flatMap fun w => bitsMSB w.toNat 4
    ∃ t, exec (.ramWriteFrame words) s = .next t ∧ t.trace = s.trace ++ Claims.bits bs
      ∧ t.trace.length = s.trace.length + 5 * (10 + 4 * words.length)
      ∧ t = { s with lines := { s.lines with data := ⟨if bs.getLastD false then .hi else .lo, true⟩ },
                     traceRev := t.traceRev }

/-! ### Render -/

/-- SELECT_RENDER_TARGET stores a valid index, and under STORE_ANY any index (rule R170). -/
def Obligations.SelectRenderTargetStores : Prop :=
  ∀ (s : State) (n : Int), s.phase = .ready →
    (s.cfg.renderTargetPolicy = .storeAny ∨ (0 ≤ n ∧ n < s.boardCount) →
      exec (.selectRenderTarget n) s = .next
        { s with renderTarget := n, busy := false, responses := s.responses ++ [.ack],
                 outcome := some ⟨.instr (.selectRenderTarget n), .ok⟩ })
    ∧ (s.cfg.renderTargetPolicy = .ignoreInvalid → ¬ (0 ≤ n ∧ n < s.boardCount) →
      exec (.selectRenderTarget n) s = .next
        { s with busy := false, responses := s.responses ++ [.ack],
                 outcome := some ⟨.instr (.selectRenderTarget n), .ignoredInvalidIndex⟩ })

/-- RENDER sends the whole buffer to the render target and to no other board, in one transaction, and changes nothing but
the lines; without a valid target it does nothing (rules R171 to R174). -/
def Obligations.RenderSendsTheWholeBuffer : Prop :=
  ∀ s : State, s.phase = .ready → s.memExists = true → s.lines.atRest s.boardCount s.cfg.maxBoards →
    (0 ≤ s.renderTarget ∧ s.renderTarget < s.boardCount → ∃ t, exec .render s = .next t
      ∧ t.trace = s.trace
          ++ Claims.selects s.boardCount (fun i => decide ((i : Int) ≠ s.renderTarget))
          ++ Claims.bits (Claims.ramWriteHeader ++ Claims.bufferBits s)
          ++ Claims.selects s.boardCount (fun _ => true)
      ∧ t = { s with busy := false, responses := s.responses ++ [.ack], outcome := some ⟨.instr .render, .ok⟩,
                     traceRev := t.traceRev,
                     lines := { s.lines with
                       data := ⟨if (Claims.bufferBits s).getLastD false then .hi else .lo, true⟩ } })
    ∧ (¬ (0 ≤ s.renderTarget ∧ s.renderTarget < s.boardCount) → exec .render s = .next
        { s with busy := false, responses := s.responses ++ [.ack],
                 outcome := some ⟨.instr .render, .ignoredNoTarget⟩ })

/-- Without a valid target RENDER and SET_BRIGHTNESS with the sentinel mask, the pseudo-request too, do nothing: no event and
no change but the request's end, with outcome IGNORED_NO_TARGET (rules R76, R171). That the pseudo-request is recorded as the
request it expands to is the model's choice (log entry 19). -/
def Obligations.InvalidTargetDoesNothing : Prop :=
  ∀ (s : State) (i : Instr) (level : Int), s.phase = .ready →
    ¬ (0 ≤ s.renderTarget ∧ s.renderTarget < s.boardCount) →
    i ∈ [.render, .setBrightness level s.cfg.currentBoardSentinel, .setBrightnessCurrent level] →
    exec i s = .next { s with busy := false, responses := s.responses ++ [.ack],
                              outcome := some ⟨.instr (i.expand s.cfg), .ignoredNoTarget⟩ }

/-- The number of a RENDER's events, and the place of every buffer bit among its bit cycles (rule R175). -/
def Obligations.RenderCountsAndBitPlaces : Prop :=
  ∀ s t : State, s.phase = .ready → s.memExists = true → s.lines.atRest s.boardCount s.cfg.maxBoards →
    0 ≤ s.renderTarget ∧ s.renderTarget < s.boardCount → exec .render s = .next t →
    t.trace.length = s.trace.length + 2 * s.boardCount + 5 * (10 + 8 * s.cfg.numChannel * s.cfg.addrSpaceSize)
    ∧ ∀ c o k, c < s.cfg.numChannel → o < s.cfg.addrSpaceSize → k < 8 →
        t.trace[s.trace.length + s.boardCount + 5 * (10 + 8 * (c * s.cfg.addrSpaceSize + o) + (7 - k))]?
          = some (.w .data ((byteAt s c o).getLsbD k))

/-- Two RENDERs with no request between them produce the same events, and neither changes the buffer (rule R177). -/
def Obligations.RenderTwiceSendsTheSame : Prop :=
  ∀ s t : State, s.phase = .ready → s.memExists = true → s.lines.atRest s.boardCount s.cfg.maxBoards →
    exec .render s = .next t →
    ∃ u evs, exec .render t = .next u ∧ t.trace = s.trace ++ evs ∧ u.trace = t.trace ++ evs
      ∧ t.mem = s.mem ∧ u.mem = t.mem

/-! ### Brightness -/

/-- `pwm(level)` is `0xA0 | low_8(level - 1)`, unclamped; for duty 1 to 16 it is the chip's PWM command (rules R83, R191). -/
def Obligations.PwmWordOfEveryLevel : Prop :=
  (∀ level : Int, (ChipCommand.pwmOfLevel level).toNat = 0xA0 ||| ((level - 1) % 2 ^ 8).toNat)
    ∧ (∀ d : Nat, 1 ≤ d → d ≤ 16 → (ChipCommand.pwmOfLevel d).toNat = 0xA0 + (d - 1))
    ∧ ChipCommand.pwmOfLevel 17 = 0xB0#8 ∧ ChipCommand.pwmOfLevel 0 = 0xFF#8

/-- SET_BRIGHTNESS, and the pseudo-request as SET_BRIGHTNESS with the sentinel: one command frame to the boards of the mask
that rule R190 resolves, with no effect but on the lines; without a target nothing happens (rules R76, R190, R191, R192).
That the pseudo-request is recorded as the request it expands to is the model's choice (log entry 19). -/
def Obligations.SetBrightnessSendsOneCommandFrame : Prop :=
  (∀ a b : Byte, decode (.request (0xE#4 ++ a ++ b ++ 0x000#12)) = .ok (.setBrightness a.toNat b.toNat))
  ∧ ∀ (s : State) (i : Instr) (level : Int) (mask : Nat),
    i = .setBrightness level mask ∨ (i = .setBrightnessCurrent level ∧ mask = s.cfg.currentBoardSentinel) →
    s.phase = .ready → s.lines.atRest s.boardCount s.cfg.maxBoards →
    (∀ m, (mask ≠ s.cfg.currentBoardSentinel ∧ m = mask)
        ∨ (mask = s.cfg.currentBoardSentinel ∧ 0 ≤ s.renderTarget ∧ s.renderTarget < s.boardCount
            ∧ m = 1 <<< s.renderTarget.toNat) →
      ∃ t, exec i s = .next t
        ∧ t.trace = s.trace ++ Claims.selects s.boardCount (fun i => !m.testBit i)
            ++ Claims.bits ([true, false, false] ++ bitsMSB (0xA0 ||| ((level - 1) % 2 ^ 8).toNat) 8 ++ [false])
            ++ Claims.selects s.boardCount (fun _ => true)
        ∧ t.trace.length = s.trace.length + 2 * s.boardCount + 5 * 12
        ∧ t = { s with busy := false, responses := s.responses ++ [.ack],
                       outcome := some ⟨.instr (.setBrightness level mask), .ok⟩, traceRev := t.traceRev,
                       lines := { s.lines with data := ⟨.lo, true⟩ } })
    ∧ (mask = s.cfg.currentBoardSentinel → ¬ (0 ≤ s.renderTarget ∧ s.renderTarget < s.boardCount) →
      exec i s = .next { s with busy := false, responses := s.responses ++ [.ack],
                                outcome := some ⟨.instr (.setBrightness level mask), .ignoredNoTarget⟩ })

/-! ### INIT -/

/-- INIT with a successful allocation: its events in order, and the state of rule R209 (rules R201 to R209). -/
def Obligations.InitBringsTheBlockUp : Prop :=
  ∀ (s : State) (n : Nat), s.phase = .uninit → s.cfg.wf = true → s.lines = .off s.cfg.maxBoards → s.allocOk = true →
    1 ≤ n → n ≤ s.cfg.maxBoards → ∃ t, exec (.init n) s = .next t
      ∧ t.trace = s.trace
          ++ (List.range n).map (fun i => .cfg (.cs i))
          ++ [.cfg .wr, .w .wr false, .cfg .data, .w .data false]
          ++ Claims.selects n (fun _ => true)
          ++ Claims.selects n (fun i => !s.cfg.initSelectMask.testBit i)
          ++ Claims.bits ([true, false, false]
              ++ bitsMSB 0x00 8 ++ [false] ++ bitsMSB s.cfg.commonModeCmd.toNat 8 ++ [false]
              ++ bitsMSB 0x01 8 ++ [false] ++ bitsMSB 0x03 8 ++ [false] ++ bitsMSB 0xAF 8 ++ [false])
          ++ Claims.selects n (fun _ => true)
          ++ (List.range n).flatMap (fun b => Claims.selects n (fun i => decide (i ≠ b))
              ++ Claims.bits (Claims.ramWriteHeader
                  ++ List.replicate (8 * s.cfg.numChannel * s.cfg.addrSpaceSize) false)
              ++ Claims.selects n (fun _ => true))
      ∧ t = { s with phase := .ready, boardCount := n, writeChannel := 0, renderTarget := 0, memExists := true,
                     mem := [], lines := ⟨restCs n s.cfg.maxBoards, ⟨.lo, true⟩, ⟨.lo, true⟩, ⟨.z, false⟩⟩,
                     busy := false, responses := s.responses ++ [.ack],
                     outcome := some ⟨.instr (.init n), .ok⟩, traceRev := t.traceRev }

/-- The number of events of a completed INIT (rule R211). -/
def Obligations.InitEventCount : Prop :=
  ∀ (s t : State) (n : Nat), s.phase = .uninit → s.cfg.wf = true → s.lines = .off s.cfg.maxBoards →
    s.allocOk = true → 1 ≤ n → n ≤ s.cfg.maxBoards → exec (.init n) s = .next t →
    t.trace.length = s.trace.length
      + (4 * n + 244 + n * (2 * n + 5 * (10 + 8 * s.cfg.numChannel * s.cfg.addrSpaceSize)))

/-- INIT with a failed allocation: the state as steps (a) to (c) left it, in phase FATAL, with their 2n + 4 events and no
response (rule R204). -/
def Obligations.InitWithFailedAllocationIsFatal : Prop :=
  ∀ (s : State) (n : Nat), s.phase = .uninit → s.lines = .off s.cfg.maxBoards → s.allocOk = false →
    1 ≤ n → n ≤ s.cfg.maxBoards → ∃ t, exec (.init n) s = .next t
      ∧ t.trace = s.trace
          ++ (List.range n).map (fun i => .cfg (.cs i))
          ++ [.cfg .wr, .w .wr false, .cfg .data, .w .data false]
          ++ Claims.selects n (fun _ => true)
      ∧ t = { s with phase := .fatal, boardCount := n, writeChannel := 0, busy := true,
                     lines := ⟨restCs n s.cfg.maxBoards, ⟨.lo, true⟩, ⟨.lo, true⟩, ⟨.z, false⟩⟩,
                     outcome := some ⟨.instr (.init n), .fatalAlloc⟩, traceRev := t.traceRev }

/-- INIT's acceptance: stuck in FATAL, refused in READY before its operand is looked at, refused for a board count outside
1 .. MAX_BOARDS; a refusal changes the refused mark and the recorded outcome only (rules R200, R221). -/
def Obligations.InitRefusals : Prop :=
  ∀ (s : State) (n : Int),
    (s.phase = .fatal → exec (.init n) s = .fault .fatalStuck)
    ∧ (s.phase = .ready → exec (.init n) s = .next
        { s with busy := false, refusedMark := true, outcome := some ⟨.instr (.init n), .refusedReinit⟩ })
    ∧ (s.phase = .uninit → ¬ (1 ≤ n ∧ n ≤ s.cfg.maxBoards) → exec (.init n) s = .next
        { s with busy := false, refusedMark := true, outcome := some ⟨.instr (.init n), .refusedBadBoardCount⟩ })

/-- Every host request but INIT is refused before INIT and stuck in FATAL; the pseudo-request as the request it expands to
(rules R221, R225), which is the model's choice (log entry 19). -/
def Obligations.RequestsBeforeInitAreRefused : Prop :=
  ∀ (s : State) (i : Instr), i.isRequest = true → (∀ n, i ≠ .init n) →
    (s.phase = .uninit → exec i s = .next
      { s with busy := false, refusedMark := true,
               outcome := some ⟨.instr (i.expand s.cfg), .refusedNotInitialized⟩ })
    ∧ (s.phase = .fatal → exec i s = .fault .fatalStuck)

/-- The reserved rows of the table: a word with OP 0x0 or 0xF is refused with REFUSED_RESERVED_ENCODING and nothing else
changes (rules R74, R221). -/
def Obligations.ReservedOpsAreRefused : Prop :=
  ∀ (s : State) (p : BitVec 28), s.phase ≠ .fatal →
    exec (.reservedOp0 p) s = .next
      { s with busy := false, refusedMark := true, outcome := some ⟨.word (0x0#4 ++ p), .refusedReservedEncoding⟩ }
    ∧ exec (.reservedOpF p) s = .next
      { s with busy := false, refusedMark := true, outcome := some ⟨.word (0xF#4 ++ p), .refusedReservedEncoding⟩ }

/-- Where the model's faults of rule R221 are raised: FAULT_UNCONFIGURED_LINE by a Drive on a line that is not configured
(rule R27), FAULT_STROBE_HIGH at the three transmitter entries with WR not low (rules R150, R153, R154), FAULT_BAD_ADDRESS
by every request that would access a buffer that does not exist (rule R51). RENDER is stated from lines at rest, where
its events before the first access complete. -/
def Obligations.UnreachableFaultsAreChecked : Prop :=
  (∀ (s : State) (l : Line) (v : Bool), (s.lines.get l).cfgd = false → emit [.w l v] s = .fault .unconfiguredLine)
    ∧ (∀ (s : State) (v n : Nat) (c : Byte), s.lines.wr.level ≠ .lo →
        writeBits v n s = .fault .strobeHigh ∧ writeSingleBit s = .fault .strobeHigh
          ∧ writeCommand c s = .fault .strobeHigh)
    ∧ (∀ (s : State) (c o : Nat) (v : Byte),
        ¬ (s.memExists = true ∧ c < s.cfg.numChannel ∧ o < s.cfg.addrSpaceSize) →
        memRead s c o = none ∧ memWrite s c o v = none)
    ∧ (∀ (s : State) (i : Instr) (x y c : Int),
        i ∈ [.setPixelCh x y c, .clearPixelCh x y c, .getPixelCh x y c]
          ∨ (c = s.writeChannel ∧ i ∈ [.setPixel x y, .clearPixel x y, .getPixel x y]) →
        s.phase = .ready → s.memExists = false → Claims.inRange s.cfg c x y → exec i s = .fault .badAddress)
    ∧ (∀ (s : State) (i : Instr), s.cfg.wf = true →
        i = .fillAll ∨ i = .clear
          ∨ (i = .fill ∧ 0 ≤ s.writeChannel ∧ s.writeChannel < s.cfg.numChannel)
          ∨ (i = .render ∧ 0 ≤ s.renderTarget ∧ s.renderTarget < s.boardCount
              ∧ s.lines.atRest s.boardCount s.cfg.maxBoards) →
        s.phase = .ready → s.memExists = false → exec i s = .fault .badAddress)
end

