-- ==== Sys2Proof/Laws/Encoding.lean ====
section
/-! SUPPORT. The arithmetic of the encodings: a request word as a number and its fields, and the bits of a value. -/

namespace Sys2Proof

/-- A request word as a number, by the field positions of rule R71. -/
theorem toNat_wordOfFields (op : BitVec 4) (a b c : Byte) (r : BitVec 4) :
    (op ++ a ++ b ++ c ++ r : Word).toNat =
      op.toNat * 2 ^ 28 + a.toNat * 2 ^ 20 + b.toNat * 2 ^ 12 + c.toNat * 2 ^ 4 + r.toNat := by
  have h (m n : Nat) (x : BitVec m) (y : BitVec n) : (x ++ y).toNat = x.toNat * 2 ^ n + y.toNat := by
    rw [BitVec.toNat_append, ← Nat.shiftLeft_add_eq_or_of_lt y.isLt, Nat.shiftLeft_eq]
  simp only [h]
  omega

theorem toNat_wordOfPayload (op : BitVec 4) (p : BitVec 28) :
    (op ++ p : Word).toNat = op.toNat * 2 ^ 28 + p.toNat := by
  rw [BitVec.toNat_append, ← Nat.shiftLeft_add_eq_or_of_lt p.isLt, Nat.shiftLeft_eq]

theorem toNat_ofInt_of_fits {v : Int} (h : fitsField v = true) : ((BitVec.ofInt 8 v).toNat : Int) = v := by
  simp only [fitsField, Bool.and_eq_true, decide_eq_true_eq] at h
  rw [BitVec.toNat_ofInt]
  omega

@[simp] theorem operand_ofInt_of_fits {v : Int} (h : fitsField v = true) : operand (BitVec.ofInt 8 v) = v :=
  toNat_ofInt_of_fits h

/-- Every request word is its fields, in order (rule R71). -/
theorem wordOfFields (w : Word) :
    w = Word.op w ++ Word.fieldA w ++ Word.fieldB w ++ Word.fieldC w ++ Word.rsv w := by
  apply BitVec.eq_of_toNat_eq
  rw [toNat_wordOfFields]
  simp only [Word.op, Word.fieldA, Word.fieldB, Word.fieldC, Word.rsv, BitVec.extractLsb'_toNat,
    Nat.shiftRight_eq_div_pow]
  have := w.isLt
  omega

theorem wordOfPayload (w : Word) : w = Word.op w ++ Word.payload w := by
  apply BitVec.eq_of_toNat_eq
  rw [toNat_wordOfPayload]
  simp only [Word.op, Word.payload, BitVec.extractLsb'_toNat, Nat.shiftRight_eq_div_pow]
  have := w.isLt
  omega

/-- The fields of a word put together from fields. -/
theorem fields_wordOfFields (op : BitVec 4) (a b c : Byte) (r : BitVec 4) :
    Word.op (op ++ a ++ b ++ c ++ r) = op ∧ Word.fieldA (op ++ a ++ b ++ c ++ r) = a
      ∧ Word.fieldB (op ++ a ++ b ++ c ++ r) = b ∧ Word.fieldC (op ++ a ++ b ++ c ++ r) = c
      ∧ Word.rsv (op ++ a ++ b ++ c ++ r) = r := by
  have h := toNat_wordOfFields op a b c r
  refine ⟨?_, ?_, ?_, ?_, ?_⟩ <;> apply BitVec.eq_of_toNat_eq <;>
    simp only [Word.op, Word.fieldA, Word.fieldB, Word.fieldC, Word.rsv, BitVec.extractLsb'_toNat,
      Nat.shiftRight_eq_div_pow, h] <;>
    have := op.isLt <;> have := a.isLt <;> have := b.isLt <;> have := c.isLt <;> have := r.isLt <;> omega

/-- Spelling out the low `n` bits of a value and reading them back gives the value modulo `2 ^ n`. -/
theorem ofBits_bitsMSB (v n : Nat) : ofBits (bitsMSB v n) = v % 2 ^ n := by
  have key : ∀ n acc, (bitsMSB v n).foldl (fun acc b => 2 * acc + b.toNat) acc = acc * 2 ^ n + v % 2 ^ n := by
    intro n
    induction n with
    | zero => intro acc; simp [bitsMSB, Nat.mod_one]
    | succ n ih =>
      intro acc
      have hsplit : v % 2 ^ (n + 1) = (v.testBit n).toNat * 2 ^ n + v % 2 ^ n := by
        rw [Nat.mod_pow_succ, Nat.toNat_testBit]
        ring
      simp only [bitsMSB, List.foldl_cons, ih, hsplit]
      ring
  simpa [ofBits] using key n 0

theorem decodeCommands_commandBits (cmds : List Byte) : decodeCommands (cmds.flatMap commandBits) = some cmds := by
  induction cmds with
  | nil => rfl
  | cons c rest ih =>
    have h : commandBits c = [c.toNat.testBit 7, c.toNat.testBit 6, c.toNat.testBit 5, c.toNat.testBit 4,
      c.toNat.testBit 3, c.toNat.testBit 2, c.toNat.testBit 1, c.toNat.testBit 0, false] := rfl
    have hb := ofBits_bitsMSB c.toNat 8
    simp only [List.flatMap_cons, h, List.cons_append, List.nil_append, decodeCommands, ih]
    simp only [bitsMSB] at hb
    rw [hb]
    simp [Nat.mod_eq_of_lt c.isLt]

theorem decodeNibbles_nibbleBits (words : List Nibble) : decodeNibbles (words.flatMap nibbleBits) = some words := by
  induction words with
  | nil => rfl
  | cons w rest ih =>
    have h : nibbleBits w = [w.toNat.testBit 3, w.toNat.testBit 2, w.toNat.testBit 1, w.toNat.testBit 0] := rfl
    have hb := ofBits_bitsMSB w.toNat 4
    simp only [List.flatMap_cons, h, List.cons_append, List.nil_append, decodeNibbles, ih]
    simp only [bitsMSB] at hb
    rw [hb]
    simp [Nat.mod_eq_of_lt w.isLt]

end Sys2Proof
end

