-- ==== Sys2Proof/Laws/State.lean ====
section
/-! SUPPORT. What each named update of the state does to each field. -/

namespace Sys2Proof.Machine

variable (s : State)

@[simp] theorem State.withByte_cfg (c o : Nat) (v : Byte) :
    (s.withByte c o v).cfg = s.cfg := rfl
@[simp] theorem State.withByte_allocOk (c o : Nat) (v : Byte) :
    (s.withByte c o v).allocOk = s.allocOk := rfl
@[simp] theorem State.withByte_phase (c o : Nat) (v : Byte) :
    (s.withByte c o v).phase = s.phase := rfl
@[simp] theorem State.withByte_boardCount (c o : Nat) (v : Byte) :
    (s.withByte c o v).boardCount = s.boardCount := rfl
@[simp] theorem State.withByte_writeChannel (c o : Nat) (v : Byte) :
    (s.withByte c o v).writeChannel = s.writeChannel := rfl
@[simp] theorem State.withByte_renderTarget (c o : Nat) (v : Byte) :
    (s.withByte c o v).renderTarget = s.renderTarget := rfl
@[simp] theorem State.withByte_memExists (c o : Nat) (v : Byte) :
    (s.withByte c o v).memExists = s.memExists := rfl
@[simp] theorem State.withByte_mem (c o : Nat) (v : Byte) :
    (s.withByte c o v).mem = Memory.set s.mem (cellOf s.cfg c o) v := rfl
@[simp] theorem State.withByte_lines (c o : Nat) (v : Byte) :
    (s.withByte c o v).lines = s.lines := rfl
@[simp] theorem State.withByte_busy (c o : Nat) (v : Byte) :
    (s.withByte c o v).busy = s.busy := rfl
@[simp] theorem State.withByte_seqpos (c o : Nat) (v : Byte) :
    (s.withByte c o v).seqpos = s.seqpos := rfl
@[simp] theorem State.withByte_port (c o : Nat) (v : Byte) :
    (s.withByte c o v).port = s.port := rfl
@[simp] theorem State.withByte_responses (c o : Nat) (v : Byte) :
    (s.withByte c o v).responses = s.responses := rfl
@[simp] theorem State.withByte_traceRev (c o : Nat) (v : Byte) :
    (s.withByte c o v).traceRev = s.traceRev := rfl
@[simp] theorem State.withByte_outcome (c o : Nat) (v : Byte) :
    (s.withByte c o v).outcome = s.outcome := rfl
@[simp] theorem State.withByte_refusedMark (c o : Nat) (v : Byte) :
    (s.withByte c o v).refusedMark = s.refusedMark := rfl

@[simp] theorem State.emitted_cfg (evs : List LineEvent) (L : Lines) :
    (s.emitted evs L).cfg = s.cfg := rfl
@[simp] theorem State.emitted_allocOk (evs : List LineEvent) (L : Lines) :
    (s.emitted evs L).allocOk = s.allocOk := rfl
@[simp] theorem State.emitted_phase (evs : List LineEvent) (L : Lines) :
    (s.emitted evs L).phase = s.phase := rfl
@[simp] theorem State.emitted_boardCount (evs : List LineEvent) (L : Lines) :
    (s.emitted evs L).boardCount = s.boardCount := rfl
@[simp] theorem State.emitted_writeChannel (evs : List LineEvent) (L : Lines) :
    (s.emitted evs L).writeChannel = s.writeChannel := rfl
@[simp] theorem State.emitted_renderTarget (evs : List LineEvent) (L : Lines) :
    (s.emitted evs L).renderTarget = s.renderTarget := rfl
@[simp] theorem State.emitted_memExists (evs : List LineEvent) (L : Lines) :
    (s.emitted evs L).memExists = s.memExists := rfl
@[simp] theorem State.emitted_mem (evs : List LineEvent) (L : Lines) :
    (s.emitted evs L).mem = s.mem := rfl
@[simp] theorem State.emitted_lines (evs : List LineEvent) (L : Lines) :
    (s.emitted evs L).lines = L := rfl
@[simp] theorem State.emitted_busy (evs : List LineEvent) (L : Lines) :
    (s.emitted evs L).busy = s.busy := rfl
@[simp] theorem State.emitted_seqpos (evs : List LineEvent) (L : Lines) :
    (s.emitted evs L).seqpos = s.seqpos := rfl
@[simp] theorem State.emitted_port (evs : List LineEvent) (L : Lines) :
    (s.emitted evs L).port = s.port := rfl
@[simp] theorem State.emitted_responses (evs : List LineEvent) (L : Lines) :
    (s.emitted evs L).responses = s.responses := rfl
@[simp] theorem State.emitted_traceRev (evs : List LineEvent) (L : Lines) :
    (s.emitted evs L).traceRev = evs.reverseAux s.traceRev := rfl
@[simp] theorem State.emitted_outcome (evs : List LineEvent) (L : Lines) :
    (s.emitted evs L).outcome = s.outcome := rfl
@[simp] theorem State.emitted_refusedMark (evs : List LineEvent) (L : Lines) :
    (s.emitted evs L).refusedMark = s.refusedMark := rfl

@[simp] theorem State.answered_cfg (req : RequestRef) (o : ReqOutcome) (r : Response) :
    (s.answered req o r).cfg = s.cfg := rfl
@[simp] theorem State.answered_allocOk (req : RequestRef) (o : ReqOutcome) (r : Response) :
    (s.answered req o r).allocOk = s.allocOk := rfl
@[simp] theorem State.answered_phase (req : RequestRef) (o : ReqOutcome) (r : Response) :
    (s.answered req o r).phase = s.phase := rfl
@[simp] theorem State.answered_boardCount (req : RequestRef) (o : ReqOutcome) (r : Response) :
    (s.answered req o r).boardCount = s.boardCount := rfl
@[simp] theorem State.answered_writeChannel (req : RequestRef) (o : ReqOutcome) (r : Response) :
    (s.answered req o r).writeChannel = s.writeChannel := rfl
@[simp] theorem State.answered_renderTarget (req : RequestRef) (o : ReqOutcome) (r : Response) :
    (s.answered req o r).renderTarget = s.renderTarget := rfl
@[simp] theorem State.answered_memExists (req : RequestRef) (o : ReqOutcome) (r : Response) :
    (s.answered req o r).memExists = s.memExists := rfl
@[simp] theorem State.answered_mem (req : RequestRef) (o : ReqOutcome) (r : Response) :
    (s.answered req o r).mem = s.mem := rfl
@[simp] theorem State.answered_lines (req : RequestRef) (o : ReqOutcome) (r : Response) :
    (s.answered req o r).lines = s.lines := rfl
@[simp] theorem State.answered_busy (req : RequestRef) (o : ReqOutcome) (r : Response) :
    (s.answered req o r).busy = false := rfl
@[simp] theorem State.answered_seqpos (req : RequestRef) (o : ReqOutcome) (r : Response) :
    (s.answered req o r).seqpos = s.seqpos := rfl
@[simp] theorem State.answered_port (req : RequestRef) (o : ReqOutcome) (r : Response) :
    (s.answered req o r).port = s.port := rfl
@[simp] theorem State.answered_responses (req : RequestRef) (o : ReqOutcome) (r : Response) :
    (s.answered req o r).responses = s.responses ++ [r] := rfl
@[simp] theorem State.answered_traceRev (req : RequestRef) (o : ReqOutcome) (r : Response) :
    (s.answered req o r).traceRev = s.traceRev := rfl
@[simp] theorem State.answered_outcome (req : RequestRef) (o : ReqOutcome) (r : Response) :
    (s.answered req o r).outcome = some ⟨req, o⟩ := rfl
@[simp] theorem State.answered_refusedMark (req : RequestRef) (o : ReqOutcome) (r : Response) :
    (s.answered req o r).refusedMark = s.refusedMark := rfl

@[simp] theorem State.refusedAs_cfg (req : RequestRef) (o : ReqOutcome) :
    (s.refusedAs req o).cfg = s.cfg := rfl
@[simp] theorem State.refusedAs_allocOk (req : RequestRef) (o : ReqOutcome) :
    (s.refusedAs req o).allocOk = s.allocOk := rfl
@[simp] theorem State.refusedAs_phase (req : RequestRef) (o : ReqOutcome) :
    (s.refusedAs req o).phase = s.phase := rfl
@[simp] theorem State.refusedAs_boardCount (req : RequestRef) (o : ReqOutcome) :
    (s.refusedAs req o).boardCount = s.boardCount := rfl
@[simp] theorem State.refusedAs_writeChannel (req : RequestRef) (o : ReqOutcome) :
    (s.refusedAs req o).writeChannel = s.writeChannel := rfl
@[simp] theorem State.refusedAs_renderTarget (req : RequestRef) (o : ReqOutcome) :
    (s.refusedAs req o).renderTarget = s.renderTarget := rfl
@[simp] theorem State.refusedAs_memExists (req : RequestRef) (o : ReqOutcome) :
    (s.refusedAs req o).memExists = s.memExists := rfl
@[simp] theorem State.refusedAs_mem (req : RequestRef) (o : ReqOutcome) :
    (s.refusedAs req o).mem = s.mem := rfl
@[simp] theorem State.refusedAs_lines (req : RequestRef) (o : ReqOutcome) :
    (s.refusedAs req o).lines = s.lines := rfl
@[simp] theorem State.refusedAs_busy (req : RequestRef) (o : ReqOutcome) :
    (s.refusedAs req o).busy = false := rfl
@[simp] theorem State.refusedAs_seqpos (req : RequestRef) (o : ReqOutcome) :
    (s.refusedAs req o).seqpos = s.seqpos := rfl
@[simp] theorem State.refusedAs_port (req : RequestRef) (o : ReqOutcome) :
    (s.refusedAs req o).port = s.port := rfl
@[simp] theorem State.refusedAs_responses (req : RequestRef) (o : ReqOutcome) :
    (s.refusedAs req o).responses = s.responses := rfl
@[simp] theorem State.refusedAs_traceRev (req : RequestRef) (o : ReqOutcome) :
    (s.refusedAs req o).traceRev = s.traceRev := rfl
@[simp] theorem State.refusedAs_outcome (req : RequestRef) (o : ReqOutcome) :
    (s.refusedAs req o).outcome = some ⟨req, o⟩ := rfl
@[simp] theorem State.refusedAs_refusedMark (req : RequestRef) (o : ReqOutcome) :
    (s.refusedAs req o).refusedMark = true := rfl

@[simp] theorem State.emitted_trace (evs : List LineEvent) (L : Lines) :
    (s.emitted evs L).trace = s.trace ++ evs := by
  simp [State.trace, List.reverseAux_eq]

@[simp] theorem State.withByte_trace (c o : Nat) (v : Byte) : (s.withByte c o v).trace = s.trace := rfl
@[simp] theorem State.answered_trace (req : RequestRef) (o : ReqOutcome) (r : Response) :
    (s.answered req o r).trace = s.trace := rfl
@[simp] theorem State.refusedAs_trace (req : RequestRef) (o : ReqOutcome) :
    (s.refusedAs req o).trace = s.trace := rfl

end Sys2Proof.Machine
end

