-- ==== Sys2Proof/Laws/Lines.lean ====
section
/-! SUPPORT. The lines: what an event does to them, and what the event lists of the transmitter and of the
multiplexer leave them at. -/

namespace Sys2Proof.Machine

theorem Lines.applyAll_append (xs ys : List LineEvent) (L : Lines) :
    Lines.applyAll (xs ++ ys) L = (Lines.applyAll xs L).bind (Lines.applyAll ys) := by
  induction xs generalizing L with
  | nil => rfl
  | cons e rest ih =>
    simp only [List.cons_append, Lines.applyAll]
    cases L.apply e with
    | none => rfl
    | some L' => exact ih L'

/-! ### The transmitter -/

/-- The lines after a list of bits has been sent: WR low, DATA at the last bit (rules R151, R155). -/
def Lines.afterBits (bs : List Bool) (L : Lines) : Lines :=
  match bs.getLast? with
  | none => L
  | some b => { L with wr := .driven false, data := .driven b }

@[simp] theorem Lines.afterBits_nil (L : Lines) : L.afterBits [] = L := rfl

theorem Lines.afterBits_append (xs ys : List Bool) (L : Lines) :
    L.afterBits (xs ++ ys) = (L.afterBits xs).afterBits ys := by
  unfold Lines.afterBits
  rw [List.getLast?_append]
  cases ys.getLast? <;> cases xs.getLast? <;> rfl

@[simp] theorem Lines.afterBits_cs (bs : List Bool) (L : Lines) : (L.afterBits bs).cs = L.cs := by
  unfold Lines.afterBits
  split <;> rfl

@[simp] theorem Lines.afterBits_clk (bs : List Bool) (L : Lines) : (L.afterBits bs).clk = L.clk := by
  unfold Lines.afterBits
  split <;> rfl

/-- Both lines of the transmitter are configured and WR is low: a field can be sent (rules R27, R152). -/
structure Lines.canSend (L : Lines) : Prop where
  wr : L.wr = .driven false
  data : L.data.cfgd = true

theorem Lines.canSend.afterBits {L : Lines} (h : L.canSend) (bs : List Bool) : (L.afterBits bs).canSend := by
  unfold Lines.afterBits
  split
  · exact h
  · exact ⟨rfl, rfl⟩

theorem Lines.afterBits_of_canSend {L : Lines} (h : L.canSend) {bs : List Bool} {b : Bool}
    (hb : bs.getLast? = some b) : L.afterBits bs = { L with data := .driven b } := by
  simp [Lines.afterBits, hb, ← h.wr]

/-- One bit cycle, where both lines are configured. -/
theorem Lines.applyAll_bitCycle {L : Lines} (hd : L.data.cfgd = true) (hw : L.wr.cfgd = true) (b : Bool) :
    Lines.applyAll (bitCycle b) L = some (L.afterBits [b]) := by
  simp [bitCycle, Lines.applyAll, Lines.apply, Lines.get, Lines.set, hd, hw, Lines.afterBits, LineState.driven]

theorem Lines.applyAll_bits {L : Lines} (hd : L.data.cfgd = true) (hw : L.wr.cfgd = true) (bs : List Bool) :
    Lines.applyAll (bitsEvents bs) L = some (L.afterBits bs) := by
  induction bs generalizing L with
  | nil => rfl
  | cons b rest ih =>
    show Lines.applyAll (bitCycle b ++ bitsEvents rest) L = some (L.afterBits ([b] ++ rest))
    rw [Lines.applyAll_append, Lines.applyAll_bitCycle hd hw, Lines.afterBits_append]
    exact ih rfl rfl

/-! ### The multiplexer -/

/-- The select lines after `select(mask)` (rule R140). -/
def selectCs (n mask : Nat) (cs : List LineState) : List LineState :=
  cs.mapIdx fun i x => if i < n then .driven (!mask.testBit i) else x

@[simp] theorem length_selectCs (n mask : Nat) (cs : List LineState) : (selectCs n mask cs).length = cs.length := by
  simp [selectCs]

theorem getElem?_selectCs (n mask : Nat) (cs : List LineState) (i : Nat) :
    (selectCs n mask cs)[i]? = cs[i]?.map fun x => if i < n then .driven (!mask.testBit i) else x := by
  simp [selectCs]

theorem lt_length_of_cfgd {L : Lines} {i : Nat} (h : (L.get (.cs i)).cfgd = true) : i < L.cs.length := by
  by_contra hn
  simp [Lines.get, List.getD, List.getElem?_eq_none (Nat.le_of_not_lt hn), LineState.off] at h

theorem Lines.applyAll_select {n : Nat} (mask : Nat) {L : Lines}
    (h : ∀ i < n, (L.get (.cs i)).cfgd = true) :
    Lines.applyAll (selectEvents n mask) L = some { L with cs := selectCs n mask L.cs } := by
  induction n with
  | zero =>
    have : selectCs 0 mask L.cs = L.cs := List.ext_getElem? fun i => by simp [getElem?_selectCs]
    simp [selectEvents, Lines.applyAll, this]
  | succ n ih =>
    have hn := h n (by omega)
    have hlt := lt_length_of_cfgd hn
    have hsplit : selectEvents (n + 1) mask = selectEvents n mask ++ [.w (.cs n) (!mask.testBit n)] := by
      simp [selectEvents, List.range_succ]
    have hcs : (selectCs n mask L.cs).set n (.driven (!mask.testBit n)) = selectCs (n + 1) mask L.cs := by
      refine List.ext_getElem? fun i => ?_
      rw [List.getElem?_set, getElem?_selectCs, getElem?_selectCs, length_selectCs]
      rcases Nat.lt_trichotomy i n with hi | rfl | hi
      · simp [show n ≠ i by omega, hi, show i < n + 1 by omega]
      · simp [hlt]
      · simp [show n ≠ i by omega, show ¬ i < n by omega, show ¬ i < n + 1 by omega]
    have hget : ({ L with cs := selectCs n mask L.cs } : Lines).get (.cs n) = L.get (.cs n) := by
      simp [Lines.get, List.getD, getElem?_selectCs]
    rw [hsplit, Lines.applyAll_append, ih fun i hi => h i (by omega)]
    simp only [Option.bind_some, Lines.applyAll, Lines.apply, hget, hn, if_true]
    simp only [Lines.set]
    rw [← hcs]
    rfl

theorem restCs_getElem? (n maxBoards i : Nat) : (restCs n maxBoards)[i]? =
    if i < n then some (.driven true) else if i < n + (maxBoards - n) then some .off else none := by
  simp only [restCs, List.getElem?_append, List.length_replicate, List.getElem?_replicate]
  split_ifs <;> first | rfl | omega

/-- A select between two others leaves no trace in the levels: the last one decides (rule R140). -/
theorem selectCs_selectCs (n m m' : Nat) (cs : List LineState) :
    selectCs n m' (selectCs n m cs) = selectCs n m' cs := by
  refine List.ext_getElem? fun i => ?_
  simp only [getElem?_selectCs, Option.map_map]
  congr 1
  funext x
  simp only [Function.comp]
  split_ifs <;> rfl

/-- Deselecting lines at rest leaves them at rest (rule R141). -/
theorem selectCs_zero_restCs (n maxBoards : Nat) : selectCs n 0 (restCs n maxBoards) = restCs n maxBoards := by
  refine List.ext_getElem? fun i => ?_
  simp only [getElem?_selectCs, restCs_getElem?]
  split_ifs <;> simp

theorem Lines.atRest.cfgd_cs {L : Lines} {n maxBoards : Nat} (h : L.atRest n maxBoards) {i : Nat} (hi : i < n) :
    (L.get (.cs i)).cfgd = true := by
  simp [Lines.get, List.getD, h.1, restCs_getElem?, hi, LineState.driven]

theorem Lines.atRest.canSend {L : Lines} {n maxBoards : Nat} (h : L.atRest n maxBoards) : L.canSend := by
  obtain ⟨-, hw, ⟨b, hb⟩, -⟩ := h
  exact ⟨hw, by rw [hb]; rfl⟩

/-! ### The configuration of the lines by INIT -/

/-- The select lines once `n` of them are configured and nothing has been driven yet (rule R202). -/
def configuredCs (n maxBoards : Nat) : List LineState :=
  List.replicate n ⟨.u, true⟩ ++ List.replicate (maxBoards - n) .off

theorem selectCs_configuredCs (n maxBoards : Nat) : selectCs n 0 (configuredCs n maxBoards) = restCs n maxBoards := by
  refine List.ext_getElem? fun i => ?_
  simp only [getElem?_selectCs, restCs_getElem?, configuredCs, List.getElem?_append, List.length_replicate,
    List.getElem?_replicate]
  split_ifs <;> first | omega | simp

theorem set_configuredCs {n maxBoards : Nat} (h : n < maxBoards) :
    (configuredCs n maxBoards).set n ⟨.u, true⟩ = configuredCs (n + 1) maxBoards := by
  refine List.ext_getElem? fun i => ?_
  simp only [configuredCs, List.getElem?_set, List.getElem?_append, List.length_append, List.length_replicate,
    List.getElem?_replicate]
  split_ifs <;> first | rfl | omega

theorem Lines.applyAll_configureCs {n maxBoards : Nat} (h : n ≤ maxBoards) (L : Lines)
    (hL : L.cs = List.replicate maxBoards .off) :
    Lines.applyAll ((List.range n).map fun i => .cfg (.cs i)) L = some { L with cs := configuredCs n maxBoards } := by
  induction n with
  | zero =>
    have : configuredCs 0 maxBoards = L.cs := by simp [configuredCs, hL]
    simp [Lines.applyAll, this]
  | succ n ih =>
    rw [List.range_succ, List.map_append, Lines.applyAll_append, ih (by omega)]
    simp only [List.map_cons, List.map_nil, Option.bind_some, Lines.applyAll, Lines.apply, Lines.set]
    rw [set_configuredCs (by omega)]

end Sys2Proof.Machine
end

