-- ==== Sys2Proof/Laws/Memory.lean ====
section
/-! SUPPORT. The frame buffer: reading after writing, the canonical form, the address range, and what writing or
reading a list of addresses does. -/

namespace Sys2Proof.Machine

/-! ### One byte -/

theorem Memory.wfFrom_mono {m : Memory} {lo lo' : Nat} (h : Memory.wfFrom lo' m = true) (hl : lo ≤ lo') :
    Memory.wfFrom lo m = true := by
  cases m with
  | nil => rfl
  | cons cell rest =>
    obtain ⟨k, v⟩ := cell
    simp only [Memory.wfFrom, Bool.and_eq_true, decide_eq_true_eq] at h ⊢
    exact ⟨⟨by omega, h.1.2⟩, h.2⟩

theorem Memory.get_below {m : Memory} {lo a : Nat} (h : Memory.wfFrom lo m = true) (ha : a < lo) :
    Memory.get m a = 0#8 := by
  induction m generalizing lo with
  | nil => rfl
  | cons cell rest ih =>
    obtain ⟨k, v⟩ := cell
    simp only [Memory.wfFrom, Bool.and_eq_true, decide_eq_true_eq] at h
    simp only [Memory.get, show k ≠ a by omega, if_false]
    exact ih h.2 (by omega)

theorem Memory.get_set_other (m : Memory) {a b : Nat} (v : Byte) (h : b ≠ a) :
    Memory.get (Memory.set m a v) b = Memory.get m b := by
  induction m with
  | nil => by_cases hv : v = 0#8 <;> simp [Memory.set, Memory.get, hv, Ne.symm h]
  | cons cell rest ih =>
    obtain ⟨k, w⟩ := cell
    simp only [Memory.set]
    split_ifs with h1 h2 h3 h4
    · rfl
    · simp [Memory.get, Ne.symm h]
    · simp [Memory.get, show k ≠ b by omega]
    · simp [Memory.get, Ne.symm h, show k ≠ b by omega]
    · simp [Memory.get, ih]

theorem Memory.get_set_same {m : Memory} {lo : Nat} (hm : Memory.wfFrom lo m = true) (a : Nat) (v : Byte) :
    Memory.get (Memory.set m a v) a = v := by
  induction m generalizing lo with
  | nil => by_cases hv : v = 0#8 <;> simp [Memory.set, Memory.get, hv]
  | cons cell rest ih =>
    obtain ⟨k, w⟩ := cell
    simp only [Memory.wfFrom, Bool.and_eq_true, decide_eq_true_eq] at hm
    simp only [Memory.set]
    split_ifs with h1 h2 h3 h4
    · rw [h2, Memory.get, if_neg (by omega)]
      exact Memory.get_below hm.2 (by omega)
    · simp [Memory.get]
    · rw [h4]
      exact Memory.get_below hm.2 (by omega)
    · simp [Memory.get]
    · rw [Memory.get, if_neg (by omega)]
      exact ih hm.2

theorem Memory.wfFrom_set {m : Memory} {lo : Nat} (hm : Memory.wfFrom lo m = true) {a : Nat} (ha : lo ≤ a)
    (v : Byte) : Memory.wfFrom lo (Memory.set m a v) = true := by
  induction m generalizing lo with
  | nil => by_cases hv : v = 0#8 <;> simp [Memory.set, Memory.wfFrom, hv, ha]
  | cons cell rest ih =>
    obtain ⟨k, w⟩ := cell
    have h := hm
    simp only [Memory.wfFrom, Bool.and_eq_true, decide_eq_true_eq] at h
    simp only [Memory.set]
    split_ifs with h1 h2 h3 h4
    · exact hm
    · simp only [Memory.wfFrom, Bool.and_eq_true, decide_eq_true_eq]
      exact ⟨⟨ha, h2⟩, ⟨by omega, h.1.2⟩, h.2⟩
    · exact Memory.wfFrom_mono h.2 (by omega)
    · simp only [Memory.wfFrom, Bool.and_eq_true, decide_eq_true_eq]
      exact ⟨⟨ha, h4⟩, h3 ▸ h.2⟩
    · simp only [Memory.wfFrom, Bool.and_eq_true, decide_eq_true_eq]
      exact ⟨h.1, ih h.2 (by omega)⟩

/-- Every memory operation keeps the canonical form. -/
theorem Memory.wf_set {m : Memory} (hm : m.wf = true) (a : Nat) (v : Byte) : (Memory.set m a v).wf = true :=
  Memory.wfFrom_set hm (Nat.zero_le a) v

/-- Every listed address is below a bound. -/
def Memory.below (n : Nat) (m : Memory) : Bool := m.all fun cell => decide (cell.1 < n)

theorem Memory.below_set {m : Memory} {n a : Nat} (hm : Memory.below n m = true) (ha : a < n) (v : Byte) :
    Memory.below n (Memory.set m a v) = true := by
  induction m with
  | nil => by_cases hv : v = 0#8 <;> simp [Memory.set, Memory.below, hv, ha]
  | cons cell rest ih =>
    obtain ⟨k, w⟩ := cell
    have h := hm
    simp only [Memory.below, List.all_cons, Bool.and_eq_true, decide_eq_true_eq] at h ih
    simp only [Memory.set]
    split_ifs with h1 h2 h3 h4 <;>
      simp only [Memory.below, List.all_cons, Bool.and_eq_true, decide_eq_true_eq] <;>
      first
        | exact h
        | exact h.2
        | exact ⟨ha, h⟩
        | exact ⟨ha, h.2⟩
        | exact ⟨h.1, ih h.2⟩

/-! ### The cells of the address space -/

theorem cellOf_lt {cfg : Config} {c o : Nat} (hc : c < cfg.numChannel) (ho : o < cfg.addrSpaceSize) :
    cellOf cfg c o < cfg.bufferSize := by
  unfold cellOf Config.bufferSize
  calc c * cfg.addrSpaceSize + o < c * cfg.addrSpaceSize + cfg.addrSpaceSize := by omega
    _ = (c + 1) * cfg.addrSpaceSize := by ring
    _ ≤ cfg.numChannel * cfg.addrSpaceSize := Nat.mul_le_mul_right _ hc

/-- Different addresses are different cells. -/
theorem cellOf_inj {cfg : Config} {c o c' o' : Nat} (ho : o < cfg.addrSpaceSize) (ho' : o' < cfg.addrSpaceSize)
    (h : cellOf cfg c o = cellOf cfg c' o') : c = c' ∧ o = o' := by
  unfold cellOf at h
  have hpos : 0 < cfg.addrSpaceSize := by omega
  have hdiv := congrArg (· / cfg.addrSpaceSize) h
  have hmod := congrArg (· % cfg.addrSpaceSize) h
  simp only [Nat.mul_comm _ cfg.addrSpaceSize, Nat.mul_add_div hpos, Nat.div_eq_of_lt ho, Nat.div_eq_of_lt ho',
    Nat.mul_add_mod, Nat.mod_eq_of_lt ho, Nat.mod_eq_of_lt ho'] at hdiv hmod
  exact ⟨by omega, hmod⟩

theorem addressOk_iff (s : State) (c o : Nat) :
    addressOk s c o = true ↔ s.memExists = true ∧ c < s.cfg.numChannel ∧ o < s.cfg.addrSpaceSize := by
  simp [addressOk, and_assoc]

@[simp] theorem addressOk_withByte (s : State) (c o c' o' : Nat) (v : Byte) :
    addressOk (s.withByte c o v) c' o' = addressOk s c' o' := rfl

theorem byteAt_withByte {s : State} (hm : s.mem.wf = true) {c o c' o' : Nat} (v : Byte)
    (ho : o < s.cfg.addrSpaceSize) (ho' : o' < s.cfg.addrSpaceSize) :
    byteAt (s.withByte c o v) c' o' = if c' = c ∧ o' = o then v else byteAt s c' o' := by
  split_ifs with h
  · obtain ⟨rfl, rfl⟩ := h
    exact Memory.get_set_same hm _ v
  · refine Memory.get_set_other _ v fun he => h ?_
    exact cellOf_inj ho' ho he

/-! ### Lists of addresses -/

/-- Writing a list of existing addresses succeeds; those bytes then hold the value, the others are as before. -/
theorem memWriteAll_spec (v : Byte) {addrs : List (Nat × Nat)} {s : State} (hm : s.mem.wf = true)
    (hok : ∀ a ∈ addrs, addressOk s a.1 a.2 = true) :
    ∃ m, memWriteAll v addrs s = some { s with mem := m } ∧ m.wf = true ∧
      (Memory.below s.cfg.bufferSize s.mem = true → Memory.below s.cfg.bufferSize m = true) ∧
      ∀ c o, o < s.cfg.addrSpaceSize →
        Memory.get m (cellOf s.cfg c o) = if (c, o) ∈ addrs then v else byteAt s c o := by
  induction addrs generalizing s with
  | nil => exact ⟨s.mem, rfl, hm, id, by simp [byteAt]⟩
  | cons a rest ih =>
    obtain ⟨c₁, o₁⟩ := a
    have h₁ := (addressOk_iff s c₁ o₁).mp (hok (c₁, o₁) (by simp))
    have hwf : (s.withByte c₁ o₁ v).mem.wf = true := Memory.wf_set hm _ v
    obtain ⟨m, he, hwm, hb, hget⟩ := ih (s := s.withByte c₁ o₁ v) hwf fun a ha => by
      simpa using hok a (by simp [ha])
    refine ⟨m, ?_, hwm, fun hbl => hb (Memory.below_set hbl (cellOf_lt h₁.2.1 h₁.2.2) v), fun c o ho => ?_⟩
    · simp only [memWriteAll, memWrite, hok (c₁, o₁) (by simp), if_true]
      exact he
    · have := hget c o ho
      simp only [State.withByte_cfg] at this
      rw [this, byteAt_withByte hm v h₁.2.2 ho]
      by_cases hr : (c, o) ∈ rest <;> simp [hr]

theorem memReadAll_spec {addrs : List (Nat × Nat)} {s : State} (hok : ∀ a ∈ addrs, addressOk s a.1 a.2 = true) :
    memReadAll s addrs = some (addrs.map fun a => byteAt s a.1 a.2) := by
  induction addrs with
  | nil => rfl
  | cons a rest ih =>
    obtain ⟨c, o⟩ := a
    have h₁ := hok (c, o) (by simp)
    simp only [memReadAll, memRead, h₁, if_true, ih fun a ha => hok a (by simp [ha]), List.map_cons]

theorem mem_channelAddresses {cfg : Config} {c : Nat} {a : Nat × Nat} :
    a ∈ channelAddresses cfg c ↔ a.1 = c ∧ a.2 < cfg.addrSpaceSize := by
  obtain ⟨c', o'⟩ := a
  simp only [channelAddresses, List.mem_map, List.mem_range, Prod.mk.injEq]
  exact ⟨fun ⟨o, h, h1, h2⟩ => ⟨h1.symm, h2 ▸ h⟩, fun ⟨h, ho⟩ => ⟨o', ho, h.symm, rfl⟩⟩

theorem mem_allAddresses {cfg : Config} {a : Nat × Nat} :
    a ∈ allAddresses cfg ↔ a.1 < cfg.numChannel ∧ a.2 < cfg.addrSpaceSize := by
  simp only [allAddresses, List.mem_flatMap, List.mem_range, mem_channelAddresses]
  exact ⟨fun ⟨c, hc, he, ho⟩ => ⟨he ▸ hc, ho⟩, fun ⟨hc, ho⟩ => ⟨a.1, hc, rfl, ho⟩⟩

theorem length_allAddresses (cfg : Config) : (allAddresses cfg).length = cfg.bufferSize := by
  simp [allAddresses, channelAddresses, Config.bufferSize, List.length_flatMap]

end Sys2Proof.Machine
end

