-- ==== Sys2Proof/Laws/Ops.lean ====
section
/-! SUPPORT. One lemma per shared operation that says once what it does: the micro-operations of the lines, the
sequencer's items and sequences, and what no operation ever changes. -/

namespace Sys2Proof.Machine

@[simp] theorem andThen_next (s : State) (k : State → Result) : andThen (.next s) k = k s := rfl
@[simp] theorem andThen_fault (f : Fault) (k : State → Result) : andThen (.fault f) k = .fault f := rfl
@[simp] theorem andThen_refused (q : Refusal) (k : State → Result) : andThen (.refused q) k = .refused q := rfl

theorem andThen_eq_next {r : Result} {k : State → Result} {t : State} (h : andThen r k = .next t) :
    ∃ u, r = .next u ∧ k u = .next t := by
  cases r with
  | next u => exact ⟨u, rfl, h⟩
  | fault f => cases h
  | refused q => cases h

theorem andThen_assoc (r : Result) (k l : State → Result) :
    andThen (andThen r k) l = andThen r fun s => andThen (k s) l := by
  cases r <;> rfl

/-! ### Events -/

theorem emit_of_applyAll {evs : List LineEvent} {s : State} {L : Lines} (h : Lines.applyAll evs s.lines = some L) :
    emit evs s = .next (s.emitted evs L) := by
  simp [emit, h]

theorem emit_eq_next {evs : List LineEvent} {s t : State} (h : emit evs s = .next t) :
    ∃ L, Lines.applyAll evs s.lines = some L ∧ t = s.emitted evs L := by
  unfold emit at h
  split at h
  · rename_i L hL
    cases h
    exact ⟨L, hL, rfl⟩
  · cases h

theorem State.emitted_emitted (s : State) (e₁ e₂ : List LineEvent) (L₁ L₂ : Lines) :
    (s.emitted e₁ L₁).emitted e₂ L₂ = s.emitted (e₁ ++ e₂) L₂ := by
  simp [State.emitted, List.reverseAux_eq]

/-- Emitting two lists one after the other is emitting them joined. -/
theorem emit_append (e₁ e₂ : List LineEvent) (s : State) :
    emit (e₁ ++ e₂) s = andThen (emit e₁ s) (emit e₂) := by
  unfold emit
  rw [Lines.applyAll_append]
  cases Lines.applyAll e₁ s.lines with
  | none => rfl
  | some L =>
    simp only [Option.bind_some, andThen_next, State.emitted_lines]
    cases Lines.applyAll e₂ L with
    | none => rfl
    | some L' => simp [State.emitted_emitted]

/-! ### The transmitter -/

/-- The state after a list of bits has been sent (rule R151). -/
def State.transmit (s : State) (bs : List Bool) : State := s.emitted (bitsEvents bs) (s.lines.afterBits bs)

theorem bitsEvents_append (xs ys : List Bool) : bitsEvents (xs ++ ys) = bitsEvents xs ++ bitsEvents ys := by
  simp [bitsEvents]

theorem length_bitsEvents (bs : List Bool) : (bitsEvents bs).length = 5 * bs.length := by
  induction bs with
  | nil => rfl
  | cons b rest ih =>
    have : bitsEvents (b :: rest) = bitCycle b ++ bitsEvents rest := rfl
    rw [this, List.length_append, ih, List.length_cons]
    simp only [bitCycle, List.length_cons, List.length_nil]
    omega

@[simp] theorem State.transmit_nil (s : State) : s.transmit [] = s := rfl

theorem State.transmit_append (s : State) (xs ys : List Bool) :
    (s.transmit xs).transmit ys = s.transmit (xs ++ ys) := by
  simp only [State.transmit, State.emitted_emitted, State.emitted_lines, ← Lines.afterBits_append,
    bitsEvents_append]

@[simp] theorem State.transmit_lines (s : State) (bs : List Bool) : (s.transmit bs).lines = s.lines.afterBits bs := rfl
@[simp] theorem State.transmit_trace (s : State) (bs : List Bool) :
    (s.transmit bs).trace = s.trace ++ bitsEvents bs := State.emitted_trace _ _ _
@[simp] theorem State.transmit_boardCount (s : State) (bs : List Bool) : (s.transmit bs).boardCount = s.boardCount := rfl

@[simp] theorem length_bitsMSB (v n : Nat) : (bitsMSB v n).length = n := by
  induction n with
  | zero => rfl
  | succ n ih => simp [bitsMSB, ih]

theorem strobeLow_of_canSend {s : State} (h : s.lines.canSend) : strobeLow s = true := by
  simp [strobeLow, h.wr, LineState.driven, levelOf]

theorem emit_bits {s : State} (h : s.lines.canSend) (bs : List Bool) :
    emit (bitsEvents bs) s = .next (s.transmit bs) :=
  emit_of_applyAll (Lines.applyAll_bits h.data (by rw [h.wr]; rfl) bs)

theorem writeBits_spec {s : State} (h : s.lines.canSend) (v n : Nat) :
    writeBits v n s = .next (s.transmit (bitsMSB v n)) := by
  rw [writeBits, strobeLow_of_canSend h, if_pos rfl, emit_bits h]

theorem writeSingleBit_spec {s : State} (h : s.lines.canSend) : writeSingleBit s = .next (s.transmit [false]) := by
  rw [writeSingleBit, strobeLow_of_canSend h, if_pos rfl]
  exact emit_bits h [false]

theorem writeCommand_spec {s : State} (h : s.lines.canSend) (c : Byte) :
    writeCommand c s = .next (s.transmit (commandBits c)) := by
  have h' : (s.transmit (bitsMSB c.toNat 8)).lines.canSend := h.afterBits (bitsMSB c.toNat 8)
  rw [writeCommand, writeBits_spec h, andThen_next, writeSingleBit_spec h', State.transmit_append]
  rfl

/-- The bits that an item of the transmitter sends (rule R157); none for any other item. -/
def itemBits : SeqItem → List Bool
  | .id v => bitsMSB v.toNat 3
  | .command c => commandBits c
  | .address a => bitsMSB a.toNat 7
  | .data w => nibbleBits w
  | _ => []

/-- An item that the transmitter sends (rules R84, R157). -/
def itemSends : SeqItem → Bool
  | .id v => ProtocolId.sendable v
  | .command c => ChipCommand.sendable c
  | .address _ => true
  | .data _ => true
  | _ => false

theorem runItem_sends {s : State} (h : s.lines.canSend) {it : SeqItem} (hi : itemSends it = true) :
    runItem it s = .next (s.transmit (itemBits it)) := by
  cases it <;> simp only [itemSends, Bool.false_eq_true] at hi <;>
    simp only [runItem, sendId, sendCommand, hi, if_true, writeBits_spec h, writeCommand_spec h] <;> rfl

/-- A list of fields is sent bit by bit, in order (rule R160). -/
theorem runItems_sends {items : List SeqItem} (hi : ∀ it ∈ items, itemSends it = true) {s : State}
    (h : s.lines.canSend) : runItems items s = .next (s.transmit (items.flatMap itemBits)) := by
  induction items generalizing s with
  | nil => rfl
  | cons it rest ih =>
    rw [runItems, runItem_sends h (hi it (by simp)), andThen_next,
      ih (fun it hit => hi it (by simp [hit])) (h.afterBits _), State.transmit_append, List.flatMap_cons]

/-! ### Sequences -/

theorem runItems_append (xs ys : List SeqItem) (s : State) :
    runItems (xs ++ ys) s = andThen (runItems xs s) (runItems ys) := by
  induction xs generalizing s with
  | nil => rfl
  | cons it rest ih =>
    simp only [List.cons_append, runItems, andThen_assoc]
    congr 1
    funext s'
    exact ih s'

theorem select_spec {s : State} (mask : Nat) (h : ∀ i < s.boardCount, (s.lines.get (.cs i)).cfgd = true) :
    select mask s =
      .next (s.emitted (selectEvents s.boardCount mask) { s.lines with cs := selectCs s.boardCount mask s.lines.cs }) :=
  emit_of_applyAll (Lines.applyAll_select mask h)

/-- The events of a transaction: select, the frame's bits, deselect (rules R58, R81). -/
def transactionEvents (n mask : Nat) (bits : List Bool) : List LineEvent :=
  selectEvents n mask ++ bitsEvents bits ++ selectEvents n 0

/-- A bracketed frame, from lines at rest: its events, and the lines at rest again (rules R58, R257). -/
theorem runItems_bracket {s : State} {maxBoards : Nat} (h : s.lines.atRest s.boardCount maxBoards) (mask : Nat)
    {frame : List SeqItem} (hf : ∀ it ∈ frame, itemSends it = true) :
    runItems (bracket mask frame) s =
      .next (s.emitted (transactionEvents s.boardCount mask (frame.flatMap itemBits))
        (s.lines.afterBits (frame.flatMap itemBits))) := by
  have hsel := select_spec mask fun i hi => h.cfgd_cs hi
  have hsend : ({ s.lines with cs := selectCs s.boardCount mask s.lines.cs } : Lines).canSend :=
    ⟨h.canSend.wr, h.canSend.data⟩
  simp only [bracket, List.cons_append, runItems, runItem, hsel, andThen_next]
  rw [runItems_append, runItems_sends hf (by exact hsend), andThen_next]
  simp only [runItems, runItem]
  rw [select_spec deselectMask]
  · simp only [andThen_next, State.transmit, State.emitted_emitted, State.emitted_lines, State.emitted_boardCount,
      transactionEvents, deselectMask, Lines.afterBits_cs, selectCs_selectCs, List.append_assoc]
    congr 2
    have hcs : selectCs s.boardCount 0 s.lines.cs = s.lines.cs := by rw [h.1, selectCs_zero_restCs]
    rw [hcs]
    unfold Lines.afterBits
    split <;> rfl
  · intro i hi
    have := h.cfgd_cs (by simpa [State.transmit] using hi : i < s.boardCount)
    simp only [State.transmit_lines, State.emitted_lines, Lines.get, Lines.afterBits_cs, List.getD,
      getElem?_selectCs] at this ⊢
    cases hx : s.lines.cs[i]? with
    | none => simp [hx, LineState.off] at this
    | some x =>
      have hi' : i < s.boardCount := by simpa [State.transmit] using hi
      simp [hi', LineState.driven]

theorem Lines.atRest.afterBits {L : Lines} {n maxBoards : Nat} (h : L.atRest n maxBoards) (bs : List Bool) :
    (L.afterBits bs).atRest n maxBoards := by
  unfold Lines.afterBits
  split
  · exact h
  · exact ⟨h.1, rfl, ⟨_, rfl⟩, h.2.2.2⟩

/-! ### What no operation changes -/

/-- What every operation of the block leaves alone, and how the ghost components move (rules R20, R27, R30). -/
structure State.Follows (s t : State) : Prop where
  cfg : t.cfg = s.cfg
  allocOk : t.allocOk = s.allocOk
  port : t.port = s.port
  seqpos : t.seqpos = s.seqpos
  refusedMark : s.refusedMark = true → t.refusedMark = true
  trace : s.trace <+: t.trace

theorem State.Follows.refl (s : State) : s.Follows s := ⟨rfl, rfl, rfl, rfl, id, List.prefix_refl _⟩

theorem State.Follows.trans {s t u : State} (h : s.Follows t) (k : t.Follows u) : s.Follows u :=
  ⟨k.cfg.trans h.cfg, k.allocOk.trans h.allocOk, k.port.trans h.port, k.seqpos.trans h.seqpos,
    fun hr => k.refusedMark (h.refusedMark hr), h.trace.trans k.trace⟩

theorem State.Follows.emitted (s : State) (evs : List LineEvent) (L : Lines) : s.Follows (s.emitted evs L) :=
  ⟨rfl, rfl, rfl, rfl, id, by simp⟩

theorem emit_follows {evs : List LineEvent} {s t : State} (h : emit evs s = .next t) : s.Follows t := by
  obtain ⟨L, -, rfl⟩ := emit_eq_next h
  exact .emitted s evs L

theorem writeBits_follows {v n : Nat} {s t : State} (h : writeBits v n s = .next t) : s.Follows t := by
  unfold writeBits at h
  split at h
  · exact emit_follows h
  · cases h

theorem writeSingleBit_follows {s t : State} (h : writeSingleBit s = .next t) : s.Follows t := by
  unfold writeSingleBit at h
  split at h
  · exact emit_follows h
  · cases h

theorem writeCommand_follows {c : Byte} {s t : State} (h : writeCommand c s = .next t) : s.Follows t := by
  obtain ⟨u, hu, ht⟩ := andThen_eq_next h
  exact (writeBits_follows hu).trans (writeSingleBit_follows ht)

theorem sendId_follows {v : BitVec 3} {s t : State} (h : sendId v s = .next t) : s.Follows t := by
  unfold sendId at h
  split at h
  · exact writeBits_follows h
  · cases h

theorem sendCommand_follows {c : Byte} {s t : State} (h : sendCommand c s = .next t) : s.Follows t := by
  unfold sendCommand at h
  split at h
  · exact writeCommand_follows h
  · cases h

theorem respond_follows {req : RequestRef} {o : ReqOutcome} {r : Response} {s t : State}
    (h : respond req o r s = .next t) : s.Follows t := by
  cases h
  exact ⟨rfl, rfl, rfl, rfl, id, List.prefix_refl _⟩

theorem refuse_follows {req : RequestRef} {o : ReqOutcome} {s t : State} (h : refuse req o s = .next t) :
    s.Follows t := by
  cases h
  exact ⟨rfl, rfl, rfl, rfl, fun _ => rfl, List.prefix_refl _⟩

theorem runItem_follows {it : SeqItem} {s t : State} (h : runItem it s = .next t) : s.Follows t := by
  cases it with
  | configure l low => exact emit_follows h
  | select mask => exact emit_follows h
  | id v => exact sendId_follows h
  | command c => exact sendCommand_follows h
  | address a => exact writeBits_follows h
  | data w => exact writeBits_follows h
  | respond req r => exact respond_follows h
  | record n => cases h; exact ⟨rfl, rfl, rfl, rfl, id, List.prefix_refl _⟩
  | allocate => cases h; exact ⟨rfl, rfl, rfl, rfl, id, List.prefix_refl _⟩
  | allocFail req => cases h; exact ⟨rfl, rfl, rfl, rfl, id, List.prefix_refl _⟩
  | target b => cases h; exact ⟨rfl, rfl, rfl, rfl, id, List.prefix_refl _⟩
  | ready => cases h; exact ⟨rfl, rfl, rfl, rfl, id, List.prefix_refl _⟩

theorem runItems_follows {items : List SeqItem} {s t : State} (h : runItems items s = .next t) : s.Follows t := by
  induction items generalizing s with
  | nil => cases h; exact .refl _
  | cons it rest ih =>
    obtain ⟨u, hu, ht⟩ := andThen_eq_next h
    exact (runItem_follows hu).trans (ih ht)

theorem runRequest_follows {items : List SeqItem} {s t : State} (h : runRequest items s = .next t) :
    s.Follows t := by
  have hb : s.Follows { s with busy := true } := ⟨rfl, rfl, rfl, rfl, id, List.prefix_refl _⟩
  exact hb.trans (runItems_follows h)

/-- An accepted request is stuck, refused, or its rule runs (rule R225). -/
theorem whenReady_cases {req : RequestRef} {s t : State} {k : State → Result} (h : whenReady req s k = .next t) :
    (s.phase = .uninit ∧ t = s.refusedAs req .refusedNotInitialized) ∨ (s.phase = .ready ∧ k s = .next t) := by
  unfold whenReady at h
  split at h
  · cases h
  · cases h
    exact .inl ⟨‹_›, rfl⟩
  · exact .inr ⟨‹_›, h⟩

theorem memWriteAll_frame {v : Byte} {addrs : List (Nat × Nat)} {s t : State} (h : memWriteAll v addrs s = some t) :
    t = { s with mem := t.mem } := by
  induction addrs generalizing s with
  | nil => cases h; rfl
  | cons a rest ih =>
    obtain ⟨c, o⟩ := a
    simp only [memWriteAll, memWrite] at h
    split_ifs at h
    have := ih (s := s.withByte c o v) h
    rw [this]
    rfl

end Sys2Proof.Machine
end

