-- ==== Sys2Proof/Laws/PerInstr.lean ====
section
/-! SUPPORT. One family of lemmas over all instructions: the encoder puts into every instruction's code the fixed bits
that spec/opcode_table.json gives its row. -/

namespace Sys2Proof.Laws.TableRow

/-- A unit of code as the number that the opcode table's bits count in: a command without its padding bit, a frame by
its 3-bit ID. -/
def number : Code → Nat
  | .request w => w.toNat
  | .id v => v.toNat
  | .command v => (v.extractLsb' 1 8).toNat
  | .frame bits => ofBits (bits.take 3)

/-- The "fixed" column of the opcode table, as (hi, lo, value); for the two frames, whose row has none, the ID. -/
def fixedBits : Instr → List (Nat × Nat × Nat)
  | .init _ => [(19, 0, 0x0), (31, 28, 0x1)]
  | .selectWriteChannel _ => [(19, 0, 0x0), (31, 28, 0x2)]
  | .selectRenderTarget _ => [(19, 0, 0x0), (31, 28, 0x3)]
  | .setPixel _ _ => [(11, 0, 0x0), (31, 28, 0x4)]
  | .clearPixel _ _ => [(11, 0, 0x0), (31, 28, 0x5)]
  | .getPixel _ _ => [(11, 0, 0x0), (31, 28, 0x6)]
  | .setPixelCh _ _ _ => [(3, 0, 0x0), (31, 28, 0x7)]
  | .clearPixelCh _ _ _ => [(3, 0, 0x0), (31, 28, 0x8)]
  | .getPixelCh _ _ _ => [(3, 0, 0x0), (31, 28, 0x9)]
  | .fill => [(31, 0, 0xa0000000)]
  | .fillAll => [(31, 0, 0xb0000000)]
  | .clear => [(31, 0, 0xc0000000)]
  | .render => [(31, 0, 0xd0000000)]
  | .setBrightness _ _ => [(11, 0, 0x0), (31, 28, 0xe)]
  | .setBrightnessCurrent _ => [(19, 0, 0x10000), (31, 28, 0xe)]
  | .reservedOp0 _ => [(31, 28, 0x0)]
  | .reservedOpF _ => [(31, 28, 0xf)]
  | .idCmd => [(2, 0, 0x4)]
  | .idWr => [(2, 0, 0x5)]
  | .idRd => [(2, 0, 0x6)]
  | .sysDis => [(7, 0, 0x0)]
  | .sysEn => [(7, 0, 0x1)]
  | .ledOff => [(7, 0, 0x2)]
  | .ledOn => [(7, 0, 0x3)]
  | .blinkOff => [(7, 0, 0x8)]
  | .blinkOn => [(7, 0, 0x9)]
  | .slaveMode => [(7, 0, 0x10)]
  | .masterMode => [(7, 0, 0x14)]
  | .intClk => [(7, 0, 0x18)]
  | .extClk => [(7, 0, 0x1c)]
  | .com20 => [(7, 0, 0x20)]
  | .com24 => [(7, 0, 0x24)]
  | .com28 => [(7, 0, 0x28)]
  | .com2C => [(7, 0, 0x2c)]
  | .pwm _ => [(7, 4, 0xa)]
  | .commandFrame _ => [(2, 0, 0x4)]
  | .ramWriteFrame _ => [(2, 0, 0x5)]

/-- Under the default sentinel 0x10, which the table's pseudo row assumes, the code of a well-formed instruction has
its row's fixed bits. -/
def Statement (i : Instr) : Prop :=
  ∀ cfg : Config, cfg.currentBoardSentinel = 0x10 → i.wellFormed cfg = true →
    ∀ f ∈ fixedBits i, number (encode cfg i) / 2 ^ f.2.1 % 2 ^ (f.1 - f.2.1 + 1) = f.2.2

theorem mem_pair {α : Type} {f a b : α} (h : f ∈ [a, b]) : f = a ∨ f = b := by
  simpa using h

/-- The rows with one fixed field, whose code is the same in every configuration. -/
theorem of_oneField {i : Instr} {f : Nat × Nat × Nat} {n : Nat} (hfixed : fixedBits i = [f])
    (hn : ∀ cfg, number (encode cfg i) = n) (h : n / 2 ^ f.2.1 % 2 ^ (f.1 - f.2.1 + 1) = f.2.2) : Statement i := by
  intro cfg _ _ f' hf
  rw [hfixed, List.mem_singleton] at hf
  rw [hf, hn cfg, h]

/-- A bit field of a request word, by its field positions. -/
theorem requestWord_field {op : BitVec 4} {a b c : Int} (hi lo : Nat) {v : Nat}
    (h : (op.toNat * 2 ^ 28 + (BitVec.ofInt 8 a).toNat * 2 ^ 20 + (BitVec.ofInt 8 b).toNat * 2 ^ 12
      + (BitVec.ofInt 8 c).toNat * 2 ^ 4 + (0#4).toNat) / 2 ^ lo % 2 ^ (hi - lo + 1) = v) :
    number (requestWord op a b c) / 2 ^ lo % 2 ^ (hi - lo + 1) = v := by
  show (op ++ BitVec.ofInt 8 a ++ BitVec.ofInt 8 b ++ BitVec.ofInt 8 c ++ 0#4 : Word).toNat / _ % _ = v
  rw [toNat_wordOfFields]
  exact h

theorem init (n : Int) : Statement (.init n) := by
  intro cfg _ _ f hf
  rcases mem_pair hf with rfl | rfl
  · exact requestWord_field 19 0 (by simp; try omega)
  · exact requestWord_field 31 28 (by simp; try omega)

theorem selectWriteChannel (n : Int) : Statement (.selectWriteChannel n) := by
  intro cfg _ _ f hf
  rcases mem_pair hf with rfl | rfl
  · exact requestWord_field 19 0 (by simp; try omega)
  · exact requestWord_field 31 28 (by simp; try omega)

theorem selectRenderTarget (n : Int) : Statement (.selectRenderTarget n) := by
  intro cfg _ _ f hf
  rcases mem_pair hf with rfl | rfl
  · exact requestWord_field 19 0 (by simp; try omega)
  · exact requestWord_field 31 28 (by simp; try omega)

theorem setPixel (x : Int) (y : Int) : Statement (.setPixel x y) := by
  intro cfg _ _ f hf
  rcases mem_pair hf with rfl | rfl
  · exact requestWord_field 11 0 (by simp; try omega)
  · exact requestWord_field 31 28 (by simp; try omega)

theorem clearPixel (x : Int) (y : Int) : Statement (.clearPixel x y) := by
  intro cfg _ _ f hf
  rcases mem_pair hf with rfl | rfl
  · exact requestWord_field 11 0 (by simp; try omega)
  · exact requestWord_field 31 28 (by simp; try omega)

theorem getPixel (x : Int) (y : Int) : Statement (.getPixel x y) := by
  intro cfg _ _ f hf
  rcases mem_pair hf with rfl | rfl
  · exact requestWord_field 11 0 (by simp; try omega)
  · exact requestWord_field 31 28 (by simp; try omega)

theorem setPixelCh (x : Int) (y : Int) (ch : Int) : Statement (.setPixelCh x y ch) := by
  intro cfg _ _ f hf
  rcases mem_pair hf with rfl | rfl
  · exact requestWord_field 3 0 (by simp; try omega)
  · exact requestWord_field 31 28 (by simp; try omega)

theorem clearPixelCh (x : Int) (y : Int) (ch : Int) : Statement (.clearPixelCh x y ch) := by
  intro cfg _ _ f hf
  rcases mem_pair hf with rfl | rfl
  · exact requestWord_field 3 0 (by simp; try omega)
  · exact requestWord_field 31 28 (by simp; try omega)

theorem getPixelCh (x : Int) (y : Int) (ch : Int) : Statement (.getPixelCh x y ch) := by
  intro cfg _ _ f hf
  rcases mem_pair hf with rfl | rfl
  · exact requestWord_field 3 0 (by simp; try omega)
  · exact requestWord_field 31 28 (by simp; try omega)

theorem fill : Statement (.fill) := by
  intro cfg _ _ f hf
  have h := List.mem_singleton.mp hf
  subst h
  exact requestWord_field 31 0 (by simp)

theorem fillAll : Statement (.fillAll) := by
  intro cfg _ _ f hf
  have h := List.mem_singleton.mp hf
  subst h
  exact requestWord_field 31 0 (by simp)

theorem clear : Statement (.clear) := by
  intro cfg _ _ f hf
  have h := List.mem_singleton.mp hf
  subst h
  exact requestWord_field 31 0 (by simp)

theorem render : Statement (.render) := by
  intro cfg _ _ f hf
  have h := List.mem_singleton.mp hf
  subst h
  exact requestWord_field 31 0 (by simp)

theorem setBrightness (level : Int) (mask : Nat) : Statement (.setBrightness level mask) := by
  intro cfg _ _ f hf
  rcases mem_pair hf with rfl | rfl
  · exact requestWord_field 11 0 (by simp; try omega)
  · exact requestWord_field 31 28 (by simp; try omega)

theorem setBrightnessCurrent (level : Int) : Statement (.setBrightnessCurrent level) := by
  intro cfg hs _ f hf
  rcases mem_pair hf with rfl | rfl
  · exact requestWord_field 19 0 (by rw [hs]; simp; try omega)
  · exact requestWord_field 31 28 (by rw [hs]; simp; try omega)

theorem reservedOp0 (p : BitVec 28) : Statement (.reservedOp0 p) := by
  intro cfg _ _ f hf
  have h := List.mem_singleton.mp hf
  subst h
  simp only [number, encode, toNat_wordOfPayload]
  simp
  omega

theorem reservedOpF (p : BitVec 28) : Statement (.reservedOpF p) := by
  intro cfg _ _ f hf
  have h := List.mem_singleton.mp hf
  subst h
  simp only [number, encode, toNat_wordOfPayload]
  simp
  omega

theorem idCmd : Statement (.idCmd) := by
  exact of_oneField rfl (fun _ => rfl) (by decide)

theorem idWr : Statement (.idWr) := by
  exact of_oneField rfl (fun _ => rfl) (by decide)

theorem idRd : Statement (.idRd) := by
  exact of_oneField rfl (fun _ => rfl) (by decide)

theorem sysDis : Statement (.sysDis) := by
  exact of_oneField rfl (fun _ => rfl) (by decide)

theorem sysEn : Statement (.sysEn) := by
  exact of_oneField rfl (fun _ => rfl) (by decide)

theorem ledOff : Statement (.ledOff) := by
  exact of_oneField rfl (fun _ => rfl) (by decide)

theorem ledOn : Statement (.ledOn) := by
  exact of_oneField rfl (fun _ => rfl) (by decide)

theorem blinkOff : Statement (.blinkOff) := by
  exact of_oneField rfl (fun _ => rfl) (by decide)

theorem blinkOn : Statement (.blinkOn) := by
  exact of_oneField rfl (fun _ => rfl) (by decide)

theorem slaveMode : Statement (.slaveMode) := by
  exact of_oneField rfl (fun _ => rfl) (by decide)

theorem masterMode : Statement (.masterMode) := by
  exact of_oneField rfl (fun _ => rfl) (by decide)

theorem intClk : Statement (.intClk) := by
  exact of_oneField rfl (fun _ => rfl) (by decide)

theorem extClk : Statement (.extClk) := by
  exact of_oneField rfl (fun _ => rfl) (by decide)

theorem com20 : Statement (.com20) := by
  exact of_oneField rfl (fun _ => rfl) (by decide)

theorem com24 : Statement (.com24) := by
  exact of_oneField rfl (fun _ => rfl) (by decide)

theorem com28 : Statement (.com28) := by
  exact of_oneField rfl (fun _ => rfl) (by decide)

theorem com2C : Statement (.com2C) := by
  exact of_oneField rfl (fun _ => rfl) (by decide)

theorem pwm (d : Nibble) : Statement (.pwm d) := by
  intro cfg _ _ f hf
  have h := List.mem_singleton.mp hf
  subst h
  have hd : ∀ d : Nibble, number (commandWord (ChipCommand.pwmOfField d)) / 2 ^ 4 % 2 ^ 4 = 0xa := by decide
  exact hd d

theorem commandFrame (cmds : List Byte) : Statement (.commandFrame cmds) := by
  exact of_oneField rfl (fun _ => rfl) (by decide)

theorem ramWriteFrame (words : List Nibble) : Statement (.ramWriteFrame words) := by
  exact of_oneField rfl (fun _ => rfl) (by decide)

end Sys2Proof.Laws.TableRow
end

