-- ==== Sys2Proof/Laws/Pixel.lean ====
section
/-! SUPPORT. The configuration's constraints as facts, the range of the address decoder, and what reading, modifying and
filling the frame buffer answer. -/

namespace Sys2Proof.Machine

/-! ### The configuration -/

/-- The constraints of rule R7 that the address decoder and the requests rest on. -/
theorem Config.facts_of_wf {cfg : Config} (h : cfg.wf = true) :
    1 ≤ cfg.numChannel ∧ 1 ≤ cfg.outSize ∧ 1 ≤ cfg.comSize ∧ 1 ≤ cfg.pixelsPerByte ∧ cfg.pixelsPerByte ≤ 8
      ∧ cfg.comSize % cfg.pixelsPerByte = 0 ∧ 1 ≤ cfg.maxBoards ∧ cfg.maxBoards ≤ 7
      ∧ cfg.commonModeCmd ∈ [0x20#8, 0x24#8, 0x28#8, 0x2C#8] := by
  simp only [Config.wf, List.all_cons, Bool.and_eq_true, id, decide_eq_true_eq] at h
  tauto

/-- A column has `groups` whole bytes, a channel `outSize` columns (rules R7, R103). -/
theorem Config.sizes_of_wf {cfg : Config} (h : cfg.wf = true) :
    cfg.addrSpaceSize = cfg.outSize * cfg.groups ∧ cfg.comSize = cfg.groups * cfg.pixelsPerByte := by
  obtain ⟨-, -, -, hp, -, hm, -⟩ := Config.facts_of_wf h
  have hc : cfg.comSize = cfg.groups * cfg.pixelsPerByte := by
    rw [Config.groups, Nat.div_mul_cancel (Nat.dvd_of_mod_eq_zero hm)]
  refine ⟨?_, hc⟩
  rw [Config.addrSpaceSize, hc, ← Nat.mul_assoc, Nat.mul_div_cancel _ (by omega)]

/-- A valid pixel's offset is in its channel buffer (rule R104). -/
theorem pixelOffset_lt {cfg : Config} (h : cfg.wf = true) {x y : Nat} (hx : x < cfg.outSize) (hy : y < cfg.comSize) :
    pixelOffset cfg x y < cfg.addrSpaceSize := by
  obtain ⟨ha, hc⟩ := Config.sizes_of_wf h
  obtain ⟨-, -, -, hp, -⟩ := Config.facts_of_wf h
  have hg : y / cfg.pixelsPerByte < cfg.groups := by
    rw [Nat.div_lt_iff_lt_mul (by omega), ← hc]
    exact hy
  rw [ha]
  unfold pixelOffset
  cases cfg.layout with
  | outputMajor =>
    simp only
    calc x * cfg.groups + y / cfg.pixelsPerByte < (x + 1) * cfg.groups := by rw [Nat.add_mul]; omega
      _ ≤ _ := Nat.mul_le_mul_right _ hx
  | groupMajor =>
    simp only
    calc y / cfg.pixelsPerByte * cfg.outSize + x < (y / cfg.pixelsPerByte + 1) * cfg.outSize := by
          rw [Nat.add_mul]; omega
      _ ≤ cfg.groups * cfg.outSize := Nat.mul_le_mul_right _ hg
      _ = _ := Nat.mul_comm _ _

theorem Config.addrSpaceSize_pos {cfg : Config} (h : cfg.wf = true) : 0 < cfg.addrSpaceSize :=
  Nat.zero_lt_of_lt (pixelOffset_lt h (x := 0) (y := 0) (Config.facts_of_wf h).2.1 (Config.facts_of_wf h).2.2.1)

theorem channelAddresses_ne_nil {cfg : Config} (h : cfg.wf = true) (c : Nat) : channelAddresses cfg c ≠ [] := by
  have := Config.addrSpaceSize_pos h
  simp [channelAddresses]
  omega

theorem allAddresses_ne_nil {cfg : Config} (h : cfg.wf = true) : allAddresses cfg ≠ [] :=
  List.ne_nil_of_mem (a := (0, 0)) (mem_allAddresses.mpr ⟨(Config.facts_of_wf h).1, Config.addrSpaceSize_pos h⟩)

/-! ### While no buffer exists (rule R51) -/

theorem memRead_of_no_buffer {s : State} (h : s.memExists = false) (c o : Nat) : memRead s c o = none := by
  simp [memRead, addressOk, h]

theorem memWriteAll_of_no_buffer {s : State} (h : s.memExists = false) (v : Byte) {addrs : List (Nat × Nat)}
    (ha : addrs ≠ []) : memWriteAll v addrs s = none := by
  obtain ⟨a, rest, rfl⟩ := List.exists_cons_of_ne_nil ha
  simp [memWriteAll, memWrite, addressOk, h]

theorem memReadAll_of_no_buffer {s : State} (h : s.memExists = false) {addrs : List (Nat × Nat)} (ha : addrs ≠ []) :
    memReadAll s addrs = none := by
  obtain ⟨a, rest, rfl⟩ := List.exists_cons_of_ne_nil ha
  simp [memReadAll, memRead, addressOk, h]

/-! ### The operand of a pixel request -/

theorem pixelOperand_of_inRange {cfg : Config} {c x y : Int} (h : Claims.inRange cfg c x y) :
    pixelOperand cfg c x y =
      some (c.toNat, pixelOffset cfg x.toNat y.toNat, pixelMask cfg y.toNat) := by
  obtain ⟨h1, h2, h3, h4, h5, h6⟩ := h
  simp [pixelOperand, validChannel, decodePixel, validPixel, *]

theorem pixelOperand_of_not_inRange {cfg : Config} {c x y : Int} (h : ¬ Claims.inRange cfg c x y) :
    pixelOperand cfg c x y = none := by
  simp only [Claims.inRange] at h
  simp only [pixelOperand, validChannel, decodePixel, validPixel]
  split_ifs <;> simp_all

theorem addressOk_of_inRange {s : State} {c x y : Int} (hm : s.memExists = true) (hw : s.cfg.wf = true)
    (h : Claims.inRange s.cfg c x y) :
    addressOk s c.toNat (pixelOffset s.cfg x.toNat y.toNat) = true := by
  obtain ⟨h1, h2, h3, h4, h5, h6⟩ := h
  rw [addressOk_iff]
  exact ⟨hm, by omega, pixelOffset_lt hw (by omega) (by omega)⟩

/-! ### The requests' shared operations -/

/-- A read-modify-write of a pixel in range changes its byte and is acknowledged. -/
theorem modifyPixel_of_inRange {s : State} {c x y : Int} (f : Byte → Byte → Byte) (req : RequestRef)
    (hm : s.memExists = true) (hw : s.cfg.wf = true) (h : Claims.inRange s.cfg c x y) :
    modifyPixel req c x y f s =
      .next ((s.withByte c.toNat (pixelOffset s.cfg x.toNat y.toNat)
        (f (byteAt s c.toNat (pixelOffset s.cfg x.toNat y.toNat)) (pixelMask s.cfg y.toNat))).answered req .ok .ack) := by
  simp [modifyPixel, pixelOperand_of_inRange h, memRead, memWrite, addressOk_of_inRange hm hw h, respond]

theorem modifyPixel_of_not_inRange {s : State} {c x y : Int} (f : Byte → Byte → Byte) (req : RequestRef)
    (h : ¬ Claims.inRange s.cfg c x y) :
    modifyPixel req c x y f s = .next (s.answered req .ignoredOutOfRange .ack) := by
  simp [modifyPixel, pixelOperand_of_not_inRange h, respond]

theorem readPixel_of_inRange {s : State} {c x y : Int} (req : RequestRef) (hm : s.memExists = true)
    (hw : s.cfg.wf = true) (h : Claims.inRange s.cfg c x y) :
    readPixel req c x y s = .next (s.answered req .ok (.bit (decide
      (byteAt s c.toNat (pixelOffset s.cfg x.toNat y.toNat) &&& pixelMask s.cfg y.toNat ≠ 0)))) := by
  simp [readPixel, pixelOperand_of_inRange h, memRead, addressOk_of_inRange hm hw h, respond]

theorem readPixel_of_not_inRange {s : State} {c x y : Int} (req : RequestRef) (h : ¬ Claims.inRange s.cfg c x y) :
    readPixel req c x y s = .next (s.answered req .ignoredOutOfRange (.bit false)) := by
  simp [readPixel, pixelOperand_of_not_inRange h, respond]

/-- Filling a list of existing addresses: those bytes hold the value, the others are as before, and the request is
acknowledged. -/
theorem fillAddresses_spec (v : Byte) (req : RequestRef) {addrs : List (Nat × Nat)} {s : State}
    (hm : s.mem.wf = true) (hok : ∀ a ∈ addrs, addressOk s a.1 a.2 = true) :
    ∃ m : Memory, fillAddresses req v addrs s = .next (({ s with mem := m } : State).answered req .ok .ack)
      ∧ m.wf = true
      ∧ (Memory.below s.cfg.bufferSize s.mem = true → Memory.below s.cfg.bufferSize m = true)
      ∧ ∀ c o, o < s.cfg.addrSpaceSize →
          byteAt { s with mem := m } c o = if (c, o) ∈ addrs then v else byteAt s c o := by
  obtain ⟨m, he, hwm, hb, hget⟩ := memWriteAll_spec v hm hok
  refine ⟨m, ?_, hwm, hb, hget⟩
  rw [fillAddresses, he]
  rfl

end Sys2Proof.Machine
end

