-- ==== Sys2Proof/Laws/Sequences.lean ====
section
/-! SUPPORT. The sequences of RENDER and INIT: the bits of their frames in the terms of the claims, and what INIT's
configuration steps and its blank renders leave. -/

namespace Sys2Proof.Machine

/-! ### Events in the terms of the claims -/

theorem transactionEvents_eq (n mask : Nat) (bits : List Bool) :
    transactionEvents n mask bits =
      Claims.selects n (fun i => !mask.testBit i) ++ Claims.bits bits ++ Claims.selects n (fun _ => true) := by
  have h : selectEvents n 0 = Claims.selects n (fun _ => true) := by simp [selectEvents, Claims.selects]
  rw [transactionEvents, h]
  rfl

theorem boardMask_testBit (b i : Nat) : (!(boardMask b).testBit i) = decide (i ≠ b) := by
  rw [boardMask, Nat.one_shiftLeft, Nat.testBit_two_pow]
  by_cases h : b = i <;> simp [h, Ne.symm]

/-- After a non-empty list of bits DATA is at the last one and nothing else has changed (rule R155). -/
theorem Lines.afterBits_eq {L : Lines} (h : L.canSend) {bs : List Bool} (hne : bs ≠ []) :
    L.afterBits bs = { L with data := ⟨if bs.getLastD false then .hi else .lo, true⟩ } := by
  obtain ⟨b, hb⟩ : ∃ b, bs.getLast? = some b := by
    cases hl : bs.getLast? with
    | none => exact absurd (List.getLast?_eq_none_iff.mp hl) hne
    | some b => exact ⟨b, rfl⟩
  rw [Lines.afterBits_of_canSend h hb, List.getLastD_eq_getLast?, hb]
  rfl

/-! ### Frames -/

theorem byteItems_bits (b : Byte) : (byteItems b).flatMap itemBits = bitsMSB b.toNat 8 := by
  revert b
  decide +kernel

theorem ramWriteItems_sends {bytes : List Byte} : ∀ it ∈ ramWriteItems bytes, itemSends it = true := by
  intro it h
  simp only [ramWriteItems, byteItems, List.mem_append, List.mem_cons, List.mem_flatMap, List.not_mem_nil, or_false] at h
  rcases h with (rfl | rfl) | ⟨b, -, rfl | rfl⟩ <;> rfl

theorem ramWriteItems_bits (bytes : List Byte) :
    (ramWriteItems bytes).flatMap itemBits =
      Claims.ramWriteHeader ++ bytes.flatMap fun b => bitsMSB b.toNat 8 := by
  rw [ramWriteItems, List.flatMap_append, List.flatMap_assoc]
  simp only [byteItems_bits]
  rfl

/-- The frame that RENDER sends is the header and the whole buffer (rules R172 to R174). -/
theorem ramWriteItems_bufferBits (s : State) :
    (ramWriteItems ((allAddresses s.cfg).map fun a => byteAt s a.1 a.2)).flatMap itemBits =
      Claims.ramWriteHeader ++ Claims.bufferBits s := by
  rw [ramWriteItems_bits, List.flatMap_map]
  simp only [allAddresses, List.flatMap_assoc, channelAddresses, List.flatMap_map]
  rfl

/-- The frame of a blank render (rule R207). -/
theorem ramWriteItems_blank (cfg : Config) :
    (ramWriteItems (List.replicate cfg.bufferSize 0)).flatMap itemBits =
      Claims.ramWriteHeader ++ List.replicate (8 * cfg.numChannel * cfg.addrSpaceSize) false := by
  have h : ∀ m, (List.replicate m (0 : Byte)).flatMap (fun b => bitsMSB b.toNat 8) = List.replicate (8 * m) false := by
    intro m
    induction m with
    | zero => rfl
    | succ m ih =>
      rw [List.replicate_succ, List.flatMap_cons, ih]
      simp [bitsMSB, show 8 * (m + 1) = 8 * m + 8 by ring, List.replicate_succ]
  rw [ramWriteItems_bits, h, Config.bufferSize, ← Nat.mul_assoc]

/-- Every level's command can be sent (rules R84, R191). -/
theorem pwmOfLevel_sendable (level : Int) : ChipCommand.sendable (ChipCommand.pwmOfLevel level) = true := by
  have : ∀ v : Byte, ChipCommand.sendable (ChipCommand.pwmBase ||| v) = true := by decide
  exact this _

/-- A command frame stops at its first command that is never sent, by that command's name (rule R84). -/
theorem runItems_commandItems_of_not_sendable {s : State} (h : s.lines.canSend) {sent rest : List Byte} {c : Byte}
    (hs : ∀ b ∈ sent, ChipCommand.sendable b = true) (hc : ChipCommand.sendable c = false) :
    runItems (commandItems (sent ++ c :: rest)) s = .refused (.neverSentCommand c) := by
  have hsplit : commandItems (sent ++ c :: rest) = commandItems sent ++ .command c :: rest.map .command := by
    simp [commandItems]
  have hsend : ∀ it ∈ commandItems sent, itemSends it = true := by
    simp only [commandItems, List.mem_cons, List.mem_map]
    rintro it (rfl | ⟨b, hb, rfl⟩)
    · rfl
    · exact hs b hb
  rw [hsplit, runItems_append, runItems_sends hsend h, andThen_next]
  simp [runItems, runItem, sendCommand, hc, andThen]

/-! ### INIT -/

/-- The events of INIT steps (b) and (c) (rules R202, R203). -/
def initConfigureEvents (n : Nat) : List LineEvent :=
  (List.range n).map (fun i => .cfg (.cs i)) ++ [.cfg .wr, .w .wr false, .cfg .data, .w .data false]
    ++ Claims.selects n (fun _ => true)

/-- The lines after INIT steps (b) and (c). -/
def Lines.configured (n maxBoards : Nat) : Lines := ⟨restCs n maxBoards, .driven false, .driven false, .off⟩

theorem Lines.configured_atRest (n maxBoards : Nat) : (Lines.configured n maxBoards).atRest n maxBoards :=
  ⟨rfl, rfl, ⟨false, rfl⟩, rfl⟩

theorem runItems_configureCs (l : List Nat) (s : State) :
    runItems (l.map fun i => .configure (.cs i) false) s = emit (l.map fun i => .cfg (.cs i)) s := by
  induction l generalizing s with
  | nil => rfl
  | cons a l ih =>
    have hs : ∀ tail, LineEvent.cfg (.cs a) :: tail = [.cfg (.cs a)] ++ tail := fun _ => rfl
    have he : runItem (.configure (.cs a) false) s = emit [.cfg (.cs a)] s := rfl
    simp only [List.map_cons, runItems]
    rw [hs, emit_append, he]
    congr 1
    funext u
    exact ih u

/-- Steps (a) to (c) of INIT, from lines that are not configured. -/
theorem initConfigureItems_spec {s : State} {n : Nat} (hl : s.lines = .off s.cfg.maxBoards) (hn : n ≤ s.cfg.maxBoards) :
    runItems (initConfigureItems n) s =
      .next (({ s with boardCount := n, writeChannel := 0 } : State).emitted (initConfigureEvents n)
        (.configured n s.cfg.maxBoards)) := by
  have hcs := Lines.applyAll_configureCs hn s.lines (by rw [hl]; rfl)
  have hrun : runItems (initConfigureItems n) s =
      emit (((List.range n).map fun i => LineEvent.cfg (.cs i))
        ++ ([.cfg .wr, .w .wr false] ++ ([.cfg .data, .w .data false] ++ selectEvents n 0)))
        { s with boardCount := n, writeChannel := 0 } := by
    have hsplit : initConfigureItems n =
        .record n :: ((List.range n).map (fun i => SeqItem.configure (.cs i) false)
          ++ [.configure .wr true, .configure .data true, .select deselectMask]) := by
      simp [initConfigureItems]
    rw [hsplit]
    simp only [runItems, runItem, andThen_next]
    rw [runItems_append, runItems_configureCs, emit_append]
    cases he : emit ((List.range n).map fun i => LineEvent.cfg (.cs i))
        ({ s with boardCount := n, writeChannel := 0 } : State) with
    | fault f => rfl
    | refused q => rfl
    | next u =>
      have hu : u.boardCount = n := by obtain ⟨L, -, rfl⟩ := emit_eq_next he; rfl
      rw [andThen_next, andThen_next, emit_append]
      show andThen (emit [LineEvent.cfg .wr, .w .wr false] u) _ = _
      cases he' : emit [LineEvent.cfg .wr, .w .wr false] u with
      | fault f => rfl
      | refused q => rfl
      | next v =>
        have hv : v.boardCount = n := by obtain ⟨L, -, rfl⟩ := emit_eq_next he'; exact hu
        rw [andThen_next, andThen_next, emit_append]
        show andThen (emit [LineEvent.cfg .data, .w .data false] v) _ = _
        cases he'' : emit [LineEvent.cfg .data, .w .data false] v with
        | fault f => rfl
        | refused q => rfl
        | next w =>
          have hw : w.boardCount = n := by obtain ⟨L, -, rfl⟩ := emit_eq_next he''; exact hv
          rw [andThen_next, andThen_next]
          show andThen (emit (selectEvents w.boardCount 0) w) _ = _
          rw [hw]
          cases emit (selectEvents n 0) w <;> rfl
  have happly : Lines.applyAll (((List.range n).map fun i => LineEvent.cfg (.cs i))
      ++ ([.cfg .wr, .w .wr false] ++ ([.cfg .data, .w .data false] ++ selectEvents n 0))) s.lines =
      some (.configured n s.cfg.maxBoards) := by
    rw [Lines.applyAll_append, hcs, Option.bind_some]
    simp only [List.cons_append, List.nil_append, Lines.applyAll, Lines.apply, Lines.set, Lines.get, if_true]
    rw [Lines.applyAll_select]
    · simp only [selectCs_configuredCs]
      rw [hl]
      rfl
    · intro i hi
      simp [Lines.get, List.getD, configuredCs, List.getElem?_append, hi]
  rw [hrun, emit_of_applyAll (s := { s with boardCount := n, writeChannel := 0 }) happly]
  congr 2
  simp [initConfigureEvents, selectEvents, Claims.selects]

/-- The events of one blank render (rule R207). -/
def blankRenderEvents (cfg : Config) (n b : Nat) : List LineEvent :=
  Claims.selects n (fun i => decide (i ≠ b))
    ++ Claims.bits (Claims.ramWriteHeader ++ List.replicate (8 * cfg.numChannel * cfg.addrSpaceSize) false)
    ++ Claims.selects n (fun _ => true)

theorem blankRenderItems_spec {s : State} (b : Nat) (hl : s.lines = .configured s.boardCount s.cfg.maxBoards) :
    runItems (blankRenderItems s.cfg b) s =
      .next (({ s with renderTarget := b } : State).emitted (blankRenderEvents s.cfg s.boardCount b) s.lines) := by
  simp only [blankRenderItems, runItems, runItem, andThen_next, renderItems]
  rw [runItems_bracket (s := { s with renderTarget := b }) (maxBoards := s.cfg.maxBoards)
    (by show s.lines.atRest _ _; rw [hl]; exact Lines.configured_atRest _ _) (boardMask b)
    (ramWriteItems_sends (bytes := List.replicate s.cfg.bufferSize 0)), ramWriteItems_blank]
  congr 2
  · rw [transactionEvents_eq]
    simp only [boardMask_testBit]
    rfl
  · show s.lines.afterBits _ = s.lines
    have hlast : (Claims.ramWriteHeader
        ++ List.replicate (8 * s.cfg.numChannel * s.cfg.addrSpaceSize) false).getLastD false = false := by
      rw [List.getLastD_eq_getLast?, List.getLast?_append, List.getLast?_replicate]
      split_ifs <;> rfl
    rw [Lines.afterBits_eq (by rw [hl]; exact (Lines.configured_atRest _ _).canSend) (by simp [Claims.ramWriteHeader]),
      hlast, hl]
    rfl

/-- Step (g) of INIT for a list of boards. -/
theorem blankRenders_spec {s : State} (bs : List Nat) (hl : s.lines = .configured s.boardCount s.cfg.maxBoards) :
    ∃ r, runItems (bs.flatMap (blankRenderItems s.cfg)) s =
      .next (({ s with renderTarget := r } : State).emitted (bs.flatMap (blankRenderEvents s.cfg s.boardCount))
        s.lines) := by
  induction bs generalizing s with
  | nil => exact ⟨s.renderTarget, rfl⟩
  | cons b bs ih =>
    obtain ⟨r, hr⟩ := ih
      (s := ({ s with renderTarget := b } : State).emitted (blankRenderEvents s.cfg s.boardCount b) s.lines) hl
    refine ⟨r, ?_⟩
    rw [List.flatMap_cons, runItems_append, blankRenderItems_spec b hl, andThen_next]
    refine Eq.trans hr ?_
    rw [List.flatMap_cons, ← State.emitted_emitted { s with renderTarget := r } (blankRenderEvents s.cfg s.boardCount b)
      (bs.flatMap (blankRenderEvents s.cfg s.boardCount)) s.lines s.lines]
    rfl

end Sys2Proof.Machine
end

