-- ==== Sys2Proof/Laws/Step.lean ====
section
/-! SUPPORT. What an instruction and a step can do: an instruction that completes either leaves the lines alone or runs a
list of sequencer items; a step waits, runs one item, or accepts one request. -/

namespace Sys2Proof.Machine

/-! ### Acceptance -/

theorem whenReady_ready {req : RequestRef} {s : State} {k : State → Result} (h : s.phase = .ready) :
    whenReady req s k = k s := by
  simp [whenReady, h]

/-! ### Instructions -/

/-- What an instruction that touches no line leaves alone (rule R116). -/
structure State.Quiet (s t : State) : Prop where
  cfg : t.cfg = s.cfg
  allocOk : t.allocOk = s.allocOk
  port : t.port = s.port
  seqpos : t.seqpos = s.seqpos
  refusedMark : s.refusedMark = true → t.refusedMark = true
  trace : t.traceRev = s.traceRev
  lines : t.lines = s.lines
  phase : t.phase = s.phase
  boardCount : t.boardCount = s.boardCount

theorem State.Quiet.trans {s t u : State} (a : s.Quiet t) (b : t.Quiet u) : s.Quiet u :=
  ⟨b.cfg.trans a.cfg, b.allocOk.trans a.allocOk, b.port.trans a.port, b.seqpos.trans a.seqpos,
    fun h => b.refusedMark (a.refusedMark h), b.trace.trans a.trace, b.lines.trans a.lines, b.phase.trans a.phase,
    b.boardCount.trans a.boardCount⟩

theorem State.Quiet.follows {s t : State} (h : s.Quiet t) : s.Follows t :=
  ⟨h.cfg, h.allocOk, h.port, h.seqpos, h.refusedMark, by simp [State.trace, h.trace]⟩

theorem respond_quiet {req : RequestRef} {o : ReqOutcome} {r : Response} {s t : State}
    (h : respond req o r s = .next t) : s.Quiet t := by
  cases h
  constructor <;> first | rfl | exact id

theorem refuse_quiet {req : RequestRef} {o : ReqOutcome} {s t : State} (h : refuse req o s = .next t) :
    s.Quiet t := by
  cases h
  constructor <;> first | rfl | exact fun _ => rfl

theorem whenReady_quiet {req : RequestRef} {s t : State} {k : State → Result} (h : whenReady req s k = .next t)
    (hk : k s = .next t → s.Quiet t) : s.Quiet t := by
  rcases whenReady_cases h with ⟨-, rfl⟩ | ⟨-, h⟩
  · exact refuse_quiet rfl
  · exact hk h

theorem refuseWord_quiet {w : Word} {s t : State} (h : refuseWord w s = .next t) : s.Quiet t := by
  unfold refuseWord at h
  split at h
  · cases h
  · exact refuse_quiet h
  · exact refuse_quiet h

theorem modifyPixel_quiet {req : RequestRef} {c x y : Int} {f : Byte → Byte → Byte} {s t : State}
    (h : modifyPixel req c x y f s = .next t) : s.Quiet t := by
  unfold modifyPixel at h
  split at h
  · exact respond_quiet h
  · split at h
    · cases h
    · split at h
      · cases h
      · rename_i s' hs
        refine State.Quiet.trans ?_ (respond_quiet h)
        unfold memWrite at hs
        split_ifs at hs
        cases hs
        constructor <;> first | rfl | exact id

theorem readPixel_quiet {req : RequestRef} {c x y : Int} {s t : State} (h : readPixel req c x y s = .next t) :
    s.Quiet t := by
  unfold readPixel at h
  split at h
  · exact respond_quiet h
  · split at h
    · cases h
    · exact respond_quiet h

theorem fillAddresses_quiet {req : RequestRef} {v : Byte} {addrs : List (Nat × Nat)} {s t : State}
    (h : fillAddresses req v addrs s = .next t) : s.Quiet t := by
  unfold fillAddresses at h
  split at h
  · cases h
  · rename_i s' hs
    refine State.Quiet.trans ?_ (respond_quiet h)
    rw [memWriteAll_frame hs]
    constructor <;> first | rfl | exact id

/-- An item that leaves CLK alone: every item that a request runs (rule R159). -/
def SeqItem.sparesClk : SeqItem → Bool
  | .configure .clk _ => false
  | _ => true

/-- An instruction that runs a list of sequencer items, none of which touches CLK. -/
def State.Runs (s t : State) : Prop :=
  ∃ items b, (∀ it ∈ items, it.sparesClk = true) ∧ runItems items { s with busy := b } = .next t

theorem sendCommand_runs {c : Byte} {s t : State} (h : sendCommand c s = .next t) : s.Runs t :=
  ⟨[.command c], s.busy, by simp [SeqItem.sparesClk], by
    show andThen (sendCommand c s) _ = _
    rw [h]
    rfl⟩

theorem sendId_runs {v : BitVec 3} {s t : State} (h : sendId v s = .next t) : s.Runs t :=
  ⟨[.id v], s.busy, by simp [SeqItem.sparesClk], by
    show andThen (sendId v s) _ = _
    rw [h]
    rfl⟩

theorem bracket_sparesClk {mask : Nat} {frame : List SeqItem} (h : ∀ it ∈ frame, it.sparesClk = true) :
    ∀ it ∈ bracket mask frame, it.sparesClk = true := by
  intro it hit
  simp only [bracket, List.cons_append, List.mem_cons, List.mem_append, List.not_mem_nil, or_false] at hit
  rcases hit with rfl | hit | rfl
  · rfl
  · exact h _ hit
  · rfl

theorem ramWriteItems_sparesClk {bytes : List Byte} : ∀ it ∈ ramWriteItems bytes, it.sparesClk = true := by
  intro it h
  simp only [ramWriteItems, byteItems, List.mem_append, List.mem_cons, List.mem_flatMap, List.not_mem_nil, or_false] at h
  rcases h with (rfl | rfl) | ⟨b, -, rfl | rfl⟩ <;> rfl

theorem commandItems_sparesClk {cmds : List Byte} : ∀ it ∈ commandItems cmds, it.sparesClk = true := by
  intro it h
  simp only [commandItems, List.mem_cons, List.mem_map] at h
  rcases h with rfl | ⟨b, -, rfl⟩ <;> rfl

theorem initSequence_sparesClk {cfg : Config} {a : Bool} {n : Nat} {req : RequestRef} :
    ∀ it ∈ initSequence cfg a n req, it.sparesClk = true := by
  intro it h
  simp only [initSequence, initConfigureItems, List.mem_append, List.mem_map, List.mem_cons, List.not_mem_nil,
    or_false] at h
  rcases h with ((rfl | ⟨i, -, rfl⟩) | rfl | rfl | rfl) | h <;> try rfl
  split_ifs at h
  · simp only [initBringUpItems, List.mem_append, List.mem_flatMap, List.mem_cons, List.not_mem_nil, or_false] at h
    rcases h with ((rfl | h) | ⟨i, -, h⟩) | rfl | rfl | rfl <;> try rfl
    · exact bracket_sparesClk commandItems_sparesClk _ h
    · simp only [blankRenderItems, List.mem_cons] at h
      rcases h with rfl | h
      · rfl
      · exact bracket_sparesClk ramWriteItems_sparesClk _ h
  · simp only [List.mem_cons, List.not_mem_nil, or_false] at h
    rw [h]
    rfl

theorem execRender_cases {s t : State} (h : execRender s = .next t) : s.Quiet t ∨ s.Runs t := by
  rcases whenReady_cases h with ⟨-, rfl⟩ | ⟨-, h⟩
  · exact .inl (refuse_quiet rfl)
  · split_ifs at h
    · split at h
      · cases h
      · refine .inr ⟨_, true, ?_, h⟩
        intro it hit
        rcases List.mem_append.mp hit with hit | hit
        · exact bracket_sparesClk ramWriteItems_sparesClk _ hit
        · rw [List.mem_singleton.mp hit]
          rfl
    · exact .inl (respond_quiet h)

theorem brightness_cases {level : Int} {mask : Nat} {s t : State} (h : brightness level mask s = .next t) :
    s.Quiet t ∨ s.Runs t := by
  rcases whenReady_cases h with ⟨-, rfl⟩ | ⟨-, h⟩
  · exact .inl (refuse_quiet rfl)
  · split at h
    · exact .inl (respond_quiet h)
    · refine .inr ⟨_, true, ?_, h⟩
      intro it hit
      rcases List.mem_append.mp hit with hit | hit
      · exact bracket_sparesClk commandItems_sparesClk _ hit
      · rw [List.mem_singleton.mp hit]
        rfl

theorem execInit_cases {n : Int} {s t : State} (h : execInit n s = .next t) : s.Quiet t ∨ s.Runs t := by
  unfold execInit at h
  split at h
  · cases h
  · exact .inl (refuse_quiet h)
  · split_ifs at h
    · exact .inr ⟨_, true, initSequence_sparesClk, h⟩
    · exact .inl (refuse_quiet h)

/-- Everything an instruction that completes can do. -/
theorem exec_cases {i : Instr} {s t : State} (h : exec i s = .next t) : s.Quiet t ∨ s.Runs t := by
  cases i with
  | init n => exact execInit_cases h
  | selectWriteChannel n =>
    unfold exec execSelectWriteChannel at h
    refine .inl (whenReady_quiet h fun h => ?_)
    split_ifs at h <;> cases h <;> constructor <;> first | rfl | exact id
  | selectRenderTarget n =>
    unfold exec execSelectRenderTarget at h
    refine .inl (whenReady_quiet h fun h => ?_)
    split_ifs at h <;> cases h <;> constructor <;> first | rfl | exact id
  | setPixel _ _ | clearPixel _ _ | setPixelCh _ _ _ | clearPixelCh _ _ _ =>
    exact .inl (whenReady_quiet h modifyPixel_quiet)
  | getPixel _ _ | getPixelCh _ _ _ => exact .inl (whenReady_quiet h readPixel_quiet)
  | fillAll | clear => exact .inl (whenReady_quiet h fillAddresses_quiet)
  | fill =>
    unfold exec execFill at h
    refine .inl (whenReady_quiet h fun h => ?_)
    split_ifs at h
    · exact fillAddresses_quiet h
    · exact respond_quiet h
  | render => exact execRender_cases h
  | setBrightness level mask => exact brightness_cases h
  | setBrightnessCurrent level => exact brightness_cases h
  | reservedOp0 p | reservedOpF p => exact .inl (refuseWord_quiet h)
  | idCmd => exact .inr (sendId_runs (v := ProtocolId.cmd) h)
  | idWr => exact .inr (sendId_runs (v := ProtocolId.wr) h)
  | idRd => exact .inr (sendId_runs (v := ProtocolId.rd) h)
  | sysDis => exact .inr (sendCommand_runs (c := ChipCommand.sysDis) h)
  | sysEn => exact .inr (sendCommand_runs (c := ChipCommand.sysEn) h)
  | ledOff => exact .inr (sendCommand_runs (c := ChipCommand.ledOff) h)
  | ledOn => exact .inr (sendCommand_runs (c := ChipCommand.ledOn) h)
  | blinkOff => exact .inr (sendCommand_runs (c := ChipCommand.blinkOff) h)
  | blinkOn => exact .inr (sendCommand_runs (c := ChipCommand.blinkOn) h)
  | slaveMode => exact .inr (sendCommand_runs (c := ChipCommand.slaveMode) h)
  | masterMode => exact .inr (sendCommand_runs (c := ChipCommand.masterMode) h)
  | intClk => exact .inr (sendCommand_runs (c := ChipCommand.intClk) h)
  | extClk => exact .inr (sendCommand_runs (c := ChipCommand.extClk) h)
  | com20 => exact .inr (sendCommand_runs (c := ChipCommand.com20) h)
  | com24 => exact .inr (sendCommand_runs (c := ChipCommand.com24) h)
  | com28 => exact .inr (sendCommand_runs (c := ChipCommand.com28) h)
  | com2C => exact .inr (sendCommand_runs (c := ChipCommand.com2C) h)
  | pwm d => exact .inr (sendCommand_runs (c := ChipCommand.pwmOfField d) h)
  | commandFrame cmds =>
    cases cmds with
    | nil => cases h
    | cons c cs => exact .inr ⟨_, s.busy, commandItems_sparesClk, h⟩
  | ramWriteFrame words =>
    refine .inr ⟨_, s.busy, ?_, h⟩
    intro it hit
    simp only [List.mem_append, List.mem_cons, List.mem_map, List.not_mem_nil, or_false] at hit
    rcases hit with (rfl | rfl) | ⟨w, -, rfl⟩ <;> rfl

/-- What no instruction changes. -/
theorem exec_follows {i : Instr} {s t : State} (h : exec i s = .next t) : s.Follows t := by
  rcases exec_cases h with h | ⟨items, b, -, h⟩
  · exact h.follows
  · have := runItems_follows h
    exact ⟨this.cfg, this.allocOk, this.port, this.seqpos, this.refusedMark, this.trace⟩

/-! ### The step -/

theorem step_of_live {s : State} (h : s.cfg.wf = true) (hf : s.phase ≠ .fatal) :
    step s = if s.busy then sequencerStep s else acceptRequest s := by
  simp only [step, nextStep, whenConfigured, h, if_true]
  split
  · exact absurd ‹_› hf
  · rfl
  · rfl

/-- Everything a step that completes can be: waiting, one item of a sequence, the end of one, or one request. -/
theorem step_cases {s t : State} (h : step s = .next t) :
    (s.busy = false ∧ s.port = [] ∧ t = s)
      ∨ (∃ it rest, s.busy = true ∧ s.seqpos = it :: rest ∧ runItem it { s with seqpos := rest } = .next t)
      ∨ (s.busy = true ∧ s.seqpos = [] ∧ t = { s with busy := false })
      ∨ ∃ w rest, s.busy = false ∧ s.port = w :: rest
          ∧ ((∃ i, decode (.request w) = .ok i ∧ exec i { s with port := rest } = .next t)
            ∨ ∃ e, decode (.request w) = .error e ∧ refuseWord w { s with port := rest } = .next t) := by
  by_cases hw : s.cfg.wf = true
  · by_cases hf : s.phase = .fatal
    · simp [step, nextStep, whenConfigured, hw, hf] at h
    · rw [step_of_live hw hf] at h
      split_ifs at h with hb
      · unfold sequencerStep at h
        split at h
        · cases h
          exact .inr (.inr (.inl ⟨hb, ‹_›, rfl⟩))
        · exact .inr (.inl ⟨_, _, hb, ‹_›, h⟩)
      · have hb' : s.busy = false := by simpa using hb
        unfold acceptRequest at h
        split at h
        · cases h
          exact .inl ⟨hb', ‹_›, rfl⟩
        · rename_i w rest hp
          refine .inr (.inr (.inr ⟨w, rest, hb', hp, ?_⟩))
          split at h
          · exact .inl ⟨_, ‹_›, h⟩
          · exact .inr ⟨_, ‹_›, h⟩
  · simp [step, nextStep, whenConfigured, hw] at h

end Sys2Proof.Machine
end

