-- ==== Sys2Proof/Tests/Slice0.lean ====
section
/-! SUPPORT. The model's own tests. Expected values are those of spec/95_test_vectors.md, or worked out by hand from the
rule cited; the witnesses show states and operands that meet the hypotheses of each statement. -/

open Sys2Proof Sys2Proof.Machine

namespace Sys2Proof.Tests

/-! ### Helpers -/

/-- The next state, where there is one. -/
def after (r : Result) : Option State :=
  match r with
  | .next t => some t
  | .fault _ => none
  | .refused _ => none

/-- The fault, where there is one. -/
def faultOf (r : Result) : Option Fault :=
  match r with
  | .fault f => some f
  | .next _ => none
  | .refused _ => none

/-- The refusal, where there is one. -/
def refusalOf (r : Result) : Option Refusal :=
  match r with
  | .refused q => some q
  | .next _ => none
  | .fault _ => none

/-- The bits that a list of events puts on DATA. -/
def dataBits (evs : List LineEvent) : List Bool :=
  evs.filterMap fun e =>
    match e with
    | .w .data b => some b
    | _ => none

/-- The levels that a list of events puts on the select lines. -/
def selectBits (evs : List LineEvent) : List (Nat × Bool) :=
  evs.filterMap fun e =>
    match e with
    | .w (.cs i) b => some (i, b)
    | _ => none

/-- A block in phase READY between requests, with `n` boards and an empty trace (rules R34, R209). -/
def readyState (cfg : Config) (n : Nat) : State :=
  { State.powerOn cfg true with
    phase := .ready, boardCount := n, memExists := true,
    lines := ⟨restCs n cfg.maxBoards, .driven false, .driven false, .off⟩ }

/-- A block in phase FATAL, as `INIT 2` leaves it (rule R204). -/
def fatalState (cfg : Config) : State :=
  { State.powerOn cfg false with
    phase := .fatal, boardCount := 2, busy := true,
    lines := ⟨restCs 2 cfg.maxBoards, .driven false, .driven false, .off⟩ }

/-- CFG-A with 4 pixels a byte and 8 columns (95_test_vectors.md, section 2.1). -/
def cfgNarrow : Config := { Config.cfgA with outSize := 8, pixelsPerByte := 4 }

/-- CFG-B with the other layout. -/
def cfgGroup : Config := { Config.cfgB with layout := .groupMajor }

/-- CFG-B with the other policies of both indexes. -/
def cfgPolicies : Config := { Config.cfgB with writeChannelPolicy := .storeAny, renderTargetPolicy := .ignoreInvalid }

/-! ### Well-formedness: an ill-formed term for each check -/

theorem test_wellFormed_init :
    Instr.wellFormed .cfgA (.init 256) = false
      ∧ Instr.wellFormed .cfgA (.init (-1)) = false := by decide

theorem test_wellFormed_selectWriteChannel :
    Instr.wellFormed .cfgA (.selectWriteChannel 256) = false
      ∧ Instr.wellFormed .cfgA (.selectWriteChannel (-1)) = false := by decide

theorem test_wellFormed_selectRenderTarget :
    Instr.wellFormed .cfgA (.selectRenderTarget 256) = false
      ∧ Instr.wellFormed .cfgA (.selectRenderTarget (-1)) = false := by decide

theorem test_wellFormed_setPixel :
    Instr.wellFormed .cfgA (.setPixel 256 0) = false
      ∧ Instr.wellFormed .cfgA (.setPixel (-1) 0) = false
      ∧ Instr.wellFormed .cfgA (.setPixel 0 256) = false
      ∧ Instr.wellFormed .cfgA (.setPixel 0 (-1)) = false := by decide

theorem test_wellFormed_clearPixel :
    Instr.wellFormed .cfgA (.clearPixel 256 0) = false
      ∧ Instr.wellFormed .cfgA (.clearPixel (-1) 0) = false
      ∧ Instr.wellFormed .cfgA (.clearPixel 0 256) = false
      ∧ Instr.wellFormed .cfgA (.clearPixel 0 (-1)) = false := by decide

theorem test_wellFormed_getPixel :
    Instr.wellFormed .cfgA (.getPixel 256 0) = false
      ∧ Instr.wellFormed .cfgA (.getPixel (-1) 0) = false
      ∧ Instr.wellFormed .cfgA (.getPixel 0 256) = false
      ∧ Instr.wellFormed .cfgA (.getPixel 0 (-1)) = false := by decide

theorem test_wellFormed_setPixelCh :
    Instr.wellFormed .cfgA (.setPixelCh 256 0 0) = false
      ∧ Instr.wellFormed .cfgA (.setPixelCh 0 256 0) = false
      ∧ Instr.wellFormed .cfgA (.setPixelCh 0 0 256) = false
      ∧ Instr.wellFormed .cfgA (.setPixelCh 0 0 (-1)) = false := by decide

theorem test_wellFormed_clearPixelCh :
    Instr.wellFormed .cfgA (.clearPixelCh 256 0 0) = false
      ∧ Instr.wellFormed .cfgA (.clearPixelCh 0 256 0) = false
      ∧ Instr.wellFormed .cfgA (.clearPixelCh 0 0 256) = false
      ∧ Instr.wellFormed .cfgA (.clearPixelCh 0 0 (-1)) = false := by decide

theorem test_wellFormed_getPixelCh :
    Instr.wellFormed .cfgA (.getPixelCh 256 0 0) = false
      ∧ Instr.wellFormed .cfgA (.getPixelCh 0 256 0) = false
      ∧ Instr.wellFormed .cfgA (.getPixelCh 0 0 256) = false
      ∧ Instr.wellFormed .cfgA (.getPixelCh 0 0 (-1)) = false := by decide

theorem test_wellFormed_setBrightness :
    Instr.wellFormed .cfgA (.setBrightness 256 0) = false
      ∧ Instr.wellFormed .cfgA (.setBrightness (-1) 0) = false
      ∧ Instr.wellFormed .cfgA (.setBrightness 0 256) = false := by decide

theorem test_wellFormed_setBrightnessCurrent :
    Instr.wellFormed .cfgA (.setBrightnessCurrent 256) = false
      ∧ Instr.wellFormed .cfgA (.setBrightnessCurrent (-1)) = false := by decide

theorem test_wellFormed_setBrightnessCurrent_sentinel :
    Instr.wellFormed { Config.cfgA with currentBoardSentinel := 256 } (.setBrightnessCurrent 0) = false := by decide

theorem test_wellFormed_frames :
    Instr.wellFormed .cfgA (.commandFrame []) = false ∧ Instr.wellFormed .cfgA (.ramWriteFrame [0x8#4]) = false
      ∧ Instr.wellFormed .cfgA (.commandFrame [0x01#8]) = true
      ∧ Instr.wellFormed .cfgA (.ramWriteFrame (List.replicate 64 0)) = true := by decide

theorem test_wellFormed_boundary :
    Instr.wellFormed .cfgA (.setPixelCh 255 0 255) = true ∧ Instr.wellFormed .cfgA (.setBrightness 255 255) = true := by
  decide

theorem test_config_named : Config.cfgA.wf = true ∧ Config.cfgB.wf = true ∧ cfgNarrow.wf = true ∧ cfgGroup.wf = true
    ∧ cfgPolicies.wf = true := by decide

/-- One ill-formed configuration for each constraint of rules R7 and R258. -/
theorem test_config_constraints :
    ({ Config.cfgA with numChannel := 0 } : Config).wf = false
      ∧ ({ Config.cfgA with outSize := 0 } : Config).wf = false
      ∧ ({ Config.cfgA with comSize := 0 } : Config).wf = false
      ∧ ({ Config.cfgA with pixelsPerByte := 0 } : Config).wf = false
      ∧ ({ Config.cfgA with pixelsPerByte := 9, comSize := 9 } : Config).wf = false
      ∧ ({ Config.cfgA with comSize := 9 } : Config).wf = false
      ∧ ({ Config.cfgA with maxBoards := 0, csPin := [], initSelectMask := 0 } : Config).wf = false
      ∧ ({ Config.cfgA with maxBoards := 8, csPin := [0, 1, 2, 3, 7, 8, 9, 10], currentBoardSentinel := 255 } : Config).wf
          = false
      ∧ ({ Config.cfgA with currentBoardSentinel := 0x0F } : Config).wf = false
      ∧ ({ Config.cfgA with currentBoardSentinel := 256 } : Config).wf = false
      ∧ ({ Config.cfgA with commonModeCmd := 0x21 } : Config).wf = false
      ∧ ({ Config.cfgA with initSelectMask := 0x10 } : Config).wf = false
      ∧ ({ Config.cfgA with tSettle := 0 } : Config).wf = false
      ∧ ({ Config.cfgA with csPin := [0, 1, 2] } : Config).wf = false
      ∧ ({ Config.cfgA with csPin := [0, 1, 2, 0] } : Config).wf = false
      ∧ ({ Config.cfgA with clkPin := 5 } : Config).wf = false := by decide

/-! ### Decoding: a word written out for every row -/

theorem test_decode_init : decode (.request 0x10200000#32) = .ok (.init 2) := by decide

theorem test_decode_selectWriteChannel : decode (.request 0x20100000#32) = .ok (.selectWriteChannel 1) := by decide

theorem test_decode_selectRenderTarget : decode (.request 0x30500000#32) = .ok (.selectRenderTarget 5) := by decide

theorem test_decode_setPixel : decode (.request 0x4170F000#32) = .ok (.setPixel 23 15) := by decide

theorem test_decode_clearPixel : decode (.request 0x50007000#32) = .ok (.clearPixel 0 7) := by decide

theorem test_decode_getPixel : decode (.request 0x62000000#32) = .ok (.getPixel 32 0) := by decide

theorem test_decode_setPixelCh : decode (.request 0x70008010#32) = .ok (.setPixelCh 0 8 1) := by decide

theorem test_decode_clearPixelCh : decode (.request 0x8170F000#32) = .ok (.clearPixelCh 23 15 0) := by decide

theorem test_decode_getPixelCh : decode (.request 0x9170F010#32) = .ok (.getPixelCh 23 15 1) := by decide

theorem test_decode_fill : decode (.request 0xA0000000#32) = .ok (.fill) := by decide

theorem test_decode_fillAll : decode (.request 0xB0000000#32) = .ok (.fillAll) := by decide

theorem test_decode_clear : decode (.request 0xC0000000#32) = .ok (.clear) := by decide

theorem test_decode_render : decode (.request 0xD0000000#32) = .ok (.render) := by decide

theorem test_decode_setBrightness : decode (.request 0xEFF01000#32) = .ok (.setBrightness 255 1) := by decide

/-- The pseudo-request has the words of its expansion (rule R76): level 16, mask 0x10. -/
theorem test_decode_setBrightnessCurrent :
    decode (.request 0xE1010000#32) = .ok (.setBrightness 16 0x10)
      ∧ encode .cfgA (.setBrightnessCurrent 16) = .request 0xE1010000#32 := by decide

theorem test_decode_reservedOp0 : decode (.request 0x00000001#32) = .ok (.reservedOp0 1) := by decide

theorem test_decode_reservedOpF : decode (.request 0xF0000000#32) = .ok (.reservedOpF 0) := by decide

theorem test_decode_idCmd : decode (.id 0b100#3) = .ok (.idCmd) := by decide

theorem test_decode_idWr : decode (.id 0b101#3) = .ok (.idWr) := by decide

theorem test_decode_idRd : decode (.id 0b110#3) = .ok (.idRd) := by decide

theorem test_decode_sysDis : decode (.command 0b000000000#9) = .ok (.sysDis) := by decide

theorem test_decode_sysEn : decode (.command 0b000000010#9) = .ok (.sysEn) := by decide

theorem test_decode_ledOff : decode (.command 0b000000100#9) = .ok (.ledOff) := by decide

theorem test_decode_ledOn : decode (.command 0b000000110#9) = .ok (.ledOn) := by decide

theorem test_decode_blinkOff : decode (.command 0b000010000#9) = .ok (.blinkOff) := by decide

theorem test_decode_blinkOn : decode (.command 0b000010010#9) = .ok (.blinkOn) := by decide

theorem test_decode_slaveMode : decode (.command 0b000100000#9) = .ok (.slaveMode) := by decide

theorem test_decode_masterMode : decode (.command 0b000101000#9) = .ok (.masterMode) := by decide

theorem test_decode_intClk : decode (.command 0b000110000#9) = .ok (.intClk) := by decide

theorem test_decode_extClk : decode (.command 0b000111000#9) = .ok (.extClk) := by decide

theorem test_decode_com20 : decode (.command 0b001000000#9) = .ok (.com20) := by decide

theorem test_decode_com24 : decode (.command 0b001001000#9) = .ok (.com24) := by decide

theorem test_decode_com28 : decode (.command 0b001010000#9) = .ok (.com28) := by decide

theorem test_decode_com2C : decode (.command 0b001011000#9) = .ok (.com2C) := by decide

theorem test_decode_pwm : decode (.command 0b101001110#9) = .ok (.pwm 7) := by decide

/-- `100`, then SYS_EN and PWM(16), each with its padding 0. -/
theorem test_decode_commandFrame :
    decode (.frame [true, false, false,
      false, false, false, false, false, false, false, true, false,
      true, false, true, false, true, true, true, true, false]) = .ok (.commandFrame [0x01, 0xAF]) := by decide

/-- `101`, address 0, then the words 0x8 and 0x1. -/
theorem test_decode_ramWriteFrame :
    decode (.frame [true, false, true, false, false, false, false, false, false, false,
      true, false, false, false, false, false, false, true]) = .ok (.ramWriteFrame [0x8, 0x1]) := by decide

/-- The illegal words of section 2.10 but for the two reserved OPs. -/
theorem test_decode_rejects_words :
    decode (.request 0x40000001#32) = .error (.reservedEncoding 0x40000001)
      ∧ decode (.request 0x40000010#32) = .error (.reservedEncoding 0x40000010)
      ∧ decode (.request 0x10101000#32) = .error (.reservedEncoding 0x10101000)
      ∧ decode (.request 0xD0100000#32) = .error (.reservedEncoding 0xD0100000) := by decide

theorem test_decode_rejects_protocol :
    decode (.id 0b000#3) = .error (.unnamedId 0b000) ∧ decode (.id 0b111#3) = .error (.unnamedId 0b111)
      ∧ decode (.command 0b000001000#9) = .error (.unlistedCommand 0x04)
      ∧ decode (.command 0b101100000#9) = .error (.unlistedCommand 0xB0)
      ∧ decode (.command 0b000000001#9) = .error (.badPadding 0b000000001)
      ∧ decode (.frame [true, false, false]) = .error .badFrame
      ∧ decode (.frame [true, true, false]) = .error .badFrame
      ∧ decode (.frame [true, false, true, false, false, false, false, false, false, true]) = .error .badFrame := by
  decide

theorem test_decodeTableWord :
    decodeTableWord 32 0x4170F000 = some (.setPixel 23 15) ∧ decodeTableWord 32 0x40000010 = none
      ∧ decodeTableWord 8 0x4 = some .idCmd ∧ decodeTableWord 8 0x5 = some .idWr ∧ decodeTableWord 8 0x6 = some .idRd
      ∧ decodeTableWord 8 0x03 = some .ledOn ∧ decodeTableWord 16 0x2C = some .com2C
      ∧ decodeTableWord 16 0xA7 = some (.pwm 7) ∧ decodeTableWord 8 0x07 = none := by decide

/-- The examples of rule R75. -/
theorem test_assembly :
    assembly (.init 2) = some "INIT 2" ∧ assembly (.setPixel 3 5) = some "SET_PIXEL 3, 5"
      ∧ assembly (.getPixelCh 3 5 1) = some "GET_PIXEL_CH 3, 5, 1" ∧ assembly .render = some "RENDER"
      ∧ assembly .idCmd = none := by decide +kernel

/-! ### The address decoder (section 2.1) -/

theorem test_decodePixel_cfgA :
    decodePixel .cfgA 5 3 = some (5, 0x10) ∧ decodePixel .cfgA 31 7 = some (31, 0x01)
      ∧ decodePixel .cfgA 32 0 = none ∧ decodePixel .cfgA 0 8 = none ∧ decodePixel .cfgA (-1) 0 = none
      ∧ decodePixel .cfgA 0 (-1) = none := by decide

theorem test_decodePixel_cfgB :
    decodePixel .cfgB 10 9 = some (21, 0x40) ∧ decodePixel cfgGroup 10 9 = some (34, 0x40)
      ∧ decodePixel .cfgB 0 15 = some (1, 0x01) ∧ decodePixel cfgGroup 0 15 = some (24, 0x01)
      ∧ decodePixel .cfgB 24 0 = none ∧ decodePixel cfgNarrow 7 7 = some (15, 0x01)
      ∧ decodePixel cfgNarrow 0 4 = some (1, 0x08) := by decide

/-! ### One step of each instruction -/

/-- Section 2.9: INIT 1 in CFG-A appends 1580 events and leaves DATA and WR low, CS[0] high. -/
theorem test_init_one_board :
    ((after (exec (.init 1) State.reset)).map fun t =>
      (t.trace.length, t.phase, t.boardCount, t.responses, t.lines.cs)) =
      some (1580, .ready, 1, [.ack], [⟨.hi, true⟩, ⟨.z, false⟩, ⟨.z, false⟩, ⟨.z, false⟩]) := by decide +kernel

/-- Section 2.9: INIT 2 with a failed allocation. -/
theorem test_init_alloc_fails :
    ((after (exec (.init 2) (State.powerOn .cfgA false))).map fun t =>
      (t.trace, t.phase, t.busy, t.memExists, t.responses)) =
      some ([.cfg (.cs 0), .cfg (.cs 1), .cfg .wr, .w .wr false, .cfg .data, .w .data false, .w (.cs 0) true,
        .w (.cs 1) true], .fatal, true, false, []) := by decide +kernel

/-- Section 2.4. -/
theorem test_selectWriteChannel_policies :
    ((after (exec (.selectWriteChannel 2) { readyState .cfgB 1 with writeChannel := 1 })).map fun t =>
        (t.writeChannel, t.outcome)) = some (1, some ⟨.instr (.selectWriteChannel 2), .ignoredInvalidIndex⟩)
      ∧ ((after (exec (.selectWriteChannel 2) { readyState cfgPolicies 1 with writeChannel := 1 })).map fun t =>
        (t.writeChannel, t.outcome)) = some (2, some ⟨.instr (.selectWriteChannel 2), .ok⟩) := by decide

/-- Section 2.4. -/
theorem test_selectRenderTarget_policies :
    ((after (exec (.selectRenderTarget 5) (readyState .cfgA 2))).map fun t => (t.renderTarget, t.outcome)) =
        some (5, some ⟨.instr (.selectRenderTarget 5), .ok⟩)
      ∧ ((after (exec (.selectRenderTarget 2) { readyState cfgPolicies 2 with renderTarget := 1 })).map fun t =>
        (t.renderTarget, t.outcome)) = some (1, some ⟨.instr (.selectRenderTarget 2), .ignoredInvalidIndex⟩) := by
  decide

/-- Section 2.2: mem[0][0] = 0x80, and mem[1][47] = 0x01 on the write channel. -/
theorem test_setPixel :
    ((after (exec (.setPixel 0 0) (readyState .cfgA 1))).map fun t => (t.mem, t.responses)) =
        some ([(0, 0x80)], [.ack])
      ∧ ((after (exec (.setPixel 23 15) { readyState .cfgB 1 with writeChannel := 1 })).map fun t =>
        (t.mem, t.writeChannel)) = some ([(48 + 47, 0x01)], 1) := by decide

/-- Section 2.2: an abstract operand that no word carries. -/
theorem test_setPixel_negative :
    ((after (exec (.setPixel (-1) 0) (readyState .cfgA 1))).map fun t => (t.mem, t.outcome)) =
      some ([], some ⟨.instr (.setPixel (-1) 0), .ignoredOutOfRange⟩) := by decide

/-- Section 2.2: mem[0][0] goes from 0xFF to 0xFE; a byte that becomes 0 is no longer listed. -/
theorem test_clearPixel :
    ((after (exec (.clearPixel 0 7) { readyState .cfgA 1 with mem := [(0, 0xFF)] })).map fun t => t.mem) =
        some [(0, 0xFE)]
      ∧ ((after (exec (.clearPixel 0 7) { readyState .cfgA 1 with mem := [(0, 0x01)] })).map fun t => t.mem) =
        some [] := by decide

/-- Section 2.2. -/
theorem test_getPixel :
    ((after (exec (.getPixel 0 0) { readyState .cfgA 1 with mem := [(0, 0x80)] })).map fun t => t.responses) =
        some [.bit true]
      ∧ ((after (exec (.getPixel 0 1) { readyState .cfgA 1 with mem := [(0, 0x80)] })).map fun t => t.responses) =
        some [.bit false] := by decide

/-- Section 2.2: mem[1][1] = 0x80, channel 0 unchanged. -/
theorem test_setPixelCh :
    ((after (exec (.setPixelCh 0 8 1) (readyState .cfgB 1))).map fun t => t.mem) = some [(48 + 1, 0x80)] := by decide

/-- Section 2.2: mem[0][47] = 0xFE, mem[1][47] = 0xFF. -/
theorem test_clearPixelCh :
    ((after (exec (.clearPixelCh 23 15 0) { readyState .cfgB 1 with mem := [(47, 0xFF), (95, 0xFF)] })).map
      fun t => t.mem) = some [(47, 0xFE), (95, 0xFF)] := by decide

/-- Section 2.2: channel 2 does not exist in CFG-B. -/
theorem test_getPixelCh :
    ((after (exec (.getPixelCh 23 15 1) { readyState .cfgB 1 with mem := [(95, 0x01)] })).map fun t => t.responses) =
        some [.bit true]
      ∧ ((after (exec (.getPixelCh 0 0 2) { readyState .cfgB 1 with mem := [(0, 0xFF)] })).map fun t =>
        (t.responses, t.outcome)) =
        some ([.bit false], some ⟨.instr (.getPixelCh 0 0 2), .ignoredOutOfRange⟩) := by decide

/-- Section 2.3: the write channel only; every bit of a byte, whatever PIXELS_PER_BYTE. -/
theorem test_fill :
    ((after (exec .fill { readyState .cfgB 1 with writeChannel := 1 })).map fun t => t.mem) =
        some ((List.range 48).map fun o => (48 + o, 0xFF))
      ∧ ((after (exec .fill (readyState cfgNarrow 1))).map fun t => t.mem) =
        some ((List.range 16).map fun o => (o, 0xFF)) := by decide +kernel

/-- Section 2.3: writeChannel 5 under STORE_ANY. -/
theorem test_fill_invalid_channel :
    ((after (exec .fill { readyState cfgPolicies 1 with writeChannel := 5 })).map fun t => (t.mem, t.outcome)) =
      some ([], some ⟨.instr .fill, .ignoredOutOfRange⟩) := by decide

/-- Section 2.3. -/
theorem test_fillAll :
    ((after (exec .fillAll (readyState .cfgB 1))).map fun t => t.mem) =
      some ((List.range 96).map fun a => (a, 0xFF)) := by decide +kernel

/-- Section 2.3: both channels. -/
theorem test_clear :
    ((after (exec .clear { readyState .cfgB 1 with mem := [(3, 0xFF), (95, 0x01)] })).map fun t => t.mem) =
      some [] := by decide +kernel

/-- Section 1, §8 (7): 1334 events, board 0 selected, the set bit in bit cycle 10. -/
theorem test_render_scenario :
    ((after (exec .render { readyState .cfgA 2 with mem := [(0, 0x80)] })).map fun t =>
      (t.trace.length, selectBits t.trace)) = some (1334, [(0, false), (1, true), (0, true), (1, true)])
    ∧ ((after (exec .render { readyState .cfgA 2 with mem := [(0, 0x80)] })).map fun t => (dataBits t.trace).take 18) =
      some [true, false, true, false, false, false, false, false, false, false,
        true, false, false, false, false, false, false, false] := by decide +kernel

/-- Section 2.7: no target, no events. -/
theorem test_render_no_target :
    ((after (exec .render { readyState .cfgA 1 with renderTarget := 1 })).map fun t => (t.trace, t.outcome)) =
      some ([], some ⟨.instr .render, .ignoredNoTarget⟩) := by decide

/-- Section 2.8: `100 10100111 0` to boards 0 and 2, 66 events. -/
theorem test_setBrightness_mask :
    ((after (exec (.setBrightness 8 0b101) (readyState .cfgA 3))).map fun t =>
      (t.trace.length, selectBits t.trace, dataBits t.trace)) =
      some (66, [(0, false), (1, true), (2, false), (0, true), (1, true), (2, true)],
        [true, false, false, true, false, true, false, false, true, true, true, false]) := by decide

/-- Section 2.8: the mask 0x13 is no sentinel; a level outside 1 to 16 is not clamped. -/
theorem test_setBrightness_unclamped :
    ((after (exec (.setBrightness 0 0x13) (readyState .cfgA 3))).map fun t =>
      ((selectBits t.trace).take 3, dataBits t.trace)) =
      some ([(0, false), (1, false), (2, true)],
        [true, false, false, true, true, true, true, true, true, true, true, false]) := by decide

/-- Section 2.8: the current board is board 2; with no valid target nothing is sent. -/
theorem test_setBrightnessCurrent :
    ((after (exec (.setBrightnessCurrent 1) { readyState .cfgA 3 with renderTarget := 2 })).map fun t =>
      ((selectBits t.trace).take 3, dataBits t.trace)) =
        some ([(0, true), (1, true), (2, false)],
          [true, false, false, true, false, true, false, false, false, false, false, false])
      ∧ ((after (exec (.setBrightnessCurrent 16) { readyState .cfgA 3 with renderTarget := 5 })).map fun t =>
        (t.trace, t.outcome)) = some ([], some ⟨.instr (.setBrightness 16 0x10), .ignoredNoTarget⟩) := by decide

/-- Section 2.10: a refusal leaves the mark and nothing else. -/
theorem test_reservedOps :
    after (exec (.reservedOp0 0) State.reset) =
        some { State.reset with refusedMark := true, outcome := some ⟨.word 0x00000000, .refusedReservedEncoding⟩ }
      ∧ after (exec (.reservedOpF 0) (readyState .cfgA 1)) =
        some { readyState .cfgA 1 with
          refusedMark := true, outcome := some ⟨.word 0xF0000000, .refusedReservedEncoding⟩ } := by decide

/-- Section 2.6: one bit cycle after another, with no padding. -/
theorem test_idCmd :
    ((after (exec .idCmd (readyState .cfgA 1))).map fun t => (t.trace, t.lines.data)) =
      some ([.w .data true, .settle, .w .wr true, .w .wr false, .settle,
        .w .data false, .settle, .w .wr true, .w .wr false, .settle,
        .w .data false, .settle, .w .wr true, .w .wr false, .settle], ⟨.lo, true⟩) := by decide

/-- Section 2.6: 15 events; DATA keeps the last bit. -/
theorem test_idWr :
    ((after (exec .idWr (readyState .cfgA 1))).map fun t => (dataBits t.trace, t.trace.length, t.lines.data)) =
      some ([true, false, true], 15, ⟨.hi, true⟩) := by decide

/-- Rules R79 and R82: the code, most significant bit first, then the padding 0. -/
theorem test_commands_sent :
    ((after (exec .sysDis (readyState .cfgA 1))).map fun t => dataBits t.trace) =
        some [false, false, false, false, false, false, false, false, false]
      ∧ ((after (exec .sysEn (readyState .cfgA 1))).map fun t => dataBits t.trace) =
        some [false, false, false, false, false, false, false, true, false]
      ∧ ((after (exec .ledOn (readyState .cfgA 1))).map fun t => dataBits t.trace) =
        some [false, false, false, false, false, false, true, true, false]
      ∧ ((after (exec .com20 (readyState .cfgA 1))).map fun t => dataBits t.trace) =
        some [false, false, true, false, false, false, false, false, false]
      ∧ ((after (exec .com24 (readyState .cfgA 1))).map fun t => dataBits t.trace) =
        some [false, false, true, false, false, true, false, false, false]
      ∧ ((after (exec .com28 (readyState .cfgA 1))).map fun t => dataBits t.trace) =
        some [false, false, true, false, true, false, false, false, false]
      ∧ ((after (exec .com2C (readyState .cfgA 1))).map fun t => dataBits t.trace) =
        some [false, false, true, false, true, true, false, false, false] := by decide

/-- Section 2.6: `writeCommand(0xAF)`, 45 events. -/
theorem test_pwm :
    ((after (exec (.pwm 15) (readyState .cfgA 1))).map fun t => (dataBits t.trace, t.trace.length)) =
      some ([true, false, true, false, true, true, true, true, false], 45) := by decide

/-- Rule R84. -/
theorem test_never_sent :
    refusalOf (exec .idRd (readyState .cfgA 1)) = some (.neverSentId 0b110)
      ∧ refusalOf (exec .ledOff (readyState .cfgA 1)) = some (.neverSentCommand 0x02)
      ∧ refusalOf (exec .blinkOff (readyState .cfgA 1)) = some (.neverSentCommand 0x08)
      ∧ refusalOf (exec .blinkOn (readyState .cfgA 1)) = some (.neverSentCommand 0x09)
      ∧ refusalOf (exec .slaveMode (readyState .cfgA 1)) = some (.neverSentCommand 0x10)
      ∧ refusalOf (exec .masterMode (readyState .cfgA 1)) = some (.neverSentCommand 0x14)
      ∧ refusalOf (exec .intClk (readyState .cfgA 1)) = some (.neverSentCommand 0x18)
      ∧ refusalOf (exec .extClk (readyState .cfgA 1)) = some (.neverSentCommand 0x1C) := by decide

/-- Rule R81: 3 + 9k bit cycles; an empty frame has no meaning. -/
theorem test_commandFrame :
    ((after (exec (.commandFrame [0x00, 0xAF]) (readyState .cfgA 1))).map fun t => dataBits t.trace) =
        some [true, false, false, false, false, false, false, false, false, false, false, false,
          true, false, true, false, true, true, true, true, false]
      ∧ refusalOf (exec (.commandFrame []) (readyState .cfgA 1)) = some .emptyCommandFrame := by decide

/-- Rule R81: 10 + 4m bit cycles. -/
theorem test_ramWriteFrame :
    ((after (exec (.ramWriteFrame [0x8, 0x1]) (readyState .cfgA 1))).map fun t => dataBits t.trace) =
      some [true, false, true, false, false, false, false, false, false, false,
        true, false, false, false, false, false, false, true] := by decide

/-! ### The step, chip select and the transmitter -/

/-- Section 2.10: RENDER before INIT. -/
theorem test_step_before_init :
    ((after (step (State.reset.withFetchWord 32 0xD0000000))).map fun t => (t.port, t.outcome, t.refusedMark)) =
      some ([], some ⟨.instr .render, .refusedNotInitialized⟩, true) := by decide

theorem test_step_protocol_word :
    ((after (step ((readyState .cfgA 1).withFetchWord 8 0xA7))).map fun t => (dataBits t.trace, t.seqpos)) =
      some ([true, false, true, false, false, true, true, true, false], []) := by decide

/-- Rule R228: a stuck block; rule R258: a repeated pin. -/
theorem test_step_stops :
    faultOf (step ((fatalState .cfgA).withFetchWord 32 0xD0000000)) = some .fatalStuck
      ∧ refusalOf (step (State.powerOn { Config.cfgA with clkPin := 5 } true)) = some .invalidConfiguration := by
  decide

/-- Section 2.5, with boardCount 3: `select(0x13)` and `select(0b1111)`. -/
theorem test_select :
    ((after (select 0x13 (readyState .cfgA 3))).map fun t => (t.trace, t.lines.cs)) =
        some ([.w (.cs 0) false, .w (.cs 1) false, .w (.cs 2) true],
          [⟨.lo, true⟩, ⟨.lo, true⟩, ⟨.hi, true⟩, ⟨.z, false⟩])
      ∧ ((after (select 0b1111 (readyState .cfgA 3))).map fun t => t.lines.get (.cs 3)) =
        some ⟨.z, false⟩ := by decide

/-- Section 2.6: leading zeros are sent, higher bits are not; with WR high the send faults. -/
theorem test_writeBits :
    ((after (writeBits 1 4 (readyState .cfgA 1))).map fun t => dataBits t.trace) = some [false, false, false, true]
      ∧ ((after (writeBits 0x1F 4 (readyState .cfgA 1))).map fun t => dataBits t.trace) = some [true, true, true, true]
      ∧ faultOf (writeBits 1 4 { readyState .cfgA 1 with
          lines := { (readyState .cfgA 1).lines with wr := .driven true } }) = some .strobeHigh := by decide

/-- Rule R6: a write of the level a line already has is an event but no transition. -/
theorem test_transitions :
    transitions (bitCycle false) (readyState .cfgA 1).lines = [.w .wr true, .w .wr false]
      ∧ transitions (bitCycle true) (readyState .cfgA 1).lines = [.w .data true, .w .wr true, .w .wr false] := by
  decide

/-- Section 2.8. -/
theorem test_pwmOfLevel :
    ChipCommand.pwmOfLevel 8 = 0xA7 ∧ ChipCommand.pwmOfLevel 16 = 0xAF ∧ ChipCommand.pwmOfLevel 0 = 0xFF
      ∧ ChipCommand.pwmOfLevel 17 = 0xB0 ∧ ChipCommand.pwmOfLevel 33 = 0xA0 ∧ ChipCommand.pwmOfLevel 255 = 0xFE
      ∧ ChipCommand.pwmOfLevel 256 = 0xFF ∧ ChipCommand.pwmOfLevel (-1) = 0xFE := by decide

/-- The code column of rule R221, and the outcomes that the model's faults stand for. -/
theorem test_outcomeCodes :
    outcomeCode .ok = 0 ∧ outcomeCode .fatalAlloc = 4 ∧ outcomeCode .refusedReservedEncoding = 5
      ∧ (faultOutcome .strobeHigh).map outcomeCode = some 9
      ∧ (faultOutcome .unconfiguredLine).map outcomeCode = some 10
      ∧ (faultOutcome .badAddress).map outcomeCode = some 11 ∧ faultOutcome .fatalStuck = none := by decide

/-- Writing 0x00 takes the byte out of the list, so that equal memories are equal data. -/
theorem test_memory_canonical :
    Memory.set [(3, 0x80), (7, 0x01)] 5 0x10 = [(3, 0x80), (5, 0x10), (7, 0x01)]
      ∧ Memory.set [(3, 0x80), (7, 0x01)] 3 0x00 = [(7, 0x01)] ∧ Memory.get [(3, 0x80)] 4 = 0x00
      ∧ Memory.wf [(3, 0x80), (7, 0x00)] = false ∧ Memory.wf [(7, 0x80), (3, 0x01)] = false := by decide

/-! ### Witnesses: the hypotheses of each statement are met -/

/-- The states of the invariant: power-on, READY, and FATAL. -/
theorem witness_inv : State.reset.Inv ∧ (readyState .cfgA 2).Inv ∧ (fatalState .cfgA).Inv := by
  refine ⟨?_, ?_, ?_⟩
  · exact ⟨by decide, by decide, by decide, by decide, by decide, fun h => absurd rfl h, by decide, by decide⟩
  · exact ⟨by decide, by decide, by decide, by decide, by decide,
      fun _ => ⟨by decide, by decide, rfl, rfl, ⟨false, rfl⟩, rfl⟩, by decide, by decide⟩
  · exact ⟨by decide, by decide, by decide, by decide, by decide,
      fun _ => ⟨by decide, by decide, rfl, rfl, ⟨false, rfl⟩, rfl⟩, by decide, by decide⟩

/-- Lines at rest, which RENDER and SET_BRIGHTNESS start from, with every board and with one. -/
theorem witness_atRest :
    (readyState .cfgA 4).lines.atRest 4 4 ∧ (readyState .cfgB 1).lines.atRest 1 4 :=
  ⟨⟨rfl, rfl, ⟨false, rfl⟩, rfl⟩, ⟨rfl, rfl, ⟨false, rfl⟩, rfl⟩⟩

theorem witness_DecodeOfEncodeIsTheInstruction :
    Instr.wellFormed .cfgB (.setPixelCh 255 0 255) = true ∧ Instr.wellFormed .cfgB (.commandFrame [0xFF]) = true
      ∧ Instr.wellFormed .cfgB (.ramWriteFrame (List.replicate 192 0xF)) = true
      ∧ Instr.wellFormed .cfgB (.setBrightnessCurrent 255) = true := by decide +kernel

theorem witness_EncodeOfDecodedWordIsTheWord :
    decode (.request 0x9FFFFFF0#32) = .ok (.getPixelCh 255 255 255)
      ∧ decode (.request 0x0FFFFFFF#32) = .ok (.reservedOp0 0xFFFFFFF) := by decide

/-- Stuck; inside a sequence; an illegal word; each refusal of a legal one, INIT 0 and INIT 5 beside the bounds 1 and 4; a
word that runs. -/
theorem witness_AcceptanceChecksInOrder :
    faultOf (step { fatalState .cfgA with port := [0xD0000000] }) = some .fatalStuck
      ∧ ((after (step { readyState .cfgA 1 with port := [0xD0000000], busy := true, seqpos := [.target 0] })).map
          fun t => t.port) = some [0xD0000000]
      ∧ Claims.illegalWord 0x40000010 ∧ Claims.illegalWord 0xF0000000 ∧ ¬ Claims.illegalWord 0xEFFFF000
      ∧ ((after (step { State.reset with port := [0x10000000] })).map fun t => t.outcome) =
          some (some ⟨.instr (.init 0), .refusedBadBoardCount⟩)
      ∧ ((after (step { State.reset with port := [0x10500000] })).map fun t => t.outcome) =
          some (some ⟨.instr (.init 5), .refusedBadBoardCount⟩)
      ∧ ((after (step { readyState .cfgA 1 with port := [0x10000000] })).map fun t => t.outcome) =
          some (some ⟨.instr (.init 0), .refusedReinit⟩)
      ∧ ((after (step { State.reset with port := [0xA0000000] })).map fun t => t.outcome) =
          some (some ⟨.instr .fill, .refusedNotInitialized⟩) := by
  refine ⟨by decide, by decide, ?_, ?_, ?_, by decide, by decide, by decide, by decide⟩ <;>
    unfold Claims.illegalWord <;> decide

theorem witness_StepRunsTheDecodedRequest :
    State.reset.cfg.wf = true ∧ State.reset.phase ≠ .fatal ∧ State.reset.busy = false
      ∧ (State.reset.withFetchWord 32 0x10400000).port = [0x10400000]
      ∧ decode (.request 0x10400000) = .ok (.init 4) := by decide

theorem witness_StepRunsTheSequencersWord :
    ((readyState .cfgA 1).withFetchWord 8 0x5).busy = true
      ∧ ((readyState .cfgA 1).withFetchWord 8 0x5).seqpos = [.id 0b101]
      ∧ ((readyState .cfgA 1).withFetchWord 8 0xAF).seqpos = [.command 0xAF]
      ∧ decode (.command (0xAF#8 ++ 0#1)) = .ok (.pwm 15) := by decide

theorem witness_StepWaitsForARequest :
    State.reset.cfg.wf = true ∧ State.reset.phase ≠ .fatal ∧ State.reset.busy = false ∧ State.reset.port = [] := by
  decide

theorem witness_FatalBlockHasNoStep : (fatalState .cfgA).cfg.wf = true ∧ (fatalState .cfgA).phase = .fatal := by
  decide

theorem witness_RepeatedPinIsRefused : ¬ (State.powerOn { Config.cfgA with clkPin := 5 } true).cfg.pins.Nodup := by
  decide

theorem witness_PowerOnMeetsTheBoundaryConditions : Config.cfgA.wf = true ∧ Config.cfgB.wf = true := by decide

/-- A step from each phase that has one; the block is idle and its next request is a RENDER. -/
theorem witness_StepKeepsTheBoundaryConditions :
    (readyState .cfgA 2).Inv
      ∧ (after (step ((readyState .cfgA 2).withFetchWord 32 0x30100000))).isSome = true
      ∧ (after (step State.reset)).isSome = true := ⟨witness_inv.2.1, by decide, by decide⟩

theorem witness_NoFaultIsReached : (readyState .cfgA 2).Inv ∧ (readyState .cfgA 2).phase ≠ .fatal :=
  ⟨witness_inv.2.1, by decide⟩

theorem witness_ConfigurationNeverChanges :
    (after (step ((readyState .cfgB 2).withFetchWord 32 0x4170F000))).isSome = true := by decide

/-- INIT 1 moves the phase, to READY or to FATAL by the draw. -/
theorem witness_OnlyInitMovesThePhase :
    ((after (step (State.reset.withFetchWord 32 0x10100000))).map fun t => t.phase) = some .ready
      ∧ ((after (step ((State.powerOn .cfgA false).withFetchWord 32 0x10400000))).map fun t => t.phase) =
        some .fatal := by decide +kernel

theorem witness_GhostRecordsOnlyGrow :
    ((after (step ({ readyState .cfgA 3 with refusedMark := true }.withFetchWord 32 0xE0805000))).map fun t =>
      (t.refusedMark, t.trace.length)) = some (true, 66) := by decide

theorem witness_StrobeIsPulsedInEveryStep :
    ((after (step ((readyState .cfgA 3).withFetchWord 32 0xE0805000))).map fun t => Claims.pulsed t.trace) = some true
      ∧ Claims.pulsed [.w .wr true, .w .data true, .w .wr false] = false := by decide

theorem witness_ClockLineIsNeverTouched :
    ((readyState .cfgA 3).withFetchWord 32 0xE0805000).busy = false
      ∧ (after (step ((readyState .cfgA 3).withFetchWord 32 0xE0805000))).isSome = true := by decide

/-- Each of the three requests that run a sequence has one, INIT for both draws. -/
theorem witness_AtomicStepIsTheItemByItemRun :
    (readyState .cfgA 2).seqpos = [] ∧ State.reset.seqpos = []
      ∧ ((requestSequence .render (readyState .cfgA 2)).map List.length) = some 69
      ∧ ((requestSequence (.setBrightness 8 5) (readyState .cfgA 3)).map List.length) = some 5
      ∧ ((requestSequence (.setBrightnessCurrent 8) (readyState .cfgA 3)).map List.length) = some 5
      ∧ (requestSequence (.init 4) State.reset).isSome = true
      ∧ ((requestSequence (.init 1) (State.powerOn .cfgA false)).map List.length) = some 6 := by decide +kernel

theorem witness_BufferRequestsTouchNoLine :
    (after (exec (.getPixel 0 0) (readyState .cfgA 1))).isSome = true
      ∧ (after (exec .clear (readyState .cfgA 1))).isSome = true
      ∧ (after (exec (.selectWriteChannel 7) (readyState .cfgA 1))).isSome = true := by decide +kernel

theorem witness_AddressDecoderFormulas :
    (0 ≤ (23 : Int) ∧ (23 : Int) < Config.cfgB.outSize ∧ 0 ≤ (15 : Int) ∧ (15 : Int) < Config.cfgB.comSize)
      ∧ ¬ (0 ≤ (24 : Int) ∧ (24 : Int) < Config.cfgB.outSize ∧ 0 ≤ (15 : Int) ∧ (15 : Int) < Config.cfgB.comSize)
      ∧ ¬ (0 ≤ (0 : Int) ∧ (0 : Int) < Config.cfgB.outSize ∧ 0 ≤ (-1 : Int) ∧ (-1 : Int) < Config.cfgB.comSize) := by
  decide

/-- The last and the first pixel of a group, and one past each bound, with 8 and with fewer pixels a byte. -/
theorem witness_AddressDecoderMask :
    Config.cfgB.wf = true ∧ cfgNarrow.wf = true ∧ Config.cfgB.pixelsPerByte = 8
      ∧ (0 ≤ (23 : Int) ∧ (23 : Int) < Config.cfgB.outSize ∧ 0 ≤ (15 : Int) ∧ (15 : Int) < Config.cfgB.comSize)
      ∧ (0 ≤ (0 : Int) ∧ (0 : Int) < Config.cfgB.outSize ∧ 0 ≤ (0 : Int) ∧ (0 : Int) < Config.cfgB.comSize)
      ∧ ¬ (0 ≤ (0 : Int) ∧ (0 : Int) < Config.cfgB.outSize ∧ 0 ≤ (16 : Int) ∧ (16 : Int) < Config.cfgB.comSize) := by
  decide

/-- The last pixel and the last (offset, bit) pair, in both layouts and with fewer than 8 pixels a byte. -/
theorem witness_AddressDecoderIsABijection :
    Config.cfgB.wf = true ∧ cfgGroup.wf = true ∧ cfgNarrow.wf = true ∧ 23 < Config.cfgB.outSize
      ∧ 15 < Config.cfgB.comSize ∧ 47 < cfgGroup.addrSpaceSize ∧ 7 ≤ cfgGroup.pixelsPerByte - 1
      ∧ 15 < cfgNarrow.addrSpaceSize ∧ 3 ≤ cfgNarrow.pixelsPerByte - 1 := by decide

/-- The state of the pixel statements, and pixels on and just past each bound. -/
theorem witness_pixels :
    (readyState .cfgB 1).phase = .ready ∧ (readyState .cfgB 1).memExists = true ∧ (readyState .cfgB 1).mem.wf = true
      ∧ (readyState .cfgB 1).cfg.wf = true ∧ Claims.inRange .cfgB 1 23 15 ∧ Claims.inRange .cfgB 0 0 0
      ∧ ¬ Claims.inRange .cfgB 2 23 15 ∧ ¬ Claims.inRange .cfgB 1 24 15 ∧ ¬ Claims.inRange .cfgB 1 23 16
      ∧ ¬ Claims.inRange .cfgB (-1) 0 0 ∧ ¬ Claims.inRange .cfgB 0 (-1) 0 ∧ ¬ Claims.inRange .cfgB 0 0 (-1) := by
  unfold Claims.inRange
  decide

theorem witness_SetPixelSetsOneBit :
    ((after (exec (.setPixelCh 23 15 1) (readyState .cfgB 1))).map fun t => (byteAt t 1 47, byteAt t 0 47)) =
      some (0x01, 0x00) := by decide

theorem witness_ClearPixelClearsOneBit :
    ((after (exec (.clearPixel 23 15) { readyState .cfgB 1 with mem := [(47, 0xFF)] })).map fun t => byteAt t 0 47) =
      some 0xFE := by decide

theorem witness_GetPixelAnswersTheBit :
    ((after (exec (.getPixel 23 15) { readyState .cfgB 1 with mem := [(47, 0x01)] })).map fun t => t.responses) =
      some [.bit true] := by decide

theorem witness_PixelPropertiesOfTheSource :
    Claims.getAnswer { readyState .cfgB 1 with mem := [(47, 0x01)] } 23 15 0 = some (.bit true)
      ∧ Claims.getAnswer { readyState .cfgB 1 with mem := [(47, 0x01)] } 23 15 1 = some (.bit false)
      ∧ Claims.getAnswer { readyState .cfgB 1 with mem := [(47, 0x01)] } 24 15 0 = some (.bit false) := by decide

/-- The last valid channel, and the first that is not. -/
theorem witness_FillSetsTheWriteChannel :
    (0 ≤ (1 : Int) ∧ (1 : Int) < (readyState .cfgB 1).cfg.numChannel)
      ∧ ¬ (0 ≤ (2 : Int) ∧ (2 : Int) < (readyState .cfgB 1).cfg.numChannel)
      ∧ ¬ (0 ≤ (-1 : Int) ∧ (-1 : Int) < (readyState .cfgB 1).cfg.numChannel) := by decide

theorem witness_FillAllAndClearSetEveryByte :
    ((after (exec .fillAll (readyState .cfgB 1))).map fun t => byteAt t 1 47) = some 0xFF := by decide +kernel

theorem witness_SelectWriteChannelStores :
    (readyState .cfgB 1).cfg.writeChannelPolicy = .ignoreInvalid
      ∧ (readyState cfgPolicies 1).cfg.writeChannelPolicy = .storeAny
      ∧ ¬ (0 ≤ (2 : Int) ∧ (2 : Int) < (readyState .cfgB 1).cfg.numChannel) := by decide

theorem witness_SelectDrivesEveryBoardLine :
    ∀ i < 3, ((readyState .cfgA 3).lines.get (.cs i)).cfgd = true := by decide

theorem witness_SelectIgnoresHigherMaskBits :
    ∀ i < (readyState .cfgA 3).boardCount, ((readyState .cfgA 3).lines.get (.cs i)).cfgd = true := by decide

/-- A field that is sent, one of no bits, and WR high. -/
theorem witness_WriteBitsSendsTheLowBits :
    (readyState .cfgA 1).lines.wr.level = .lo ∧ (readyState .cfgA 1).lines.wr.cfgd = true
      ∧ (readyState .cfgA 1).lines.data.cfgd = true
      ∧ ((after (writeBits 5 0 (readyState .cfgA 1))).map fun t => t.trace) = some []
      ∧ (LineState.driven true).level ≠ .lo := by decide

theorem witness_ProtocolWordsAreSent :
    (readyState .cfgA 1).lines.wr = ⟨.lo, true⟩ ∧ (readyState .cfgA 1).lines.data.cfgd = true := by decide

theorem witness_RamWriteFrameIsSent :
    (readyState .cfgA 1).lines.wr = ⟨.lo, true⟩ ∧ (readyState .cfgA 1).lines.data.cfgd = true := by decide

/-- A frame whose first command is sent and whose second is LED_OFF, and one with a code that no row lists. -/
theorem witness_NeverSentWordsAreRefused :
    (readyState .cfgA 1).lines.wr = ⟨.lo, true⟩ ∧ (readyState .cfgA 1).lines.data.cfgd = true
      ∧ (∀ b ∈ ([0x01] : List Byte), ChipCommand.sendable b = true) ∧ ChipCommand.sendable 0x02 = false
      ∧ ChipCommand.sendable 0x55 = false := by decide

theorem witness_CommandFrameIsSent :
    ([0xFF, 0x2C] : List Byte) ≠ [] ∧ ∀ c ∈ ([0xFF, 0x2C] : List Byte), ChipCommand.sendable c = true := by decide

theorem witness_SelectRenderTargetStores :
    (readyState .cfgA 2).cfg.renderTargetPolicy = .storeAny
      ∧ (readyState cfgPolicies 2).cfg.renderTargetPolicy = .ignoreInvalid
      ∧ ¬ (0 ≤ (2 : Int) ∧ (2 : Int) < (readyState cfgPolicies 2).boardCount) := by decide

/-- The last valid board and the first that is not. -/
theorem witness_RenderSendsTheWholeBuffer :
    (readyState .cfgA 4).phase = .ready ∧ (readyState .cfgA 4).memExists = true
      ∧ (readyState .cfgA 4).lines.atRest (readyState .cfgA 4).boardCount (readyState .cfgA 4).cfg.maxBoards
      ∧ ((0 : Int) ≤ 3 ∧ (3 : Int) < (readyState .cfgA 4).boardCount)
      ∧ ¬ ((0 : Int) ≤ 4 ∧ (4 : Int) < (readyState .cfgA 4).boardCount) :=
  ⟨rfl, rfl, witness_atRest.1, by decide, by decide⟩

/-- The first board index that is no target, and a negative one. -/
theorem witness_InvalidTargetDoesNothing :
    (readyState .cfgA 2).phase = .ready
      ∧ ¬ (0 ≤ ({ readyState .cfgA 2 with renderTarget := 2 } : State).renderTarget
          ∧ ({ readyState .cfgA 2 with renderTarget := 2 } : State).renderTarget < (readyState .cfgA 2).boardCount)
      ∧ ¬ (0 ≤ (-1 : Int) ∧ (-1 : Int) < (readyState .cfgA 2).boardCount) := by decide

/-- Section 2.7: mem[0][31] = 0x01, whose only 1 is bit cycle 265. -/
theorem witness_RenderCountsAndBitPlaces :
    ((after (exec .render { readyState .cfgA 1 with mem := [(31, 0x01)] })).map fun t =>
      (t.trace.length, t.trace[1 + 5 * 265]?)) = some (1332, some (.w .data true)) := by decide +kernel

theorem witness_RenderTwiceSendsTheSame : (after (exec .render (readyState .cfgA 1))).isSome = true := by
  decide +kernel

/-- An explicit mask, the sentinel with the last valid target, and the sentinel with none. -/
theorem witness_SetBrightnessSendsOneCommandFrame :
    (0xFF ≠ (readyState .cfgA 4).cfg.currentBoardSentinel)
      ∧ (0x10 = (readyState .cfgA 4).cfg.currentBoardSentinel)
      ∧ ((0 : Int) ≤ 3 ∧ (3 : Int) < (readyState .cfgA 4).boardCount)
      ∧ ¬ ((0 : Int) ≤ 4 ∧ (4 : Int) < (readyState .cfgA 4).boardCount)
      ∧ (readyState .cfgA 4).lines.atRest (readyState .cfgA 4).boardCount (readyState .cfgA 4).cfg.maxBoards :=
  ⟨by decide, by decide, by decide, by decide, witness_atRest.1⟩

/-- The least and the greatest board count. -/
theorem witness_InitBringsTheBlockUp :
    State.reset.phase = .uninit ∧ State.reset.cfg.wf = true ∧ State.reset.lines = .off State.reset.cfg.maxBoards
      ∧ State.reset.allocOk = true ∧ 1 ≤ 4 ∧ 4 ≤ State.reset.cfg.maxBoards := by decide

theorem witness_InitEventCount :
    ((after (exec (.init 2) State.reset)).map fun t => t.trace.length) = some 2920 := by decide +kernel

theorem witness_InitWithFailedAllocationIsFatal :
    (State.powerOn .cfgB false).phase = .uninit
      ∧ (State.powerOn .cfgB false).lines = .off (State.powerOn .cfgB false).cfg.maxBoards
      ∧ (State.powerOn .cfgB false).allocOk = false ∧ 4 ≤ (State.powerOn .cfgB false).cfg.maxBoards := by decide

theorem witness_InitRefusals :
    (fatalState .cfgA).phase = .fatal ∧ (readyState .cfgA 1).phase = .ready ∧ State.reset.phase = .uninit
      ∧ ¬ (1 ≤ (0 : Int) ∧ (0 : Int) ≤ State.reset.cfg.maxBoards)
      ∧ ¬ (1 ≤ (5 : Int) ∧ (5 : Int) ≤ State.reset.cfg.maxBoards) := by decide

theorem witness_RequestsBeforeInitAreRefused :
    Instr.isRequest (.setBrightnessCurrent 8) = true ∧ Instr.isRequest .clear = true ∧ State.reset.phase = .uninit
      ∧ (fatalState .cfgA).phase = .fatal := by decide

theorem witness_ReservedOpsAreRefused : State.reset.phase ≠ .fatal ∧ (readyState .cfgA 1).phase ≠ .fatal := by decide

/-- CLK is never configured; the first offset and the first channel past the address space; a pixel in range while no
buffer exists. -/
theorem witness_UnreachableFaultsAreChecked :
    ((readyState .cfgB 1).lines.get .clk).cfgd = false
      ∧ State.reset.lines.wr.level ≠ .lo
      ∧ memRead (readyState .cfgB 1) 0 48 = none ∧ memRead (readyState .cfgB 1) 2 0 = none
      ∧ memRead (readyState .cfgB 1) 1 47 = some 0x00
      ∧ (let s := { readyState .cfgB 1 with memExists := false }
         s.cfg.wf = true ∧ (0 ≤ s.writeChannel ∧ s.writeChannel < s.cfg.numChannel)
          ∧ (0 ≤ s.renderTarget ∧ s.renderTarget < s.boardCount)
          ∧ [.setPixelCh 23 15 1, .clearPixel 0 0, .fill, .fillAll, .clear, .render].all
              (fun i => faultOf (exec i s) == some .badAddress) = true) := by
  decide

/-- The lines at rest that the RENDER clause of the same statement asks for. -/
theorem witness_UnreachableFaultsAreChecked_render :
    ({ readyState .cfgB 1 with memExists := false } : State).lines.atRest 1 Config.cfgB.maxBoards := witness_atRest.2

/-- The family of Laws/PerInstr.lean: the default sentinel, and a well-formed instruction. -/
theorem witness_TableRow :
    Config.cfgA.currentBoardSentinel = 0x10 ∧ Instr.wellFormed .cfgA (.setBrightnessCurrent 255) = true := by decide

end Sys2Proof.Tests
end

section
/-! PROOFS. The family of the state: what every step keeps, the protocol words, power-on, the model's faults, the phase,
the invariant of the request boundaries, and the two readings of rule R31. -/

namespace Sys2Proof.Machine

/-! ### Steps -/

/-- A step that completes was one of a valid configuration, not in phase FATAL (rules R228, R258). -/
theorem live_of_step {s t : State} (h : step s = .next t) : s.cfg.wf = true ∧ s.phase ≠ .fatal := by
  by_cases hw : s.cfg.wf = true
  · refine ⟨hw, fun hf => ?_⟩
    simp [step, nextStep, whenConfigured, hw, hf] at h
  · simp [step, nextStep, whenConfigured, hw] at h

/-- Apart from where the next instruction comes from (the sequencer's position and the port), a step changes only what
an operation of the block may change. -/
theorem step_follows {s t : State} (h : step s = .next t) :
    ∃ q p, State.Follows { s with seqpos := q, port := p } t := by
  rcases step_cases h with ⟨-, -, rfl⟩ | ⟨it, rest, -, -, h⟩ | ⟨-, -, rfl⟩ | ⟨w, rest, -, -, ⟨i, -, h⟩ | ⟨e, -, h⟩⟩
  · exact ⟨t.seqpos, t.port, .refl t⟩
  · exact ⟨rest, s.port, runItem_follows h⟩
  · exact ⟨s.seqpos, s.port, ⟨rfl, rfl, rfl, rfl, id, List.prefix_refl _⟩⟩
  · exact ⟨s.seqpos, rest, exec_follows h⟩
  · exact ⟨s.seqpos, rest, (refuseWord_quiet h).follows⟩

/-- Settles O15: no operation writes the configuration or the draw. -/
theorem configurationNeverChanges : Obligations.ConfigurationNeverChanges := by
  intro s t h
  obtain ⟨q, p, hf⟩ := step_follows h
  exact ⟨hf.cfg, hf.allocOk⟩

/-- Settles O17: every operation keeps a set mark and appends its events. -/
theorem ghostRecordsOnlyGrow : Obligations.GhostRecordsOnlyGrow := by
  intro s t h
  obtain ⟨q, p, hf⟩ := step_follows h
  exact ⟨hf.refusedMark, hf.trace⟩

/-! ### The protocol words -/

/-- The instruction of an ID sends that ID (rule R78). -/
theorem exec_of_decodeId {v : BitVec 3} {i : Instr} (h : decodeId v = .ok i) (s : State) : exec i s = sendId v s := by
  unfold decodeId at h
  split_ifs at h with hc hw hr <;> cases h
  · rw [hc]; rfl
  · rw [hw]; rfl
  · rw [hr]; rfl

/-- A PWM code is its base and its duty field (rule R83). -/
theorem pwmOfField_extractLsb' {c : Byte} (h : c.extractLsb' 4 4 = 0xA#4) :
    ChipCommand.pwmOfField (c.extractLsb' 0 4) = c := by
  revert c
  decide

/-- One row of the code table: if the row matches, its instruction sends the code; else a later row does. -/
theorem exec_of_row {c d : Byte} {i j : Instr} {later : Except DecodeError Instr} {s : State}
    (h : (if c = d then .ok j else later) = .ok i) (hrow : exec j s = sendCommand d s)
    (hlater : later = .ok i → exec i s = sendCommand c s) : exec i s = sendCommand c s := by
  split_ifs at h with hc
  · cases h
    rw [hc, hrow]
  · exact hlater h

/-- The instruction of a command code sends that code (rule R82): fourteen rows with one code each, then PWM. -/
theorem exec_of_decodeCommandCode {c : Byte} {i : Instr} (h : decodeCommandCode c = .ok i) (s : State) :
    exec i s = sendCommand c s := by
  unfold decodeCommandCode at h
  iterate 14
    refine exec_of_row h rfl ?_
    clear h
    intro h
  split_ifs at h with hp
  cases h
  exact congrArg (sendCommand · s) (pwmOfField_extractLsb' hp)

/-- A code with its padding bit decodes as the code (rule R79). -/
theorem decode_commandWord (c : Byte) : decode (commandWord c) = decodeCommandCode c := by
  show decodeCommand (c ++ 0#1) = _
  rw [decodeCommand, if_pos BitVec.extractLsb'_append_eq_right, BitVec.extractLsb'_append_eq_left]

/-- Settles O7: the item at the position sends the word that the decoded instruction sends. -/
theorem stepRunsTheSequencersWord : Obligations.StepRunsTheSequencersWord := by
  intro s rest i hw hf hb hpos
  rw [step_of_live hw hf, if_pos hb]
  rcases hpos with ⟨v, hs, hd⟩ | ⟨c, hs, hd⟩
  · rw [sequencerStep, hs]
    exact (exec_of_decodeId hd _).symm
  · rw [sequencerStep, hs]
    exact (exec_of_decodeCommandCode (decode_commandWord c ▸ hd) _).symm

/-! ### Power-on -/

theorem Lines.off_get (maxBoards : Nat) (l : Line) : (Lines.off maxBoards).get l = .off := by
  cases l with
  | cs i => simp only [Lines.get, Lines.off, List.getD_eq_getElem?_getD, List.getElem?_getD_replicate_default_eq]
  | wr | data | clk => rfl

/-- Settles O11. -/
theorem powerOnStateOfTheSpec : Obligations.PowerOnStateOfTheSpec := by
  intro cfg allocOk
  refine ⟨rfl, rfl, rfl, rfl, rfl, rfl, fun l => ?_⟩
  have hl : (State.powerOn cfg allocOk).lines.get l = .off := Lines.off_get cfg.maxBoards l
  rw [hl]
  exact ⟨rfl, rfl⟩

/-- Settles O12: the phase is UNINIT, whose conditions hold by definition; those of the other phases are void. -/
theorem powerOnMeetsTheBoundaryConditions : Obligations.PowerOnMeetsTheBoundaryConditions := by
  intro cfg allocOk hw
  exact
    { cfg_wf := hw
      mem_wf := rfl
      mem_within := rfl
      idle := ⟨rfl, fun _ => rfl⟩
      uninit := fun _ => ⟨rfl, rfl, rfl, rfl, rfl, rfl⟩
      configured := fun h => absurd rfl h
      ready := fun h => nomatch h
      fatal := fun h => nomatch h }

/-! ### Where the model's faults are raised -/

theorem emit_w_of_not_cfgd {s : State} {l : Line} (h : (s.lines.get l).cfgd = false) (v : Bool) :
    emit [.w l v] s = .fault .unconfiguredLine := by
  simp [emit, Lines.applyAll, Lines.apply, h]

theorem strobeLow_eq_false {s : State} (h : s.lines.wr.level ≠ .lo) : strobeLow s = false :=
  decide_eq_false h

theorem writeBits_of_strobe_not_low {s : State} (h : s.lines.wr.level ≠ .lo) (v n : Nat) :
    writeBits v n s = .fault .strobeHigh := by
  simp [writeBits, strobeLow_eq_false h]

theorem writeSingleBit_of_strobe_not_low {s : State} (h : s.lines.wr.level ≠ .lo) :
    writeSingleBit s = .fault .strobeHigh := by
  simp [writeSingleBit, strobeLow_eq_false h]

theorem writeCommand_of_strobe_not_low {s : State} (h : s.lines.wr.level ≠ .lo) (c : Byte) :
    writeCommand c s = .fault .strobeHigh := by
  simp [writeCommand, writeBits_of_strobe_not_low h]

theorem addressOk_eq_false {s : State} {c o : Nat}
    (h : ¬ (s.memExists = true ∧ c < s.cfg.numChannel ∧ o < s.cfg.addrSpaceSize)) : addressOk s c o = false := by
  rwa [← Bool.not_eq_true, addressOk_iff]

theorem modifyPixel_of_no_buffer {s : State} {c x y : Int} (h : Claims.inRange s.cfg c x y)
    (hm : s.memExists = false) (req : RequestRef) (f : Byte → Byte → Byte) :
    modifyPixel req c x y f s = .fault .badAddress := by
  simp [modifyPixel, pixelOperand_of_inRange h, memRead_of_no_buffer hm]

theorem readPixel_of_no_buffer {s : State} {c x y : Int} (h : Claims.inRange s.cfg c x y)
    (hm : s.memExists = false) (req : RequestRef) : readPixel req c x y s = .fault .badAddress := by
  simp [readPixel, pixelOperand_of_inRange h, memRead_of_no_buffer hm]

theorem fillAddresses_of_no_buffer {s : State} (hm : s.memExists = false) (req : RequestRef) (v : Byte)
    {addrs : List (Nat × Nat)} (ha : addrs ≠ []) : fillAddresses req v addrs s = .fault .badAddress := by
  simp [fillAddresses, memWriteAll_of_no_buffer hm v ha]

theorem exec_pixel_of_no_buffer {s : State} {i : Instr} {x y c : Int}
    (hi : i ∈ [.setPixelCh x y c, .clearPixelCh x y c, .getPixelCh x y c]
      ∨ (c = s.writeChannel ∧ i ∈ [.setPixel x y, .clearPixel x y, .getPixel x y]))
    (hp : s.phase = .ready) (hm : s.memExists = false) (hr : Claims.inRange s.cfg c x y) :
    exec i s = .fault .badAddress := by
  simp only [List.mem_cons, List.not_mem_nil, or_false] at hi
  rcases hi with (rfl | rfl | rfl) | ⟨rfl, rfl | rfl | rfl⟩ <;> refine (whenReady_ready hp).trans ?_
  · exact modifyPixel_of_no_buffer hr hm _ _
  · exact modifyPixel_of_no_buffer hr hm _ _
  · exact readPixel_of_no_buffer hr hm _
  · exact modifyPixel_of_no_buffer hr hm _ _
  · exact modifyPixel_of_no_buffer hr hm _ _
  · exact readPixel_of_no_buffer hr hm _

theorem execFill_of_no_buffer {s : State} (hw : s.cfg.wf = true) (hp : s.phase = .ready) (hm : s.memExists = false)
    (hc : 0 ≤ s.writeChannel ∧ s.writeChannel < s.cfg.numChannel) : execFill s = .fault .badAddress := by
  have hv : validChannel s.cfg s.writeChannel = true := by simp [validChannel, hc]
  rw [execFill, whenReady_ready hp, if_pos hv]
  exact fillAddresses_of_no_buffer hm _ _ (channelAddresses_ne_nil hw _)

theorem execRender_of_no_buffer {s : State} (hw : s.cfg.wf = true) (hp : s.phase = .ready) (hm : s.memExists = false)
    (ht : 0 ≤ s.renderTarget ∧ s.renderTarget < s.boardCount) : execRender s = .fault .badAddress := by
  have hv : validBoard s.boardCount s.renderTarget = true := by simp [validBoard, ht]
  rw [execRender, whenReady_ready hp, if_pos hv, memReadAll_of_no_buffer hm (allAddresses_ne_nil hw)]

/-- Settles O53, one lemma for each place where a fault is raised. -/
theorem unreachableFaultsAreChecked : Obligations.UnreachableFaultsAreChecked := by
  refine ⟨fun s l v h => emit_w_of_not_cfgd h v, fun s v n c h => ?_, fun s c o v h => ?_,
    fun s i x y c hi hp hm hr => exec_pixel_of_no_buffer hi hp hm hr, fun s i hw hi hp hm => ?_⟩
  · exact ⟨writeBits_of_strobe_not_low h v n, writeSingleBit_of_strobe_not_low h, writeCommand_of_strobe_not_low h c⟩
  · simp [memRead, memWrite, addressOk_eq_false h]
  · rcases hi with rfl | rfl | ⟨rfl, hc⟩ | ⟨rfl, ht, ht', -⟩
    · exact (whenReady_ready hp).trans (fillAddresses_of_no_buffer hm _ _ (allAddresses_ne_nil hw))
    · exact (whenReady_ready hp).trans (fillAddresses_of_no_buffer hm _ _ (allAddresses_ne_nil hw))
    · exact execFill_of_no_buffer hw hp hm hc
    · exact execRender_of_no_buffer hw hp hm ⟨ht, ht'⟩

/-! ### Which request words decode, and what a request runs -/

theorem eq_of_ifZero {w : Word} {u : Bool} {i j : Instr} (h : ifZero w u j = .ok i) : j = i := by
  unfold ifZero at h
  split at h <;> cases h
  rfl

/-- A request word that decodes is a host request of rule R73 or one of the two reserved rows. -/
theorem hostRow_of_decode {w : Word} {i : Instr} (h : decode (.request w) = .ok i) :
    i.isRequest = true ∨ (∃ p, i = .reservedOp0 p) ∨ ∃ p, i = .reservedOpF p := by
  have h : decodeRequest w = .ok i := h
  unfold decodeRequest at h
  split at h
  case h_1 => cases h; exact .inr (.inl ⟨_, rfl⟩)
  case h_16 => cases h; exact .inr (.inr ⟨_, rfl⟩)
  all_goals
    cases eq_of_ifZero h
    exact .inl rfl

/-- The items that act on the lines only: every item but the writes of INIT to registers and buffer, and the ends of a
request. -/
def SeqItem.onLines : SeqItem → Bool
  | .configure _ _ | .select _ | .id _ | .command _ | .address _ | .data _ => true
  | .record _ | .allocate | .allocFail _ | .target _ | .ready | .respond _ _ => false

/-- The items after which the block is still inside its sequence: every item but the ends of a request. -/
def SeqItem.inner : SeqItem → Bool
  | .allocFail _ | .respond _ _ => false
  | _ => true

theorem SeqItem.onLines_of_sends {it : SeqItem} (h : itemSends it = true) : it.onLines = true := by
  cases it with
  | id | command | address | data => rfl
  | _ => cases h

theorem commandItems_sends {cmds : List Byte} (h : ∀ c ∈ cmds, ChipCommand.sendable c = true) :
    ∀ it ∈ commandItems cmds, itemSends it = true := by
  intro it hit
  rcases List.mem_cons.mp hit with rfl | hit
  · rfl
  · obtain ⟨c, hc, rfl⟩ := List.mem_map.mp hit
    exact h c hc

/-! ### Requests that end at once -/

/-- What a request that runs no sequence may do to the state of a READY block: write bytes of the buffer, and store an
index that its policy admits (rules R106 to R115, R170). -/
structure State.Edits (s u : State) : Prop where
  frame : u = { s with mem := u.mem, writeChannel := u.writeChannel, renderTarget := u.renderTarget }
  mem_wf : s.mem.wf = true → u.mem.wf = true
  mem_below : Memory.below s.cfg.bufferSize s.mem = true → Memory.below s.cfg.bufferSize u.mem = true
  writeChannel : u.writeChannel = s.writeChannel ∨ validChannel s.cfg u.writeChannel = true
    ∨ s.cfg.writeChannelPolicy = .storeAny
  renderTarget : u.renderTarget = s.renderTarget ∨ validBoard s.boardCount u.renderTarget = true
    ∨ s.cfg.renderTargetPolicy = .storeAny

theorem State.Edits.refl (s : State) : s.Edits s := ⟨rfl, id, id, .inl rfl, .inl rfl⟩

theorem withByte_edits {s : State} {c o : Nat} (h : addressOk s c o = true) (v : Byte) :
    s.Edits (s.withByte c o v) := by
  obtain ⟨-, hc, ho⟩ := (addressOk_iff s c o).mp h
  exact ⟨rfl, fun hm => Memory.wf_set hm _ v, fun hb => Memory.below_set hb (cellOf_lt hc ho) v, .inl rfl, .inl rfl⟩

theorem memWrite_edits {s u : State} {c o : Nat} {v : Byte} (h : memWrite s c o v = some u) : s.Edits u := by
  unfold memWrite at h
  split_ifs at h with ha
  cases h
  exact withByte_edits ha v

theorem memWriteAll_edits {v : Byte} {addrs : List (Nat × Nat)} {s u : State} (h : memWriteAll v addrs s = some u) :
    s.Edits u := by
  induction addrs generalizing s with
  | nil => cases h; exact .refl _
  | cons a rest ih =>
    simp only [memWriteAll, memWrite] at h
    split_ifs at h with ha
    have hone := withByte_edits ha v
    have hrest : (s.withByte a.1 a.2 v).Edits u := ih h
    exact ⟨hrest.frame, hrest.mem_wf ∘ hone.mem_wf, hrest.mem_below ∘ hone.mem_below, hrest.writeChannel,
      hrest.renderTarget⟩

/-- A request that is refused, or answered without running a sequence. -/
def State.EndsAtOnce (s t : State) : Prop :=
  (∃ req o, t = s.refusedAs req o)
    ∨ (s.phase = .ready ∧ ∃ u req o r, s.Edits u ∧ t = u.answered req o r)

theorem refuse_endsAtOnce {req : RequestRef} {o : ReqOutcome} {s t : State} (h : refuse req o s = .next t) :
    s.EndsAtOnce t := by
  cases h
  exact .inl ⟨req, o, rfl⟩

theorem respond_endsAtOnce {req : RequestRef} {o : ReqOutcome} {r : Response} {s u t : State} (hp : s.phase = .ready)
    (hu : s.Edits u) (h : respond req o r u = .next t) : s.EndsAtOnce t := by
  cases h
  exact .inr ⟨hp, u, req, o, r, hu, rfl⟩

theorem refuseWord_endsAtOnce {w : Word} {s t : State} (h : refuseWord w s = .next t) : s.EndsAtOnce t := by
  unfold refuseWord at h
  split at h
  · cases h
  · exact refuse_endsAtOnce h
  · exact refuse_endsAtOnce h

theorem whenReady_endsAtOnce {req : RequestRef} {s t : State} {k : State → Result} (h : whenReady req s k = .next t)
    (hk : s.phase = .ready → k s = .next t → s.EndsAtOnce t) : s.EndsAtOnce t := by
  rcases whenReady_cases h with ⟨-, rfl⟩ | ⟨hp, h⟩
  · exact .inl ⟨_, _, rfl⟩
  · exact hk hp h

theorem modifyPixel_endsAtOnce {req : RequestRef} {c x y : Int} {f : Byte → Byte → Byte} {s t : State}
    (hp : s.phase = .ready) (h : modifyPixel req c x y f s = .next t) : s.EndsAtOnce t := by
  unfold modifyPixel at h
  split at h
  · exact respond_endsAtOnce hp (.refl s) h
  · split at h
    · cases h
    · split at h
      · cases h
      · exact respond_endsAtOnce hp (memWrite_edits ‹_›) h

theorem readPixel_endsAtOnce {req : RequestRef} {c x y : Int} {s t : State} (hp : s.phase = .ready)
    (h : readPixel req c x y s = .next t) : s.EndsAtOnce t := by
  unfold readPixel at h
  split at h
  · exact respond_endsAtOnce hp (.refl s) h
  · split at h
    · cases h
    · exact respond_endsAtOnce hp (.refl s) h

theorem fillAddresses_endsAtOnce {req : RequestRef} {v : Byte} {addrs : List (Nat × Nat)} {s t : State}
    (hp : s.phase = .ready) (h : fillAddresses req v addrs s = .next t) : s.EndsAtOnce t := by
  unfold fillAddresses at h
  split at h
  · cases h
  · exact respond_endsAtOnce hp (memWriteAll_edits ‹_›) h

theorem execFill_endsAtOnce {s t : State} (h : execFill s = .next t) : s.EndsAtOnce t := by
  refine whenReady_endsAtOnce h fun hp h => ?_
  split_ifs at h
  · exact fillAddresses_endsAtOnce hp h
  · exact respond_endsAtOnce hp (.refl s) h

theorem execSelectWriteChannel_endsAtOnce {n : Int} {s t : State} (h : execSelectWriteChannel n s = .next t) :
    s.EndsAtOnce t := by
  refine whenReady_endsAtOnce h fun hp h => ?_
  split_ifs at h with hv
  · refine respond_endsAtOnce (u := { s with writeChannel := n }) hp ⟨rfl, id, id, .inr ?_, .inl rfl⟩ h
    simpa using hv
  · exact respond_endsAtOnce hp (.refl s) h

theorem execSelectRenderTarget_endsAtOnce {n : Int} {s t : State} (h : execSelectRenderTarget n s = .next t) :
    s.EndsAtOnce t := by
  refine whenReady_endsAtOnce h fun hp h => ?_
  split_ifs at h with hv
  · refine respond_endsAtOnce (u := { s with renderTarget := n }) hp ⟨rfl, id, id, .inl rfl, .inr ?_⟩ h
    simpa [or_comm] using hv
  · exact respond_endsAtOnce hp (.refl s) h

/-! ### Requests that run a sequence -/

theorem requestSequence_init {n : Int} {s : State} (hp : s.phase = .uninit) (h1 : 1 ≤ n) (h2 : n ≤ s.cfg.maxBoards) :
    requestSequence (.init n) s = some (initSequence s.cfg s.allocOk n.toNat (.instr (.init n))) :=
  if_pos ⟨hp, h1, h2⟩

theorem requestSequence_render {s : State} (hp : s.phase = .ready)
    (ht : validBoard s.boardCount s.renderTarget = true) :
    requestSequence .render s =
      (memReadAll s (allAddresses s.cfg)).map (renderSequence s.renderTarget.toNat) :=
  if_pos ⟨hp, ht⟩

theorem requestSequence_setBrightness {level : Int} {mask : Nat} {s : State} (hp : s.phase = .ready) :
    requestSequence (.setBrightness level mask) s =
      (resolveMask s.cfg s.boardCount s.renderTarget mask).map
        (brightnessSequence (.instr (.setBrightness level mask)) level) :=
  if_pos hp

theorem execRender_atOnce_or_sequence {s t : State} (h : execRender s = .next t) :
    s.EndsAtOnce t ∨ ∃ items, requestSequence .render s = some items := by
  rcases whenReady_cases h with ⟨-, rfl⟩ | ⟨hp, h⟩
  · exact .inl (.inl ⟨_, _, rfl⟩)
  · split_ifs at h with ht
    · split at h
      · cases h
      · rename_i bytes hb
        exact .inr ⟨_, by rw [requestSequence_render hp ht, hb]; rfl⟩
    · exact .inl (respond_endsAtOnce hp (.refl s) h)

theorem brightness_atOnce_or_sequence {level : Int} {mask : Nat} {s t : State} (h : brightness level mask s = .next t) :
    s.EndsAtOnce t ∨ ∃ items, requestSequence (.setBrightness level mask) s = some items := by
  rcases whenReady_cases h with ⟨-, rfl⟩ | ⟨hp, h⟩
  · exact .inl (.inl ⟨_, _, rfl⟩)
  · split at h
    · exact .inl (respond_endsAtOnce hp (.refl s) h)
    · rename_i m hm
      exact .inr ⟨_, by rw [requestSequence_setBrightness hp, hm]; rfl⟩

theorem execInit_atOnce_or_sequence {n : Int} {s t : State} (h : execInit n s = .next t) :
    s.EndsAtOnce t ∨ ∃ items, requestSequence (.init n) s = some items := by
  unfold execInit at h
  split at h
  · cases h
  · exact .inl (refuse_endsAtOnce h)
  · rename_i hp
    split_ifs at h with hn
    · simp only [Bool.and_eq_true, decide_eq_true_eq] at hn
      exact .inr ⟨_, requestSequence_init hp hn.1 hn.2⟩
    · exact .inl (refuse_endsAtOnce h)

/-- Every host request that completes ends at once or runs its sequence (rule R31). -/
theorem exec_atOnce_or_sequence {w : Word} {i : Instr} {s t : State} (hd : decode (.request w) = .ok i)
    (h : exec i s = .next t) : s.EndsAtOnce t ∨ ∃ items, requestSequence i s = some items := by
  rcases hostRow_of_decode hd with hr | ⟨p, rfl⟩ | ⟨p, rfl⟩
  · cases i with
    | init n => exact execInit_atOnce_or_sequence h
    | selectWriteChannel n => exact .inl (execSelectWriteChannel_endsAtOnce h)
    | selectRenderTarget n => exact .inl (execSelectRenderTarget_endsAtOnce h)
    | setPixel | clearPixel | setPixelCh | clearPixelCh =>
      exact .inl (whenReady_endsAtOnce h modifyPixel_endsAtOnce)
    | getPixel | getPixelCh => exact .inl (whenReady_endsAtOnce h readPixel_endsAtOnce)
    | fill => exact .inl (execFill_endsAtOnce h)
    | fillAll | clear => exact .inl (whenReady_endsAtOnce h fillAddresses_endsAtOnce)
    | render => exact execRender_atOnce_or_sequence h
    | setBrightness level mask => exact brightness_atOnce_or_sequence h
    | setBrightnessCurrent level => exact brightness_atOnce_or_sequence h
    | _ => cases hr
  · exact .inl (refuseWord_endsAtOnce h)
  · exact .inl (refuseWord_endsAtOnce h)

/-! ### Sequences -/

/-- The sequence of one transaction and its acknowledgement, as RENDER and SET_BRIGHTNESS run it. -/
def IsTransaction (items : List SeqItem) : Prop :=
  ∃ mask frame req, items = bracket mask frame ++ [.respond req .ack] ∧ ∀ it ∈ frame, itemSends it = true

theorem renderSequence_isTransaction (t : Nat) (bytes : List Byte) : IsTransaction (renderSequence t bytes) :=
  ⟨boardMask t, ramWriteItems bytes, _, rfl, ramWriteItems_sends⟩

theorem brightnessSequence_isTransaction (req : RequestRef) (level : Int) (m : Nat) :
    IsTransaction (brightnessSequence req level m) :=
  ⟨m, _, req, rfl, commandItems_sends (by simpa using pwmOfLevel_sendable level)⟩

/-- SET_BRIGHTNESS with a sequence, and the pseudo-request as its expansion, runs it: a transaction in phase READY. -/
theorem brightness_of_requestSequence {level : Int} {mask : Nat} {s : State} {items : List SeqItem}
    (h : requestSequence (.setBrightness level mask) s = some items) :
    brightness level mask s = runRequest items s ∧ s.phase = .ready ∧ IsTransaction items := by
  simp only [requestSequence, Instr.expand] at h
  split_ifs at h with hp
  obtain ⟨m, hm, rfl⟩ := Option.map_eq_some_iff.mp h
  exact ⟨by rw [brightness, whenReady_ready hp, hm], hp, brightnessSequence_isTransaction _ level m⟩

/-- A request with a sequence runs it (rule R31); it is INIT from phase UNINIT with a valid board count, or a
transaction in phase READY. -/
theorem exec_of_requestSequence {i : Instr} {s : State} {items : List SeqItem}
    (h : requestSequence i s = some items) :
    exec i s = runRequest items s ∧
      ((∃ n, i = .init n ∧ s.phase = .uninit ∧ 1 ≤ n ∧ n ≤ s.cfg.maxBoards
          ∧ items = initSequence s.cfg s.allocOk n.toNat (.instr (.init n)))
        ∨ (s.phase = .ready ∧ IsTransaction items)) := by
  cases i with
  | init n =>
    simp only [requestSequence, Instr.expand] at h
    split_ifs at h with hc
    cases h
    obtain ⟨hp, h1, h2⟩ := hc
    refine ⟨?_, .inl ⟨n, rfl, hp, h1, h2, rfl⟩⟩
    show execInit n s = _
    simp [execInit, hp, h1, h2]
  | render =>
    simp only [requestSequence, Instr.expand] at h
    split_ifs at h with hc
    obtain ⟨bytes, hb, rfl⟩ := Option.map_eq_some_iff.mp h
    refine ⟨?_, .inr ⟨hc.1, renderSequence_isTransaction _ bytes⟩⟩
    show execRender s = _
    rw [execRender, whenReady_ready hc.1, if_pos hc.2, hb]
  | setBrightness level mask =>
    obtain ⟨he, ht⟩ := brightness_of_requestSequence h
    exact ⟨he, .inr ht⟩
  | setBrightnessCurrent level =>
    obtain ⟨he, ht⟩ := brightness_of_requestSequence (mask := s.cfg.currentBoardSentinel) h
    exact ⟨he, .inr ht⟩
  | _ => cases h

/-! ### Items on the lines -/

/-- Nothing has changed but the lines, by events that were appended to the trace (rule R27). -/
def State.Emits (s t : State) : Prop := ∃ evs L, t = s.emitted evs L

theorem State.Emits.trans {s t u : State} (h : s.Emits t) (k : t.Emits u) : s.Emits u := by
  obtain ⟨e₁, L₁, rfl⟩ := h
  obtain ⟨e₂, L₂, rfl⟩ := k
  exact ⟨_, _, State.emitted_emitted s e₁ e₂ L₁ L₂⟩

theorem emit_emits {evs : List LineEvent} {s t : State} (h : emit evs s = .next t) : s.Emits t := by
  obtain ⟨L, -, rfl⟩ := emit_eq_next h
  exact ⟨evs, L, rfl⟩

theorem writeBits_emits {v n : Nat} {s t : State} (h : writeBits v n s = .next t) : s.Emits t := by
  unfold writeBits at h
  split_ifs at h
  exact emit_emits h

theorem writeSingleBit_emits {s t : State} (h : writeSingleBit s = .next t) : s.Emits t := by
  unfold writeSingleBit at h
  split_ifs at h
  exact emit_emits h

theorem writeCommand_emits {c : Byte} {s t : State} (h : writeCommand c s = .next t) : s.Emits t := by
  obtain ⟨u, hu, ht⟩ := andThen_eq_next h
  exact (writeBits_emits hu).trans (writeSingleBit_emits ht)

theorem runItem_emits {it : SeqItem} (hi : it.onLines = true) {s t : State} (h : runItem it s = .next t) :
    s.Emits t := by
  cases it with
  | configure l low => exact emit_emits h
  | select mask => exact emit_emits h
  | id v =>
    simp only [runItem, sendId] at h
    split_ifs at h
    exact writeBits_emits h
  | command c =>
    simp only [runItem, sendCommand] at h
    split_ifs at h
    exact writeCommand_emits h
  | address a => exact writeBits_emits h
  | data w => exact writeBits_emits h
  | record | allocate | allocFail | target | ready | respond => cases hi

theorem runItems_emits {items : List SeqItem} (hi : ∀ it ∈ items, it.onLines = true) {s t : State}
    (h : runItems items s = .next t) : s.Emits t := by
  induction items generalizing s with
  | nil => cases h; exact ⟨[], _, rfl⟩
  | cons it rest ih =>
    obtain ⟨u, hu, ht⟩ := andThen_eq_next h
    exact (runItem_emits (hi it (by simp)) hu).trans (ih (fun it hit => hi it (by simp [hit])) ht)

theorem bracket_onLines {mask : Nat} {frame : List SeqItem} (hf : ∀ it ∈ frame, itemSends it = true) :
    ∀ it ∈ bracket mask frame, it.onLines = true := by
  intro it hit
  simp only [bracket, List.cons_append, List.mem_cons, List.mem_append, List.not_mem_nil, or_false] at hit
  rcases hit with rfl | hit | rfl
  · rfl
  · exact SeqItem.onLines_of_sends (hf _ hit)
  · rfl

/-- A transaction that completes leaves everything but the lines and the request's end as it was (rule R57). -/
theorem runRequest_transaction {items : List SeqItem} (hi : IsTransaction items) {s t : State}
    (h : runRequest items s = .next t) :
    ∃ u req, State.Emits { s with busy := true } u ∧ t = u.answered req .ok .ack := by
  obtain ⟨mask, frame, req, rfl, hf⟩ := hi
  rw [runRequest, runItems_append] at h
  obtain ⟨u, hu, ht⟩ := andThen_eq_next h
  cases ht
  exact ⟨u, req, runItems_emits (bracket_onLines hf) hu, rfl⟩

/-! ### The phase -/

/-- INIT ends in READY or FATAL by the draw, whatever its items did on the way (rules R204, R208). -/
theorem phase_of_runRequest_initSequence {cfg : Config} {allocOk : Bool} {n : Nat} {req : RequestRef} {s t : State}
    (h : runRequest (initSequence cfg allocOk n req) s = .next t) :
    t.phase = if allocOk then .ready else .fatal := by
  rw [runRequest, initSequence, runItems_append] at h
  obtain ⟨u, -, hu⟩ := andThen_eq_next h
  cases allocOk with
  | false => cases hu; rfl
  | true =>
    simp only [if_true, initBringUpItems] at hu
    rw [runItems_append] at hu
    obtain ⟨v, -, hv⟩ := andThen_eq_next hu
    cases hv
    rfl

theorem State.EndsAtOnce.phase {s t : State} (h : s.EndsAtOnce t) : t.phase = s.phase := by
  rcases h with ⟨req, o, rfl⟩ | ⟨-, u, req, o, r, hu, rfl⟩
  · rfl
  · rw [State.answered_phase, hu.frame]

/-- Settles O16: a request that ends at once or runs a transaction keeps the phase, so the one that moved it is INIT. -/
theorem onlyInitMovesThePhase : Obligations.OnlyInitMovesThePhase := by
  intro s t hb h hne
  rcases step_cases h with ⟨-, -, rfl⟩ | ⟨it, rest, hb', -⟩ | ⟨hb', -⟩ | ⟨w, rest, -, hp, ⟨i, hd, h⟩ | ⟨e, -, h⟩⟩
  · exact absurd rfl hne
  · simp [hb] at hb'
  · simp [hb] at hb'
  · rcases exec_atOnce_or_sequence hd h with hend | ⟨items, hs⟩
    · exact absurd hend.phase hne
    · obtain ⟨he, ⟨n, rfl, hu, h1, h2, rfl⟩ | ⟨-, htr⟩⟩ := exec_of_requestSequence hs
      · exact ⟨w, rest, n, hp, hd, hu, h1, h2, phase_of_runRequest_initSequence (he ▸ h)⟩
      · obtain ⟨u, req, ⟨evs, L, rfl⟩, rfl⟩ := runRequest_transaction htr (he ▸ h)
        exact absurd rfl hne
  · exact absurd (refuseWord_endsAtOnce h).phase hne

/-! ### The invariant -/

/-- The conditions of `State.Inv` in phase READY, but for those of the request boundary itself (`busy`). -/
structure State.Up (s : State) : Prop where
  phase : s.phase = .ready
  cfg_wf : s.cfg.wf = true
  mem_wf : s.mem.wf = true
  mem_below : Memory.below s.cfg.bufferSize s.mem = true
  seqpos : s.seqpos = []
  boards : 1 ≤ s.boardCount ∧ s.boardCount ≤ s.cfg.maxBoards
  atRest : s.lines.atRest s.boardCount s.cfg.maxBoards
  memExists : s.memExists = true
  writeChannel : s.cfg.writeChannelPolicy = .ignoreInvalid → 0 ≤ s.writeChannel ∧ s.writeChannel < s.cfg.numChannel
  renderTarget : s.cfg.renderTargetPolicy = .ignoreInvalid → 0 ≤ s.renderTarget ∧ s.renderTarget < s.boardCount

theorem State.Inv.up {s : State} (h : s.Inv) (hp : s.phase = .ready) : s.Up := by
  obtain ⟨h1, h2, hrest⟩ := h.configured (by simp [hp])
  obtain ⟨hm, hwc, hrt⟩ := h.ready hp
  exact ⟨hp, h.cfg_wf, h.mem_wf, h.mem_within, h.idle.1, ⟨h1, h2⟩, hrest, hm, hwc, hrt⟩

/-- An answered request of a READY block is a request boundary (rule R34). -/
theorem State.Up.answered {s : State} (h : s.Up) (req : RequestRef) (o : ReqOutcome) (r : Response) :
    (s.answered req o r).Inv where
  cfg_wf := h.cfg_wf
  mem_wf := h.mem_wf
  mem_within := h.mem_below
  idle := ⟨h.seqpos, fun _ => rfl⟩
  uninit hp := by simp [h.phase] at hp
  configured _ := ⟨h.boards.1, h.boards.2, h.atRest⟩
  ready _ := ⟨h.memExists, h.writeChannel, h.renderTarget⟩
  fatal hp := by simp [h.phase] at hp

theorem State.Up.busy {s : State} (h : s.Up) (b : Bool) : ({ s with busy := b } : State).Up :=
  { h with }

theorem State.Up.emitted {s : State} (h : s.Up) (evs : List LineEvent) {L : Lines}
    (hL : L.atRest s.boardCount s.cfg.maxBoards) : (s.emitted evs L).Up :=
  { h with atRest := hL }

theorem State.Up.edits {s u : State} (h : s.Up) (hu : s.Edits u) : u.Up := by
  have hwc : s.cfg.writeChannelPolicy = .ignoreInvalid → 0 ≤ u.writeChannel ∧ u.writeChannel < s.cfg.numChannel := by
    intro hpol
    rcases hu.writeChannel with he | hv | hs
    · exact he ▸ h.writeChannel hpol
    · simpa [validChannel] using hv
    · simp [hpol] at hs
  have hrt : s.cfg.renderTargetPolicy = .ignoreInvalid → 0 ≤ u.renderTarget ∧ u.renderTarget < s.boardCount := by
    intro hpol
    rcases hu.renderTarget with he | hv | hs
    · exact he ▸ h.renderTarget hpol
    · simpa [validBoard] using hv
    · simp [hpol] at hs
  rw [hu.frame]
  exact { h with
    mem_wf := hu.mem_wf h.mem_wf, mem_below := hu.mem_below h.mem_below, writeChannel := hwc, renderTarget := hrt }

theorem State.Inv.withPort {s : State} (h : s.Inv) (p : List Word) : ({ s with port := p } : State).Inv :=
  { h with }

theorem State.Inv.refusedAs {s : State} (h : s.Inv) (hf : s.phase ≠ .fatal) (req : RequestRef) (o : ReqOutcome) :
    (s.refusedAs req o).Inv :=
  { h with
    idle := ⟨h.idle.1, fun _ => rfl⟩
    fatal := fun hp => absurd hp hf }

theorem State.Inv.endsAtOnce {s t : State} (h : s.Inv) (hf : s.phase ≠ .fatal) (ht : s.EndsAtOnce t) : t.Inv := by
  rcases ht with ⟨req, o, rfl⟩ | ⟨hp, u, req, o, r, hu, rfl⟩
  · exact h.refusedAs hf req o
  · exact ((h.up hp).edits hu).answered req o r

/-- A transaction of a READY block keeps the invariant: the lines are at rest again (rule R257). -/
theorem State.Up.transaction {s t : State} (h : s.Up) {items : List SeqItem} (hi : IsTransaction items)
    (ht : runRequest items s = .next t) : t.Inv := by
  obtain ⟨mask, frame, req, rfl, hf⟩ := hi
  rw [runRequest, runItems_append, runItems_bracket (s := { s with busy := true }) h.atRest mask hf, andThen_next] at ht
  cases ht
  exact ((h.busy true).emitted _ (h.atRest.afterBits _)).answered req .ok .ack

/-! ### INIT from power-on -/

theorem bringUpCommands_sendable {cfg : Config} (h : cfg.wf = true) :
    ∀ c ∈ bringUpCommands cfg, ChipCommand.sendable c = true := by
  have hmode : ∀ m ∈ [0x20#8, 0x24#8, 0x28#8, 0x2C#8], ChipCommand.sendable m = true := by decide
  obtain ⟨-, -, -, -, -, -, -, -, hm⟩ := Config.facts_of_wf h
  simp only [bringUpCommands, List.forall_mem_cons]
  exact ⟨rfl, hmode _ hm, rfl, rfl, rfl, by simp⟩

/-- The events of INIT steps (e) to (g) for `n` boards (rules R205 to R207). -/
def initBringUpEvents (cfg : Config) (n : Nat) : List LineEvent :=
  transactionEvents n cfg.initSelectMask ((commandItems (bringUpCommands cfg)).flatMap itemBits)
    ++ (List.range n).flatMap (blankRenderEvents cfg n)

/-- Steps (d) to (h) of INIT, from the lines that steps (b) and (c) leave. -/
theorem initBringUpItems_spec {s : State} (hw : s.cfg.wf = true)
    (hl : s.lines = .configured s.boardCount s.cfg.maxBoards) (req : RequestRef) :
    runItems (initBringUpItems s.cfg s.boardCount req) s =
      .next ((({ s with memExists := true, mem := [], renderTarget := 0, phase := .ready } : State).emitted
        (initBringUpEvents s.cfg s.boardCount) s.lines).answered req .ok .ack) := by
  have hrest : s.lines.atRest s.boardCount s.cfg.maxBoards := hl ▸ Lines.configured_atRest _ _
  have hlines : s.lines.afterBits ((commandItems (bringUpCommands s.cfg)).flatMap itemBits) = s.lines := by
    rw [hl]
    rfl
  have hcmds := runItems_bracket (s := { s with memExists := true, mem := [] }) hrest s.cfg.initSelectMask
    (commandItems_sends (bringUpCommands_sendable hw))
  simp only [hlines] at hcmds
  obtain ⟨r, hr⟩ := blankRenders_spec (s := ({ s with memExists := true, mem := [] } : State).emitted
    (transactionEvents s.boardCount s.cfg.initSelectMask
      ((commandItems (bringUpCommands s.cfg)).flatMap itemBits)) s.lines) (List.range s.boardCount) hl
  simp only [State.emitted_cfg, State.emitted_boardCount, State.emitted_lines] at hr
  have halloc : runItems [.allocate] s = .next { s with memExists := true, mem := [] } := rfl
  rw [initBringUpItems, runItems_append, runItems_append, runItems_append, halloc, andThen_next, hcmds, andThen_next,
    hr, andThen_next, initBringUpEvents]
  simp only [runItems, runItem, andThen_next, respond, ← State.emitted_emitted _ _ _ s.lines s.lines]
  rfl

/-- The state that steps (a) to (c) of INIT leave (rules R201 to R203). -/
def State.initConfigured (s : State) (n : Nat) : State :=
  ({ s with boardCount := n, writeChannel := 0 } : State).emitted (initConfigureEvents n)
    (.configured n s.cfg.maxBoards)

/-- INIT with a failed allocation, from power-on's lines (rule R204). -/
theorem runRequest_initSequence_of_allocFail {s : State} {n : Nat} (hl : s.lines = .off s.cfg.maxBoards)
    (hn : n ≤ s.cfg.maxBoards) (req : RequestRef) :
    runRequest (initSequence s.cfg false n req) s =
      .next { ({ s with busy := true } : State).initConfigured n with
        phase := .fatal, outcome := some ⟨req, .fatalAlloc⟩ } := by
  rw [runRequest, initSequence, runItems_append, initConfigureItems_spec (s := { s with busy := true }) hl hn]
  rfl

/-- INIT with a successful allocation, from power-on's lines (rules R204 to R209). -/
theorem runRequest_initSequence_of_allocOk {s : State} {n : Nat} (hw : s.cfg.wf = true)
    (hl : s.lines = .off s.cfg.maxBoards) (hn : n ≤ s.cfg.maxBoards) (req : RequestRef) :
    runRequest (initSequence s.cfg true n req) s =
      .next ((({ ({ s with busy := true } : State).initConfigured n with
          memExists := true, mem := [], renderTarget := 0, phase := .ready } : State).emitted
        (initBringUpEvents s.cfg n) (.configured n s.cfg.maxBoards)).answered req .ok .ack) := by
  rw [runRequest, initSequence, runItems_append, initConfigureItems_spec (s := { s with busy := true }) hl hn,
    andThen_next, if_pos rfl]
  exact initBringUpItems_spec (s := ({ s with busy := true } : State).initConfigured n) hw rfl req

/-- INIT of a block in the power-on conditions ends in the conditions of READY or of FATAL. -/
theorem State.Inv.init {s t : State} (h : s.Inv) (hp : s.phase = .uninit) {n : Nat} (h1 : 1 ≤ n)
    (h2 : n ≤ s.cfg.maxBoards) {req : RequestRef}
    (ht : runRequest (initSequence s.cfg s.allocOk n req) s = .next t) : t.Inv := by
  obtain ⟨-, hm, hmem, hl, -, hresp⟩ := h.uninit hp
  cases ha : s.allocOk with
  | false =>
    rw [ha, runRequest_initSequence_of_allocFail hl h2] at ht
    cases ht
    exact
      { cfg_wf := h.cfg_wf
        mem_wf := h.mem_wf
        mem_within := h.mem_within
        idle := ⟨h.idle.1, fun hne => absurd rfl hne⟩
        uninit := fun hu => nomatch hu
        configured := fun _ => ⟨h1, h2, Lines.configured_atRest n s.cfg.maxBoards⟩
        ready := fun hr => nomatch hr
        fatal := fun _ => ⟨rfl, hm, hmem, rfl, rfl, hresp⟩ }
  | true =>
    rw [ha, runRequest_initSequence_of_allocOk h.cfg_wf hl h2] at ht
    cases ht
    refine State.Up.answered ?_ req .ok .ack
    have hchannel : (0 : Int) < s.cfg.numChannel := by exact_mod_cast (Config.facts_of_wf h.cfg_wf).1
    have hboards : (0 : Int) < n := by exact_mod_cast h1
    exact
      { phase := rfl
        cfg_wf := h.cfg_wf
        mem_wf := rfl
        mem_below := rfl
        seqpos := h.idle.1
        boards := ⟨h1, h2⟩
        atRest := Lines.configured_atRest n s.cfg.maxBoards
        memExists := rfl
        writeChannel := fun _ => ⟨le_rfl, hchannel⟩
        renderTarget := fun _ => ⟨le_rfl, hboards⟩ }

/-- Every host request that completes keeps the invariant. -/
theorem State.Inv.exec_request {s t : State} (h : s.Inv) (hf : s.phase ≠ .fatal) {w : Word} {i : Instr}
    (hd : decode (.request w) = .ok i) (ht : exec i s = .next t) : t.Inv := by
  rcases exec_atOnce_or_sequence hd ht with hend | ⟨items, hs⟩
  · exact h.endsAtOnce hf hend
  · obtain ⟨he, ⟨n, -, hp, h1, h2, rfl⟩ | ⟨hp, htr⟩⟩ := exec_of_requestSequence hs
    · exact h.init hp (by omega) (by omega) (he ▸ ht)
    · exact (h.up hp).transaction htr (he ▸ ht)

/-- Settles O13: between requests a step accepts one request, which ends at once, runs a transaction, or brings the
block up. -/
theorem stepKeepsTheBoundaryConditions : Obligations.StepKeepsTheBoundaryConditions := by
  intro s t h hst
  obtain ⟨-, hf⟩ := live_of_step hst
  rcases step_cases hst with ⟨-, -, rfl⟩ | ⟨it, rest, -, hq, -⟩ | ⟨hb, -⟩ | ⟨w, rest, -, -, ⟨i, hd, ht⟩ | ⟨e, -, ht⟩⟩
  · exact h
  · simp [h.idle.1] at hq
  · simp [h.idle.2 hf] at hb
  · exact (h.withPort rest).exec_request hf hd ht
  · exact (h.withPort rest).endsAtOnce hf (refuseWord_endsAtOnce ht)

/-! ### The two readings of rule R31 -/

/-- The state with the sequencer at another position. -/
def State.atPos (s : State) (q : List SeqItem) : State := { s with seqpos := q }

theorem emit_atPos (evs : List LineEvent) (s : State) (q : List SeqItem) :
    emit evs (s.atPos q) = andThen (emit evs s) fun t => .next (t.atPos q) := by
  have hlines : (s.atPos q).lines = s.lines := rfl
  rw [emit, emit, hlines]
  cases Lines.applyAll evs s.lines <;> rfl

theorem writeBits_atPos (v n : Nat) (s : State) (q : List SeqItem) :
    writeBits v n (s.atPos q) = andThen (writeBits v n s) fun t => .next (t.atPos q) := by
  have hstrobe : strobeLow (s.atPos q) = strobeLow s := rfl
  unfold writeBits
  rw [hstrobe]
  split_ifs
  · exact emit_atPos _ s q
  · rfl

theorem writeSingleBit_atPos (s : State) (q : List SeqItem) :
    writeSingleBit (s.atPos q) = andThen (writeSingleBit s) fun t => .next (t.atPos q) := by
  have hstrobe : strobeLow (s.atPos q) = strobeLow s := rfl
  unfold writeSingleBit
  rw [hstrobe]
  split_ifs
  · exact emit_atPos _ s q
  · rfl

theorem writeCommand_atPos (c : Byte) (s : State) (q : List SeqItem) :
    writeCommand c (s.atPos q) = andThen (writeCommand c s) fun t => .next (t.atPos q) := by
  simp only [writeCommand, writeBits_atPos, andThen_assoc, andThen_next, writeSingleBit_atPos]

/-- No item reads or writes the sequencer's position. -/
theorem runItem_atPos (it : SeqItem) (s : State) (q : List SeqItem) :
    runItem it (s.atPos q) = andThen (runItem it s) fun t => .next (t.atPos q) := by
  cases it with
  | configure l low => exact emit_atPos _ s q
  | select mask => exact emit_atPos _ s q
  | id v =>
    simp only [runItem, sendId]
    split_ifs
    · exact writeBits_atPos _ _ s q
    · rfl
  | command c =>
    simp only [runItem, sendCommand]
    split_ifs
    · exact writeCommand_atPos c s q
    · rfl
  | address a => exact writeBits_atPos _ _ s q
  | data w => exact writeBits_atPos _ _ s q
  | record | allocate | allocFail | target | ready | respond => rfl

/-- After an inner item of a live block the block is live and still busy. -/
theorem runItem_inner {it : SeqItem} (hi : it.inner = true) {s t : State} (h : runItem it s = .next t) :
    t.busy = s.busy ∧ (s.phase ≠ .fatal → t.phase ≠ .fatal) := by
  by_cases hl : it.onLines = true
  · obtain ⟨evs, L, rfl⟩ := runItem_emits hl h
    exact ⟨rfl, id⟩
  · cases it with
    | record | allocate | target => cases h; exact ⟨rfl, id⟩
    | ready => cases h; exact ⟨rfl, fun _ => nofun⟩
    | allocFail | respond => cases hi
    | configure | select | id | command | address | data => exact absurd rfl hl

/-- A step at an item of a sequence runs it and leaves the sequencer at the next one. -/
theorem step_atPos {s : State} (hw : s.cfg.wf = true) (hf : s.phase ≠ .fatal) (hb : s.busy = true) (it : SeqItem)
    (rest : List SeqItem) :
    step (s.atPos (it :: rest)) = andThen (runItem it s) fun t => .next (t.atPos rest) := by
  have hbusy : (s.atPos (it :: rest)).busy = true := hb
  rw [step_of_live (s := s.atPos (it :: rest)) hw hf, if_pos hbusy]
  exact runItem_atPos it s rest

theorem run_succ (k : Nat) (s : State) :
    Host.Core.run Sys2Proof.core (k + 1) s = andThen (step s) (Host.Core.run Sys2Proof.core k) := by
  have hstep : Sys2Proof.core.step s = step s := rfl
  simp only [Host.Core.run, hstep]
  cases step s <;> rfl

/-- Running a sequence item by item, one step an item, ends as running it at once, with the sequencer at its end. Only
the last item may end the request. -/
theorem run_atPos (last : SeqItem) {body : List SeqItem} (hi : ∀ it ∈ body, it.inner = true) {s : State}
    (hw : s.cfg.wf = true) (hf : s.phase ≠ .fatal) (hb : s.busy = true) :
    Host.Core.run Sys2Proof.core (body ++ [last]).length (s.atPos (body ++ [last])) =
      andThen (runItems (body ++ [last]) s) fun t => .next (t.atPos []) := by
  induction body generalizing s with
  | nil =>
    show Host.Core.run Sys2Proof.core (0 + 1) (s.atPos [last]) = _
    rw [run_succ, step_atPos hw hf hb, List.nil_append, runItems]
    cases runItem last s <;> rfl
  | cons it rest ih =>
    rw [List.cons_append, List.length_cons, run_succ, step_atPos hw hf hb, runItems]
    cases hr : runItem it s with
    | fault f => rfl
    | refused q => rfl
    | next u =>
      obtain ⟨hbusy, hlive⟩ := runItem_inner (hi it (by simp)) hr
      exact ih (fun it hit => hi it (by simp [hit])) ((runItem_follows hr).cfg ▸ hw) (hlive hf) (hbusy.trans hb)

theorem SeqItem.inner_of_onLines {it : SeqItem} (h : it.onLines = true) : it.inner = true := by
  cases it with
  | allocFail | respond => cases h
  | _ => rfl

theorem initConfigureItems_inner {n : Nat} : ∀ it ∈ initConfigureItems n, it.inner = true := by
  intro it hit
  simp only [initConfigureItems, List.mem_append, List.mem_map, List.mem_cons, List.not_mem_nil, or_false] at hit
  rcases hit with (rfl | ⟨i, -, rfl⟩) | rfl | rfl | rfl <;> rfl

theorem bracket_inner {mask : Nat} {frame : List SeqItem} (hf : ∀ it ∈ frame, itemSends it = true) :
    ∀ it ∈ bracket mask frame, it.inner = true :=
  fun it hit => SeqItem.inner_of_onLines (bracket_onLines hf it hit)

theorem blankRenderItems_inner {cfg : Config} {b : Nat} : ∀ it ∈ blankRenderItems cfg b, it.inner = true :=
  List.forall_mem_cons.mpr ⟨rfl, bracket_inner ramWriteItems_sends⟩

/-- Only the last item of INIT's sequence ends the request. -/
theorem initSequence_body {cfg : Config} (hw : cfg.wf = true) (allocOk : Bool) (n : Nat) (req : RequestRef) :
    ∃ body last, initSequence cfg allocOk n req = body ++ [last] ∧ ∀ it ∈ body, it.inner = true := by
  cases allocOk with
  | false => exact ⟨_, _, rfl, initConfigureItems_inner⟩
  | true =>
    refine ⟨initConfigureItems n ++ ([.allocate] ++ bracket cfg.initSelectMask (commandItems (bringUpCommands cfg))
      ++ (List.range n).flatMap (blankRenderItems cfg) ++ [.target 0, .ready]), .respond req .ack,
      by simp [initSequence, initBringUpItems], ?_⟩
    simp only [List.forall_mem_append, List.forall_mem_cons, List.forall_mem_flatMap]
    exact ⟨initConfigureItems_inner,
      ⟨⟨⟨rfl, nofun⟩, bracket_inner (commandItems_sends (bringUpCommands_sendable hw))⟩,
        fun b _ => blankRenderItems_inner⟩, rfl, rfl, nofun⟩

theorem IsTransaction.body {items : List SeqItem} (h : IsTransaction items) :
    ∃ body last, items = body ++ [last] ∧ ∀ it ∈ body, it.inner = true := by
  obtain ⟨mask, frame, req, rfl, hf⟩ := h
  exact ⟨_, _, rfl, bracket_inner hf⟩

/-- Settles O20: only the last item of a request's sequence ends it, and no item reads the position. -/
theorem atomicStepIsTheItemByItemRun : Obligations.AtomicStepIsTheItemByItemRun := by
  intro s i items hw hq hs
  obtain ⟨he, hcases⟩ := exec_of_requestSequence hs
  obtain ⟨hf, body, last, rfl, hbody⟩ :
      s.phase ≠ .fatal ∧ ∃ body last, items = body ++ [last] ∧ ∀ it ∈ body, it.inner = true := by
    rcases hcases with ⟨n, -, hp, -, -, rfl⟩ | ⟨hp, htr⟩
    · exact ⟨by simp [hp], initSequence_body hw _ _ _⟩
    · exact ⟨by simp [hp], htr.body⟩
  have hrun := run_atPos last hbody (s := { s with busy := true }) hw hf rfl
  rw [he]
  refine Eq.trans hrun ?_
  rw [runRequest]
  cases hr : runItems (body ++ [last]) { s with busy := true } with
  | fault f => rfl
  | refused q => rfl
  | next t =>
    have hpos : t.seqpos = [] := (runItems_follows hr).seqpos.trans hq
    rw [andThen_next, State.atPos, ← hpos]

end Sys2Proof.Machine
end

section
/-! PROOFS. The family of the encoding: the decoder against the encoder in both directions, the opcode map, and the
protocol words and frames that the transmitter sends or refuses. -/

namespace Sys2Proof

/-! ### The fields of a request word -/

section
variable (op : BitVec 4) (a b c : Byte) (r : BitVec 4)

@[simp] theorem Word.op_ofFields : Word.op (op ++ a ++ b ++ c ++ r) = op := (fields_wordOfFields op a b c r).1
@[simp] theorem Word.fieldA_ofFields : Word.fieldA (op ++ a ++ b ++ c ++ r) = a := (fields_wordOfFields op a b c r).2.1
@[simp] theorem Word.fieldB_ofFields : Word.fieldB (op ++ a ++ b ++ c ++ r) = b :=
  (fields_wordOfFields op a b c r).2.2.1
@[simp] theorem Word.fieldC_ofFields : Word.fieldC (op ++ a ++ b ++ c ++ r) = c :=
  (fields_wordOfFields op a b c r).2.2.2.1
@[simp] theorem Word.rsv_ofFields : Word.rsv (op ++ a ++ b ++ c ++ r) = r := (fields_wordOfFields op a b c r).2.2.2.2

/-! The zero fields of a word, written as one. -/

theorem wordOfFields_AB : (op ++ a ++ b ++ 0x000#12 : Word) = op ++ a ++ b ++ 0#8 ++ 0#4 :=
  (BitVec.append_assoc (x₁ := op ++ a ++ b) (x₂ := 0#8) (x₃ := 0#4)).symm

theorem wordOfFields_A : (op ++ a ++ 0x00000#20 : Word) = op ++ a ++ 0#8 ++ 0#8 ++ 0#4 :=
  (BitVec.append_assoc (x₁ := op ++ a) (x₂ := 0#8) (x₃ := 0#12)).symm.trans (wordOfFields_AB op a 0#8)

@[simp] theorem Word.op_ofPayload (p : BitVec 28) : Word.op (op ++ p) = op := BitVec.extractLsb'_append_eq_left
@[simp] theorem Word.payload_ofPayload (p : BitVec 28) : Word.payload (op ++ p) = p :=
  BitVec.extractLsb'_append_eq_right

end

/-! ### The rows of the opcode map -/

/-- Settles O3: the fields of each word, then its row; the four rows without operands are fixed words. -/
theorem requestWordFields : Obligations.RequestWordFields := by
  intro a b c
  simp only [wordOfFields_A, wordOfFields_AB]
  refine ⟨?_, ?_, ?_, ?_, ?_, ?_, ?_, ?_, ?_, rfl, rfl, rfl, rfl, ?_⟩ <;>
    simp [decode, decodeRequest, ifZero, operand]

theorem decode_reservedOp0 (p : BitVec 28) : decode (.request (0x0#4 ++ p)) = .ok (.reservedOp0 p) := by
  simp [decode, decodeRequest]

theorem decode_reservedOpF (p : BitVec 28) : decode (.request (0xF#4 ++ p)) = .ok (.reservedOpF p) := by
  simp [decode, decodeRequest]

/-- Settles O4, by evaluation of the fixed words. -/
theorem sampleWordsDecode : Obligations.SampleWordsDecode := by
  unfold Obligations.SampleWordsDecode
  decide

/-! ### The decoder after the encoder -/

theorem decodeCommandCode_pwmOfField (d : Nibble) : decodeCommandCode (ChipCommand.pwmOfField d) = .ok (.pwm d) := by
  revert d
  decide

/-- The bits of a command frame decode to its commands (rule R81). -/
theorem decode_commandFrame {cmds : List Byte} (h : cmds ≠ []) (cfg : Config) :
    decode (encode cfg (.commandFrame cmds)) = .ok (.commandFrame cmds) := by
  cases cmds with
  | nil => exact absurd rfl h
  | cons c cs =>
    show decodeFrame (true :: false :: false :: (c :: cs).flatMap commandBits) = _
    rw [decodeFrame, decodeCommands_commandBits]

/-- The bits of a RAM-write frame decode to its words (rule R81). -/
theorem decode_ramWriteFrame (words : List Nibble) (cfg : Config) :
    decode (encode cfg (.ramWriteFrame words)) = .ok (.ramWriteFrame words) := by
  have hwords : (bitsMSB 0 7 ++ words.flatMap nibbleBits).drop 7 = words.flatMap nibbleBits := rfl
  show decodeFrame (true :: false :: true :: (bitsMSB 0 7 ++ words.flatMap nibbleBits)) = _
  rw [decodeFrame, hwords, decodeNibbles_nibbleBits]
  rfl

/-- Settles O1, row by row: a request's operands fit their fields and come back from them, a fixed code is looked up in
its table, and a frame is read back word by word. -/
theorem decodeOfEncodeIsTheInstruction : Obligations.DecodeOfEncodeIsTheInstruction := by
  intro cfg i h
  cases i with
  | init n | selectWriteChannel n | selectRenderTarget n =>
    have hn : fitsField n = true := h
    simp [encode, decode, requestWord, decodeRequest, ifZero, hn, Instr.expand]
  | setPixel x y | clearPixel x y | getPixel x y =>
    obtain ⟨hx, hy⟩ : fitsField x = true ∧ fitsField y = true := by simpa [Instr.wellFormed] using h
    simp [encode, decode, requestWord, decodeRequest, ifZero, hx, hy, Instr.expand]
  | setPixelCh x y ch | clearPixelCh x y ch | getPixelCh x y ch =>
    obtain ⟨⟨hx, hy⟩, hc⟩ : (fitsField x = true ∧ fitsField y = true) ∧ fitsField ch = true := by
      simpa [Instr.wellFormed] using h
    simp [encode, decode, requestWord, decodeRequest, ifZero, hx, hy, hc, Instr.expand]
  | fill | fillAll | clear | render => rfl
  | setBrightness level mask =>
    obtain ⟨hl, hm⟩ : fitsField level = true ∧ mask < 256 := by simpa [Instr.wellFormed] using h
    simp [encode, decode, requestWord, decodeRequest, ifZero, hl, hm, Instr.expand, Nat.mod_eq_of_lt]
  | setBrightnessCurrent level =>
    obtain ⟨hl, hm⟩ : fitsField level = true ∧ cfg.currentBoardSentinel < 256 := by
      simpa [Instr.wellFormed] using h
    simp [encode, decode, requestWord, decodeRequest, ifZero, hl, hm, Instr.expand, Nat.mod_eq_of_lt]
  | reservedOp0 p => exact decode_reservedOp0 p
  | reservedOpF p => exact decode_reservedOpF p
  | idCmd | idWr | idRd => rfl
  | sysDis | sysEn | ledOff | ledOn | blinkOff | blinkOn | slaveMode | masterMode => rfl
  | intClk | extClk | com20 | com24 | com28 | com2C => rfl
  | pwm d => exact (Machine.decode_commandWord _).trans (decodeCommandCode_pwmOfField d)
  | commandFrame cmds => exact decode_commandFrame (by simpa [Instr.wellFormed] using h) cfg
  | ramWriteFrame words => exact decode_ramWriteFrame words cfg

/-! ### The encoder after the decoder -/

@[simp] theorem ofInt_operand (f : Byte) : BitVec.ofInt 8 (operand f) = f := by
  simp [operand]

theorem unused_of_ifZero {w : Word} {u : Bool} {i j : Instr} (h : ifZero w u j = .ok i) : u = true := by
  unfold ifZero at h
  split at h
  · assumption
  · cases h

/-- A word is the word of its own fields (rule R71). -/
theorem requestWord_of_fields {w : Word} {op : BitVec 4} {a b c : Int} (hop : (Word.op w).toNat = op.toNat)
    (ha : BitVec.ofInt 8 a = Word.fieldA w) (hb : BitVec.ofInt 8 b = Word.fieldB w)
    (hc : BitVec.ofInt 8 c = Word.fieldC w) (hr : Word.rsv w = 0) : requestWord op a b c = .request w := by
  rw [requestWord, ha, hb, hc, ← BitVec.eq_of_toNat_eq hop]
  have hw := wordOfFields w
  rw [hr] at hw
  exact congrArg Code.request hw.symm

theorem request_of_payload {w : Word} {op : BitVec 4} (hop : (Word.op w).toNat = op.toNat) :
    Code.request (op ++ Word.payload w) = .request w := by
  rw [← BitVec.eq_of_toNat_eq hop, ← wordOfPayload]

/-- Settles O2: a row that decodes reads some fields and finds the others zero, and the encoder writes both back. -/
theorem encodeOfDecodedWordIsTheWord : Obligations.EncodeOfDecodedWordIsTheWord := by
  intro cfg w i h
  change decodeRequest w = .ok i at h
  unfold decodeRequest at h
  split at h
  case h_1 hop =>
    cases h
    exact request_of_payload hop
  case h_16 =>
    cases h
    have hlt := (Word.op w).isLt
    have hop : (Word.op w).toNat = 15 := by
      simp only [imp_false] at *
      omega
    exact request_of_payload hop
  all_goals
    have hz := unused_of_ifZero h
    cases Machine.eq_of_ifZero h
    simp only [Bool.and_eq_true, decide_eq_true_eq] at hz
  case h_2 hop | h_3 hop | h_4 hop =>
    obtain ⟨⟨hr, hc⟩, hb⟩ := hz
    exact requestWord_of_fields hop (ofInt_operand _) hb.symm hc.symm hr
  case h_5 hop | h_6 hop | h_7 hop =>
    obtain ⟨hr, hc⟩ := hz
    exact requestWord_of_fields hop (ofInt_operand _) (ofInt_operand _) hc.symm hr
  case h_8 hop | h_9 hop | h_10 hop =>
    exact requestWord_of_fields hop (ofInt_operand _) (ofInt_operand _) (ofInt_operand _) hz
  case h_11 hop | h_12 hop | h_13 hop | h_14 hop =>
    obtain ⟨⟨⟨hr, hc⟩, hb⟩, ha⟩ := hz
    exact requestWord_of_fields hop ha.symm hb.symm hc.symm hr
  case h_15 hop =>
    obtain ⟨hr, hc⟩ := hz
    exact requestWord_of_fields hop (ofInt_operand _) (ofInt_operand _) hc.symm hr

end Sys2Proof

namespace Sys2Proof.Machine

/-! ### What the transmitter sends -/

/-- Sending at least one bit moves DATA to the last bit and extends the trace; nothing else changes (rules R151, R155). -/
theorem State.transmit_eq {s : State} (h : s.lines.canSend) {bs : List Bool} (hne : bs ≠ []) :
    s.transmit bs =
      { s with lines := { s.lines with data := ⟨if bs.getLastD false then .hi else .lo, true⟩ },
               traceRev := (s.transmit bs).traceRev } := by
  rw [← Lines.afterBits_eq h hne]
  rfl

theorem State.length_trace_transmit (s : State) (bs : List Bool) :
    (s.transmit bs).trace.length = s.trace.length + 5 * bs.length := by
  rw [State.transmit_trace, List.length_append, length_bitsEvents]

/-- A PWM command's bits: the base's high nibble, the duty field, the padding (rules R79, R83). -/
theorem commandBits_pwmOfField (d : Nibble) :
    commandBits (ChipCommand.pwmOfField d) = [true, false, true, false] ++ bitsMSB d.toNat 4 ++ [false] := by
  revert d
  decide

theorem pwmOfField_sendable (d : Nibble) : ChipCommand.sendable (ChipCommand.pwmOfField d) = true := by
  revert d
  decide

theorem itemBits_ne_nil {it : SeqItem} (h : itemSends it = true) : itemBits it ≠ [] := by
  cases it with
  | id | command | address | data => exact List.cons_ne_nil _ _
  | _ => cases h

/-- Settles O36: each of the rows is one item that the transmitter sends, whose bits are the row's. -/
theorem protocolWordsAreSent : Obligations.ProtocolWordsAreSent := by
  intro s d i bs hmem hw hd
  have h : s.lines.canSend := ⟨hw, hd⟩
  obtain ⟨it, hrun, hsend, rfl⟩ : ∃ it, exec i s = runItem it s ∧ itemSends it = true ∧ itemBits it = bs := by
    simp only [List.mem_cons, Prod.mk.injEq, List.not_mem_nil, or_false] at hmem
    rcases hmem with ⟨rfl, rfl⟩ | ⟨rfl, rfl⟩ | ⟨rfl, rfl⟩ | ⟨rfl, rfl⟩ | ⟨rfl, rfl⟩ | ⟨rfl, rfl⟩ | ⟨rfl, rfl⟩
      | ⟨rfl, rfl⟩ | ⟨rfl, rfl⟩ | ⟨rfl, rfl⟩
    · exact ⟨.id ProtocolId.cmd, rfl, rfl, rfl⟩
    · exact ⟨.id ProtocolId.wr, rfl, rfl, rfl⟩
    · exact ⟨.command ChipCommand.sysDis, rfl, rfl, rfl⟩
    · exact ⟨.command ChipCommand.sysEn, rfl, rfl, rfl⟩
    · exact ⟨.command ChipCommand.ledOn, rfl, rfl, rfl⟩
    · exact ⟨.command ChipCommand.com20, rfl, rfl, rfl⟩
    · exact ⟨.command ChipCommand.com24, rfl, rfl, rfl⟩
    · exact ⟨.command ChipCommand.com28, rfl, rfl, rfl⟩
    · exact ⟨.command ChipCommand.com2C, rfl, rfl, rfl⟩
    · exact ⟨.command (ChipCommand.pwmOfField d), rfl, pwmOfField_sendable d, commandBits_pwmOfField d⟩
  exact ⟨s.transmit (itemBits it), hrun.trans (runItem_sends h hsend), s.transmit_trace _,
    State.transmit_eq h (itemBits_ne_nil hsend)⟩

/-! ### Frames -/

theorem commandItems_bits (cmds : List Byte) :
    (commandItems cmds).flatMap itemBits = [true, false, false] ++ cmds.flatMap commandBits := by
  rw [commandItems, List.flatMap_cons, List.flatMap_map]
  rfl

/-- A command ends with its padding bit, so a command frame leaves DATA low (rule R79). -/
theorem getLastD_commandFrame {cmds : List Byte} (h : cmds ≠ []) :
    ([true, false, false] ++ cmds.flatMap commandBits).getLastD false = false := by
  obtain ⟨init, c, rfl⟩ := (List.eq_nil_or_concat cmds).resolve_left h
  rw [List.concat_eq_append, List.flatMap_append, List.flatMap_singleton, commandBits, ← List.append_assoc,
    ← List.append_assoc, List.getLastD_concat]

theorem length_flatMap_commandBits (cmds : List Byte) : (cmds.flatMap commandBits).length = 9 * cmds.length := by
  simp [commandBits, Nat.mul_comm]

theorem length_flatMap_nibbleBits (words : List Nibble) : (words.flatMap nibbleBits).length = 4 * words.length := by
  simp [nibbleBits, Nat.mul_comm]

theorem execCommandFrame_of_ne_nil {cmds : List Byte} (h : cmds ≠ []) (s : State) :
    execCommandFrame cmds s = runItems (commandItems cmds) s := by
  cases cmds with
  | nil => exact absurd rfl h
  | cons c cs => rfl

/-- Settles O38: the transmitter sends every item of the frame, and the last bit is a padding bit. -/
theorem commandFrameIsSent : Obligations.CommandFrameIsSent := by
  intro s cmds hne hs hw hd
  have h : s.lines.canSend := ⟨hw, hd⟩
  have hexec : exec (.commandFrame cmds) s = .next (s.transmit ([true, false, false] ++ cmds.flatMap commandBits)) := by
    rw [← commandItems_bits, ← runItems_sends (commandItems_sends hs) h]
    exact execCommandFrame_of_ne_nil hne s
  have hframe : [true, false, false] ++ cmds.flatMap commandBits ≠ [] := List.cons_ne_nil _ _
  have hlines := State.transmit_eq h hframe
  rw [getLastD_commandFrame hne] at hlines
  refine ⟨_, hexec, s.transmit_trace _, ?_, hlines⟩
  rw [State.length_trace_transmit, List.length_append, length_flatMap_commandBits]
  rfl

/-- A RAM-write frame is sent bit by bit (rules R80, R81). -/
theorem execRamWriteFrame_spec {s : State} (h : s.lines.canSend) (words : List Nibble) :
    execRamWriteFrame words s = .next (s.transmit (Claims.ramWriteHeader ++ words.flatMap nibbleBits)) := by
  have hsend : ∀ it ∈ [SeqItem.id ProtocolId.wr, .address 0] ++ words.map SeqItem.data, itemSends it = true := by
    simp [itemSends, show ProtocolId.sendable ProtocolId.wr = true from rfl]
  rw [execRamWriteFrame, runItems_sends hsend h, List.flatMap_append, List.flatMap_map]
  rfl

/-- Settles O39: the transmitter sends every item of the frame. -/
theorem ramWriteFrameIsSent : Obligations.RamWriteFrameIsSent := by
  intro s words hw hd bs
  have h : s.lines.canSend := ⟨hw, hd⟩
  refine ⟨s.transmit bs, execRamWriteFrame_spec h words, s.transmit_trace _, ?_,
    State.transmit_eq h (List.cons_ne_nil _ _)⟩
  have hlen : bs.length = 10 + 4 * words.length :=
    List.length_append.trans (congrArg (10 + ·) (length_flatMap_nibbleBits words))
  rw [State.length_trace_transmit, hlen]

/-! ### Refusals -/

/-- Settles O37: a row that is never sent is refused by its code, a frame by its first such command. -/
theorem neverSentWordsAreRefused : Obligations.NeverSentWordsAreRefused := by
  intro s
  refine ⟨rfl, rfl, rfl, rfl, rfl, rfl, rfl, rfl, rfl, fun hw hd sent c rest hs hc => ?_⟩
  have hne : sent ++ c :: rest ≠ [] := List.append_ne_nil_of_right_ne_nil _ (List.cons_ne_nil _ _)
  exact (execCommandFrame_of_ne_nil hne s).trans (runItems_commandItems_of_not_sendable ⟨hw, hd⟩ hs hc)

theorem refuseWord_of_not_fatal {s : State} (h : s.phase ≠ .fatal) (w : Word) :
    refuseWord w s = .next (s.refusedAs (.word w) .refusedReservedEncoding) := by
  unfold refuseWord
  cases hp : s.phase with
  | fatal => exact absurd hp h
  | uninit | ready => rfl

/-- Settles O52: both rows are the refusal of their word. -/
theorem reservedOpsAreRefused : Obligations.ReservedOpsAreRefused := by
  intro s p h
  exact ⟨refuseWord_of_not_fatal h _, refuseWord_of_not_fatal h _⟩

end Sys2Proof.Machine
end

section
/-! PROOFS. The family of the frame buffer: its requests act on no line, the address decoder and its inverse, and what the
pixel and the bulk requests answer and leave in the buffer. -/

namespace Sys2Proof.Machine

/-! ### Requests that act on no line (rule R116) -/

/-- The state with other line levels and another trace. -/
def State.withWires (s : State) (L : Lines) (tr : List LineEvent) : State := { s with lines := L, traceRev := tr }

/-- An operation that neither reads nor writes the lines and the trace: with others it answers the same state, but for
them. -/
def Wireless (k : State → Result) : Prop :=
  ∀ s L tr, k (s.withWires L tr) = andThen (k s) fun t => .next (t.withWires L tr)

theorem Wireless.of_next {k : State → Result} (hk : Wireless k) {s t : State} (h : k s = .next t) (L : Lines)
    (tr : List LineEvent) : k (s.withWires L tr) = .next (t.withWires L tr) := by
  rw [hk, h, andThen_next]

theorem Wireless.whenReady {k : State → Result} (hk : Wireless k) (req : RequestRef) :
    Wireless fun s => whenReady req s k := by
  intro s L tr
  have hphase : (s.withWires L tr).phase = s.phase := rfl
  simp only [Machine.whenReady, hphase]
  cases s.phase with
  | ready => exact hk s L tr
  | uninit | fatal => rfl

theorem memWrite_withWires (s : State) (L : Lines) (tr : List LineEvent) (c o : Nat) (v : Byte) :
    memWrite (s.withWires L tr) c o v = (memWrite s c o v).map (·.withWires L tr) := by
  have haddress : addressOk (s.withWires L tr) c o = addressOk s c o := rfl
  unfold memWrite
  rw [haddress]
  split_ifs <;> rfl

theorem memWriteAll_withWires (v : Byte) (addrs : List (Nat × Nat)) (s : State) (L : Lines) (tr : List LineEvent) :
    memWriteAll v addrs (s.withWires L tr) = (memWriteAll v addrs s).map (·.withWires L tr) := by
  induction addrs generalizing s with
  | nil => rfl
  | cons a rest ih =>
    simp only [memWriteAll, memWrite_withWires]
    cases memWrite s a.1 a.2 v with
    | none => rfl
    | some u => exact ih u

theorem modifyPixel_wireless (req : RequestRef) (c x y : Int) (f : Byte → Byte → Byte) :
    Wireless (modifyPixel req c x y f) := by
  intro s L tr
  have hcfg : (s.withWires L tr).cfg = s.cfg := rfl
  have hread (c o : Nat) : memRead (s.withWires L tr) c o = memRead s c o := rfl
  simp only [modifyPixel, hcfg, hread, memWrite_withWires]
  cases pixelOperand s.cfg c x y with
  | none => rfl
  | some a =>
    simp only
    cases memRead s a.1 a.2.1 with
    | none => rfl
    | some b =>
      simp only
      cases memWrite s a.1 a.2.1 (f b a.2.2) <;> rfl

theorem readPixel_wireless (req : RequestRef) (c x y : Int) : Wireless (readPixel req c x y) := by
  intro s L tr
  have hcfg : (s.withWires L tr).cfg = s.cfg := rfl
  have hread (c o : Nat) : memRead (s.withWires L tr) c o = memRead s c o := rfl
  simp only [readPixel, hcfg, hread]
  cases pixelOperand s.cfg c x y with
  | none => rfl
  | some a =>
    simp only
    cases memRead s a.1 a.2.1 <;> rfl

theorem fillAddresses_wireless (req : RequestRef) (v : Byte) (addrs : List (Nat × Nat)) :
    Wireless (fillAddresses req v addrs) := by
  intro s L tr
  simp only [fillAddresses, memWriteAll_withWires]
  cases memWriteAll v addrs s <;> rfl

theorem execFill_wireless : Wireless execFill := by
  refine Wireless.whenReady (fun s L tr => ?_) _
  have hvalid : validChannel (s.withWires L tr).cfg (s.withWires L tr).writeChannel
      = validChannel s.cfg s.writeChannel := rfl
  simp only [hvalid]
  split_ifs
  · exact fillAddresses_wireless _ _ _ s L tr
  · rfl

theorem execSelectWriteChannel_wireless (n : Int) : Wireless (execSelectWriteChannel n) := by
  refine Wireless.whenReady (fun s L tr => ?_) _
  have hcfg : (s.withWires L tr).cfg = s.cfg := rfl
  simp only [hcfg]
  split_ifs <;> rfl

theorem exec_wireless {i : Instr}
    (hi : ∃ x y c n, i ∈ [.setPixel x y, .clearPixel x y, .getPixel x y, .setPixelCh x y c, .clearPixelCh x y c,
      .getPixelCh x y c, .fill, .fillAll, .clear, .selectWriteChannel n]) : Wireless (exec i) := by
  obtain ⟨x, y, c, n, hi⟩ := hi
  simp only [List.mem_cons, List.not_mem_nil, or_false] at hi
  rcases hi with rfl | rfl | rfl | rfl | rfl | rfl | rfl | rfl | rfl | rfl
  · exact .whenReady (fun s => modifyPixel_wireless _ s.writeChannel x y setMask s) _
  · exact .whenReady (fun s => modifyPixel_wireless _ s.writeChannel x y clearMask s) _
  · exact .whenReady (fun s => readPixel_wireless _ s.writeChannel x y s) _
  · exact .whenReady (modifyPixel_wireless _ c x y setMask) _
  · exact .whenReady (modifyPixel_wireless _ c x y clearMask) _
  · exact .whenReady (readPixel_wireless _ c x y) _
  · exact execFill_wireless
  · exact .whenReady (fun s => fillAddresses_wireless _ _ (allAddresses s.cfg) s) _
  · exact .whenReady (fun s => fillAddresses_wireless _ _ (allAddresses s.cfg) s) _
  · exact execSelectWriteChannel_wireless n

/-- Settles O21: a request of this family is wireless. Its own lines and trace stand in for other ones, so they come back
unchanged. -/
theorem bufferRequestsTouchNoLine : Obligations.BufferRequestsTouchNoLine := by
  intro s t i hi h
  have hk := (exec_wireless hi).of_next h
  have hsame : t = t.withWires s.lines s.traceRev := Host.Outcome.next.inj (h.symm.trans (hk s.lines s.traceRev))
  have htrace : t.traceRev = s.traceRev := (congrArg State.traceRev hsame).trans rfl
  refine ⟨(congrArg State.lines hsame).trans rfl, congrArg List.reverse htrace, fun L => ?_⟩
  simpa only [State.withWires, htrace] using hk L s.traceRev

/-! ### The address decoder -/

theorem validPixel_iff {cfg : Config} {x y : Int} :
    validPixel cfg x y = true ↔ 0 ≤ x ∧ x < cfg.outSize ∧ 0 ≤ y ∧ y < cfg.comSize := by
  simp [validPixel, and_assoc]

theorem decodePixel_of_invalid {cfg : Config} {x y : Int}
    (h : ¬ (0 ≤ x ∧ x < cfg.outSize ∧ 0 ≤ y ∧ y < cfg.comSize)) : decodePixel cfg x y = none :=
  if_neg (mt validPixel_iff.mp h)

theorem decodePixel_of_valid {cfg : Config} {x y : Int}
    (h : 0 ≤ x ∧ x < cfg.outSize ∧ 0 ≤ y ∧ y < cfg.comSize) :
    decodePixel cfg x y = some (pixelOffset cfg x.toNat y.toNat, pixelMask cfg y.toNat) :=
  if_pos (validPixel_iff.mpr h)

/-- Settles O22: the formulas are the definitions of `pixelOffset` and `pixelMask`. -/
theorem addressDecoderFormulas : Obligations.AddressDecoderFormulas :=
  fun _ _ _ => ⟨decodePixel_of_invalid, decodePixel_of_valid⟩

theorem bitIndex_le (cfg : Config) (y : Nat) : bitIndex cfg y ≤ cfg.pixelsPerByte - 1 := Nat.sub_le _ _

theorem bitIndex_lt_eight {cfg : Config} (hw : cfg.wf = true) (y : Nat) : bitIndex cfg y < 8 := by
  obtain ⟨-, -, -, hp, hp', -⟩ := Config.facts_of_wf hw
  have := bitIndex_le cfg y
  omega

/-- The mask has one bit set (rule R102). -/
theorem getLsbD_pixelMask {cfg : Config} (hw : cfg.wf = true) (y k : Nat) :
    (pixelMask cfg y).getLsbD k = decide (k = bitIndex cfg y) := by
  rw [pixelMask, ← BitVec.twoPow_eq, BitVec.getLsbD_twoPow, decide_eq_true (bitIndex_lt_eight hw y), Bool.true_and]
  exact decide_eq_decide.mpr eq_comm

/-- With eight pixels in a byte the mask is the top bit shifted down (rule R102). -/
theorem pixelMask_of_eight {cfg : Config} (h : cfg.pixelsPerByte = 8) (y : Nat) :
    pixelMask cfg y = 0x80#8 >>> (y % 8) := by
  have hshift : ∀ r < 8, 1#8 <<< (8 - 1 - r) = 0x80#8 >>> r := by decide
  rw [pixelMask, bitIndex, h]
  exact hshift _ (Nat.mod_lt _ (by decide))

/-- Settles O23: inside the range the decoder gives `pixelMask`, whose one bit is the pixel's bit index. -/
theorem addressDecoderMask : Obligations.AddressDecoderMask := by
  intro cfg x y hw
  refine ⟨decodePixel_of_invalid, fun h => ⟨_, _, decodePixel_of_valid h, ?_, fun hp => pixelMask_of_eight hp _⟩⟩
  exact ⟨rfl, bitIndex_lt_eight hw _, getLsbD_pixelMask hw _⟩

/-! ### The decoder's inverse (rule R104) -/

/-- The column of a byte offset. -/
def columnOf (cfg : Config) (o : Nat) : Nat :=
  match cfg.layout with
  | .outputMajor => o / cfg.groups
  | .groupMajor => o % cfg.outSize

/-- The row group of a byte offset. -/
def groupOf (cfg : Config) (o : Nat) : Nat :=
  match cfg.layout with
  | .outputMajor => o % cfg.groups
  | .groupMajor => o / cfg.outSize

/-- The row of bit `b` in row group `g`. -/
def rowOf (cfg : Config) (g b : Nat) : Nat := g * cfg.pixelsPerByte + (cfg.pixelsPerByte - 1 - b)

/-- The numbers below `n * b` are the pairs of a quotient below `n` and a remainder below `b`. -/
theorem mul_add_eq_iff_div_mod {n b q r o : Nat} :
    (q < n ∧ r < b ∧ q * b + r = o) ↔ o < n * b ∧ o / b = q ∧ o % b = r := by
  rcases Nat.eq_zero_or_pos b with rfl | hb
  · simp
  rw [Nat.div_mod_unique hb, Nat.mul_comm b q, Nat.add_comm r]
  constructor
  · rintro ⟨hq, hr, rfl⟩
    refine ⟨?_, rfl, hr⟩
    calc q * b + r < (q + 1) * b := by rw [Nat.add_mul]; omega
      _ ≤ n * b := Nat.mul_le_mul_right _ hq
  · rintro ⟨ho, he, hr⟩
    exact ⟨Nat.lt_of_mul_lt_mul_right (a := b) (by omega), hr, he⟩

/-- A channel's offsets are one-to-one with the columns and row groups, in both layouts. -/
theorem pixelOffset_eq_iff {cfg : Config} (hw : cfg.wf = true) {x y o : Nat} :
    (x < cfg.outSize ∧ y < cfg.comSize ∧ pixelOffset cfg x y = o) ↔
      o < cfg.addrSpaceSize ∧ columnOf cfg o = x ∧ groupOf cfg o = y / cfg.pixelsPerByte := by
  obtain ⟨hsize, hcom⟩ := Config.sizes_of_wf hw
  obtain ⟨-, -, -, hp, -⟩ := Config.facts_of_wf hw
  rw [hsize, hcom, ← Nat.div_lt_iff_lt_mul hp]
  unfold pixelOffset columnOf groupOf
  cases cfg.layout with
  | outputMajor => exact mul_add_eq_iff_div_mod
  | groupMajor =>
    rw [Nat.mul_comm cfg.outSize, and_comm (a := o % _ = x), ← mul_add_eq_iff_div_mod]
    exact and_left_comm

/-- The rows are one-to-one with the row groups and the bits of a byte. -/
theorem rowOf_eq_iff {cfg : Config} (hw : cfg.wf = true) {g b y : Nat} (hb : b ≤ cfg.pixelsPerByte - 1) :
    rowOf cfg g b = y ↔ g = y / cfg.pixelsPerByte ∧ bitIndex cfg y = b := by
  obtain ⟨-, -, -, hp, -⟩ := Config.facts_of_wf hw
  have hmod := Nat.mod_lt y hp
  have hbit : bitIndex cfg y = b ↔ y % cfg.pixelsPerByte = cfg.pixelsPerByte - 1 - b := by
    unfold bitIndex
    omega
  rw [hbit, eq_comm (a := g), Nat.div_mod_unique hp, rowOf, Nat.mul_comm, Nat.add_comm]
  exact ⟨fun h => ⟨h, by omega⟩, And.left⟩

/-- The pixel of a bit of a byte. -/
def pixelAt (cfg : Config) (o b : Nat) : Nat × Nat := (columnOf cfg o, rowOf cfg (groupOf cfg o) b)

/-- The decoder takes a valid pixel to the bit of the byte whose pixel it is (rule R104). -/
theorem pixelAt_eq_iff {cfg : Config} (hw : cfg.wf = true) {x y o b : Nat} (hb : b ≤ cfg.pixelsPerByte - 1) :
    (o < cfg.addrSpaceSize ∧ pixelAt cfg o b = (x, y)) ↔
      x < cfg.outSize ∧ y < cfg.comSize ∧ pixelOffset cfg x y = o ∧ bitIndex cfg y = b := by
  have hoffset := pixelOffset_eq_iff hw (x := x) (y := y) (o := o)
  rw [pixelAt, Prod.mk.injEq, rowOf_eq_iff hw hb]
  simp only [← and_assoc] at hoffset ⊢
  rw [hoffset]

theorem decodePixel_natCast {cfg : Config} {x y : Nat} (hx : x < cfg.outSize) (hy : y < cfg.comSize) :
    decodePixel cfg x y = some (pixelOffset cfg x y, 1#8 <<< bitIndex cfg y) :=
  decodePixel_of_valid (by omega)

/-- Settles O24: both directions are rule R104's inverse, once for a pixel and once for a bit of a byte. -/
theorem addressDecoderIsABijection : Obligations.AddressDecoderIsABijection := by
  intro cfg hw ppb g inverse
  have hinverse (o b : Nat) : inverse o b = pixelAt cfg o b := by
    simp only [inverse, pixelAt, columnOf, groupOf]
    cases cfg.layout <;> rfl
  simp only [hinverse]
  refine ⟨fun x y hx hy => ?_, fun o b ho hb => ?_⟩
  · have hb := bitIndex_le cfg y
    obtain ⟨ho, hat⟩ := (pixelAt_eq_iff hw hb).mpr ⟨hx, hy, rfl, rfl⟩
    exact ⟨_, _, decodePixel_natCast hx hy, ho, hb, hat⟩
  · obtain ⟨hx, hy, hoffset, hbit⟩ :=
      (pixelAt_eq_iff hw (x := (pixelAt cfg o b).1) (y := (pixelAt cfg o b).2) hb).mp ⟨ho, rfl⟩
    refine ⟨hx, hy, ?_⟩
    rw [decodePixel_natCast hx hy, hoffset, hbit]

/-! ### What a request of a READY block runs -/

/-! A pixel request works on a channel `c`: the write channel, or the argument of its channel form (rule R105). -/

theorem exec_setPixel_of_ready {s : State} {i : Instr} {c x y : Int}
    (hi : (i = .setPixel x y ∧ c = s.writeChannel) ∨ i = .setPixelCh x y c) (hp : s.phase = .ready) :
    exec i s = modifyPixel (.instr i) c x y setMask s := by
  rcases hi with ⟨rfl, rfl⟩ | rfl <;> exact whenReady_ready hp

theorem exec_clearPixel_of_ready {s : State} {i : Instr} {c x y : Int}
    (hi : (i = .clearPixel x y ∧ c = s.writeChannel) ∨ i = .clearPixelCh x y c) (hp : s.phase = .ready) :
    exec i s = modifyPixel (.instr i) c x y clearMask s := by
  rcases hi with ⟨rfl, rfl⟩ | rfl <;> exact whenReady_ready hp

theorem exec_getPixel_of_ready {s : State} {i : Instr} {c x y : Int}
    (hi : (i = .getPixel x y ∧ c = s.writeChannel) ∨ i = .getPixelCh x y c) (hp : s.phase = .ready) :
    exec i s = readPixel (.instr i) c x y s := by
  rcases hi with ⟨rfl, rfl⟩ | rfl <;> exact whenReady_ready hp

@[simp] theorem byteAt_answered (s : State) (req : RequestRef) (o : ReqOutcome) (r : Response) (c a : Nat) :
    byteAt (s.answered req o r) c a = byteAt s c a := rfl

/-! ### SET, CLEAR and GET -/

theorem pixelOffset_lt_of_inRange {cfg : Config} (hw : cfg.wf = true) {c x y : Int} (h : Claims.inRange cfg c x y) :
    pixelOffset cfg x.toNat y.toNat < cfg.addrSpaceSize := by
  obtain ⟨-, -, hx, hxlt, hy, hylt⟩ := h
  exact pixelOffset_lt hw (by omega) (by omega)

/-- The state in which a pixel's byte has been rewritten by `f` from the byte and the pixel's mask. -/
def State.withPixel (s : State) (c x y : Int) (f : Byte → Byte → Byte) : State :=
  s.withByte c.toNat (pixelOffset s.cfg x.toNat y.toNat)
    (f (byteAt s c.toNat (pixelOffset s.cfg x.toNat y.toNat)) (pixelMask s.cfg y.toNat))

theorem byteAt_withPixel {s : State} {c x y : Int} (f : Byte → Byte → Byte) (hm : s.mem.wf = true)
    (hw : s.cfg.wf = true) (h : Claims.inRange s.cfg c x y) {c' o' : Nat} (ho' : o' < s.cfg.addrSpaceSize) :
    byteAt (s.withPixel c x y f) c' o' =
      if c' = c.toNat ∧ o' = pixelOffset s.cfg x.toNat y.toNat then f (byteAt s c' o') (pixelMask s.cfg y.toNat)
      else byteAt s c' o' := by
  rw [State.withPixel, byteAt_withByte hm _ (pixelOffset_lt_of_inRange hw h) ho']
  split_ifs with hat
  · rw [hat.1, hat.2]
  · rfl

/-- What SET and CLEAR do, by the byte that `f` forms: in range that byte alone changes, out of range nothing does (rules
R106, R107, R109, R110). -/
theorem modifyPixel_spec {s : State} (req : RequestRef) (c x y : Int) (f : Byte → Byte → Byte)
    (he : s.memExists = true) (hm : s.mem.wf = true) (hw : s.cfg.wf = true) :
    let o := pixelOffset s.cfg x.toNat y.toNat
    (Claims.inRange s.cfg c x y → ∃ t, modifyPixel req c x y f s = .next t
      ∧ byteAt t c.toNat o = f (byteAt s c.toNat o) (pixelMask s.cfg y.toNat)
      ∧ (∀ c' o', c' < s.cfg.numChannel → o' < s.cfg.addrSpaceSize → ¬ (c' = c.toNat ∧ o' = o) →
          byteAt t c' o' = byteAt s c' o')
      ∧ t = ({ s with mem := t.mem } : State).answered req .ok .ack)
    ∧ (¬ Claims.inRange s.cfg c x y →
        modifyPixel req c x y f s = .next (s.answered req .ignoredOutOfRange .ack)) := by
  refine ⟨fun h => ⟨_, modifyPixel_of_inRange f req he hw h, ?_, fun c' o' _ ho' hne => ?_, rfl⟩,
    modifyPixel_of_not_inRange f req⟩
  · exact (byteAt_withPixel f hm hw h (pixelOffset_lt_of_inRange hw h)).trans (if_pos ⟨rfl, rfl⟩)
  · exact (byteAt_withPixel f hm hw h ho').trans (if_neg hne)

/-- Settles O25: SET forms the byte with the mask's bit set. -/
theorem setPixelSetsOneBit : Obligations.SetPixelSetsOneBit := by
  refine ⟨fun a b c => ?_, fun s i c x y hi hp he hm hw => ?_⟩
  · obtain ⟨-, -, -, hset, -, -, hsetCh, -⟩ := requestWordFields a b c
    exact ⟨hset, hsetCh⟩
  · rw [exec_setPixel_of_ready hi hp]
    exact modifyPixel_spec (.instr i) c x y setMask he hm hw

/-- Settles O26: CLEAR forms the byte with the mask's bit cleared. -/
theorem clearPixelClearsOneBit : Obligations.ClearPixelClearsOneBit := by
  refine ⟨fun a b c => ?_, fun s i c x y hi hp he hm hw => ?_⟩
  · obtain ⟨-, -, -, -, hclear, -, -, hclearCh, -⟩ := requestWordFields a b c
    exact ⟨hclear, hclearCh⟩
  · rw [exec_clearPixel_of_ready hi hp]
    exact modifyPixel_spec (.instr i) c x y clearMask he hm hw

/-- Settles O27: GET reads the pixel's byte, and answers 0 where there is none. -/
theorem getPixelAnswersTheBit : Obligations.GetPixelAnswersTheBit := by
  refine ⟨fun a b c => ?_, fun s i c x y hi hp he hw => ?_⟩
  · obtain ⟨-, -, -, -, -, hget, -, -, hgetCh, -⟩ := requestWordFields a b c
    exact ⟨hget, hgetCh⟩
  · rw [exec_getPixel_of_ready hi hp]
    exact ⟨readPixel_of_inRange _ he hw, readPixel_of_not_inRange _⟩

/-! ### FILL, FILL_ALL, CLEAR and SELECT_WRITE_CHANNEL -/

theorem validChannel_iff {cfg : Config} {c : Int} : validChannel cfg c = true ↔ 0 ≤ c ∧ c < cfg.numChannel := by
  simp [validChannel]

theorem exec_fill_of_ready {s : State} (hp : s.phase = .ready) :
    exec .fill s =
      if validChannel s.cfg s.writeChannel then
        fillAddresses (.instr .fill) 0xFF#8 (channelAddresses s.cfg s.writeChannel.toNat) s
      else respond (.instr .fill) .ignoredOutOfRange .ack s := by
  rw [exec, execFill, whenReady_ready hp]

theorem exec_fillAll_or_clear_of_ready {s : State} {i : Instr} {v : Byte}
    (hi : (i = .fillAll ∧ v = 0xFF#8) ∨ (i = .clear ∧ v = 0x00#8)) (hp : s.phase = .ready) :
    exec i s = fillAddresses (.instr i) v (allAddresses s.cfg) s := by
  rcases hi with ⟨rfl, rfl⟩ | ⟨rfl, rfl⟩ <;> exact whenReady_ready hp

theorem exec_selectWriteChannel_of_ready {s : State} (hp : s.phase = .ready) (n : Int) :
    exec (.selectWriteChannel n) s =
      if validChannel s.cfg n || decide (s.cfg.writeChannelPolicy = .storeAny) then
        respond (.instr (.selectWriteChannel n)) .ok .ack { s with writeChannel := n }
      else respond (.instr (.selectWriteChannel n)) .ignoredInvalidIndex .ack s := by
  rw [exec, execSelectWriteChannel, whenReady_ready hp]

/-- Settles O29: with a valid write channel its addresses are filled. -/
theorem fillSetsTheWriteChannel : Obligations.FillSetsTheWriteChannel := by
  refine ⟨by decide, fun s hp he hm => ⟨fun hc => ?_, fun hc => ?_⟩⟩
  · have hok : ∀ a ∈ channelAddresses s.cfg s.writeChannel.toNat, addressOk s a.1 a.2 = true := by
      intro a ha
      obtain ⟨hc', ho⟩ := mem_channelAddresses.mp ha
      exact (addressOk_iff s a.1 a.2).mpr ⟨he, by omega, ho⟩
    obtain ⟨m, hrun, -, -, hbyte⟩ := fillAddresses_spec 0xFF#8 (.instr .fill) hm hok
    rw [exec_fill_of_ready hp, if_pos (validChannel_iff.mpr hc)]
    refine ⟨_, hrun, fun c o _ ho => ?_, rfl⟩
    rw [byteAt_answered, hbyte c o ho]
    refine if_congr ?_ rfl rfl
    rw [mem_channelAddresses]
    omega
  · rw [exec_fill_of_ready hp, if_neg (mt validChannel_iff.mp hc)]
    rfl

/-- Settles O30: every address of the buffer is filled. -/
theorem fillAllAndClearSetEveryByte : Obligations.FillAllAndClearSetEveryByte := by
  refine ⟨by decide, by decide, fun s i v hi hp he hm => ?_⟩
  have hok : ∀ a ∈ allAddresses s.cfg, addressOk s a.1 a.2 = true := fun a ha =>
    (addressOk_iff s a.1 a.2).mpr ⟨he, mem_allAddresses.mp ha⟩
  obtain ⟨m, hrun, -, -, hbyte⟩ := fillAddresses_spec v (.instr i) hm hok
  refine ⟨_, (exec_fillAll_or_clear_of_ready hi hp).trans hrun, fun c o hc ho => ?_, rfl⟩
  exact (hbyte c o ho).trans (if_pos (mem_allAddresses.mpr ⟨hc, ho⟩))

/-- Settles O31: the request tests the index and the policy. -/
theorem selectWriteChannelStores : Obligations.SelectWriteChannelStores := by
  intro s n hp
  have hstores : (validChannel s.cfg n || decide (s.cfg.writeChannelPolicy = .storeAny)) = true ↔
      (0 ≤ n ∧ n < s.cfg.numChannel) ∨ s.cfg.writeChannelPolicy = .storeAny := by
    rw [Bool.or_eq_true, validChannel_iff, decide_eq_true_eq]
  rw [exec_selectWriteChannel_of_ready hp]
  refine ⟨fun h => if_pos (hstores.mpr h), fun hn hpolicy => if_neg (mt hstores.mp ?_)⟩
  simp [hn, hpolicy]

/-! ### The properties of rule R117 -/

/-- The bit of a pixel in its byte. -/
def pixelBit (s : State) (c x y : Int) : Bool :=
  (byteAt s c.toNat (pixelOffset s.cfg x.toNat y.toNat)).getLsbD (bitIndex s.cfg y.toNat)

theorem and_pixelMask_ne_zero {cfg : Config} (hw : cfg.wf = true) (b : Byte) (y : Nat) :
    decide (b &&& pixelMask cfg y ≠ 0) = b.getLsbD (bitIndex cfg y) := by
  have hne : pixelMask cfg y ≠ 0#8 := fun h => by
    simpa [h] using getLsbD_pixelMask hw y (bitIndex cfg y)
  have hand : b &&& pixelMask cfg y = if b.getLsbD (bitIndex cfg y) then pixelMask cfg y else 0#8 :=
    BitVec.and_twoPow b (bitIndex cfg y)
  rw [hand]
  cases b.getLsbD (bitIndex cfg y) <;> simp [hne]

/-- GET answers the pixel's bit. -/
theorem getAnswer_of_inRange {s : State} (hp : s.phase = .ready) (he : s.memExists = true) (hw : s.cfg.wf = true)
    {c x y : Int} (h : Claims.inRange s.cfg c x y) :
    Claims.getAnswer s x y c = some (.bit (pixelBit s c x y)) := by
  rw [Claims.getAnswer, (exec_getPixel_of_ready (.inr rfl) hp).trans (readPixel_of_inRange _ he hw h)]
  show (s.answered _ _ _).responses.getLast? = _
  rw [State.answered_responses, List.getLast?_concat, and_pixelMask_ne_zero hw, pixelBit]

theorem getAnswer_of_not_inRange {s : State} (hp : s.phase = .ready) {c x y : Int}
    (h : ¬ Claims.inRange s.cfg c x y) : Claims.getAnswer s x y c = some (.bit false) := by
  rw [Claims.getAnswer, (exec_getPixel_of_ready (.inr rfl) hp).trans (readPixel_of_not_inRange _ h)]
  exact List.getLast?_concat

/-- Different pixels are different bits of the buffer (rule R104). -/
theorem same_bit_iff {cfg : Config} (hw : cfg.wf = true) {c x y c' x' y' : Int} (h : Claims.inRange cfg c x y)
    (h' : Claims.inRange cfg c' x' y') :
    ((c'.toNat = c.toNat ∧ pixelOffset cfg x'.toNat y'.toNat = pixelOffset cfg x.toNat y.toNat)
        ∧ bitIndex cfg y'.toNat = bitIndex cfg y.toNat) ↔
      x' = x ∧ y' = y ∧ c' = c := by
  obtain ⟨hc, -, hx, hxlt, hy, hylt⟩ := h
  obtain ⟨hc', -, hx', hxlt', hy', hylt'⟩ := h'
  constructor
  · rintro ⟨⟨hcc, ho⟩, hb⟩
    have hle := bitIndex_le cfg y.toNat
    have hat := ((pixelAt_eq_iff hw (x := x.toNat) hle).mpr ⟨by omega, by omega, rfl, rfl⟩).2
    have hat' := ((pixelAt_eq_iff hw (x := x'.toNat) (y := y'.toNat) hle).mpr ⟨by omega, by omega, ho, hb⟩).2
    obtain ⟨hxx, hyy⟩ := Prod.mk.inj (hat'.symm.trans hat)
    omega
  · rintro ⟨rfl, rfl, rfl⟩
    exact ⟨⟨rfl, rfl⟩, rfl⟩

/-- `f` puts `v` where the mask has a bit and keeps every other bit. -/
def PutsBit (f : Byte → Byte → Byte) (v : Bool) : Prop :=
  ∀ (b m : Byte) (k : Nat), (f b m).getLsbD k = if m.getLsbD k then v else b.getLsbD k

theorem setMask_putsBit : PutsBit setMask true := by
  intro b m k
  rw [setMask, BitVec.getLsbD_or]
  cases m.getLsbD k <;> simp

theorem clearMask_putsBit : PutsBit clearMask false := by
  intro b m k
  rw [clearMask, BitVec.getLsbD_and, BitVec.getLsbD_not]
  cases hk : m.getLsbD k with
  | true => simp
  | false =>
    by_cases hlt : k < 8
    · simp [hlt]
    · simp [BitVec.getLsbD_of_ge b k (by omega)]

/-- After `f` has put a bit, the pixel has it and every other pixel its own. -/
theorem pixelBit_withPixel {s : State} {f : Byte → Byte → Byte} {v : Bool} (hf : PutsBit f v) (hm : s.mem.wf = true)
    (hw : s.cfg.wf = true) {c x y c' x' y' : Int} (h : Claims.inRange s.cfg c x y) (h' : Claims.inRange s.cfg c' x' y') :
    pixelBit (s.withPixel c x y f) c' x' y' = if x' = x ∧ y' = y ∧ c' = c then v else pixelBit s c' x' y' := by
  have hcfg : (s.withPixel c x y f).cfg = s.cfg := rfl
  have ho' := pixelOffset_lt_of_inRange hw h'
  rw [pixelBit, hcfg, byteAt_withPixel f hm hw h ho', apply_ite (BitVec.getLsbD · _), hf, getLsbD_pixelMask hw]
  simp only [decide_eq_true_eq, ← ite_and]
  exact if_congr (same_bit_iff hw h h') rfl rfl

/-- After SET or CLEAR a GET there answers the bit that was put, and every other valid pixel answers as before. -/
theorem getAnswer_after_modifyPixel {s : State} {f : Byte → Byte → Byte} {v : Bool} (hf : PutsBit f v)
    (hp : s.phase = .ready) (he : s.memExists = true) (hm : s.mem.wf = true) (hw : s.cfg.wf = true)
    (req : RequestRef) {c x y : Int} (h : Claims.inRange s.cfg c x y) :
    ∃ t, modifyPixel req c x y f s = .next t ∧ Claims.getAnswer t x y c = some (.bit v)
      ∧ ∀ x' y' c' : Int, Claims.inRange s.cfg c' x' y' → ¬ (x' = x ∧ y' = y ∧ c' = c) →
          Claims.getAnswer t x' y' c' = Claims.getAnswer s x' y' c' := by
  have hget {c' x' y' : Int} (h' : Claims.inRange s.cfg c' x' y') :
      Claims.getAnswer ((s.withPixel c x y f).answered req .ok .ack) x' y' c' =
        some (.bit (if x' = x ∧ y' = y ∧ c' = c then v else pixelBit s c' x' y')) := by
    rw [← pixelBit_withPixel hf hm hw h h']
    exact getAnswer_of_inRange (s := (s.withPixel c x y f).answered req .ok .ack) hp he hw h'
  refine ⟨_, modifyPixel_of_inRange f req he hw h, (hget h).trans ?_, fun x' y' c' h' hne => (hget h').trans ?_⟩
  · rw [if_pos ⟨rfl, rfl, rfl⟩]
  · rw [if_neg hne, getAnswer_of_inRange hp he hw h']

/-- After FILL_ALL or CLEAR every valid pixel answers the bit that fills the buffer. -/
theorem getAnswer_after_fill {s : State} {i : Instr} {v : Byte} {b : Bool}
    (hi : (i = .fillAll ∧ v = 0xFF#8) ∨ (i = .clear ∧ v = 0x00#8)) (hv : ∀ k < 8, v.getLsbD k = b)
    (hp : s.phase = .ready) (he : s.memExists = true) (hm : s.mem.wf = true) (hw : s.cfg.wf = true) :
    ∃ t, exec i s = .next t
      ∧ ∀ x y c : Int, Claims.inRange s.cfg c x y → Claims.getAnswer t x y c = some (.bit b) := by
  obtain ⟨-, -, hfill⟩ := fillAllAndClearSetEveryByte
  obtain ⟨t, ht, hbyte, hframe⟩ := hfill s i v hi hp he hm
  have hcfg : t.cfg = s.cfg := (congrArg State.cfg hframe).trans rfl
  have hp' : t.phase = .ready := (congrArg State.phase hframe).trans hp
  have he' : t.memExists = true := (congrArg State.memExists hframe).trans he
  refine ⟨t, ht, fun x y c h => ?_⟩
  obtain ⟨-, hc, ho⟩ := (addressOk_iff _ _ _).mp (addressOk_of_inRange he hw h)
  rw [getAnswer_of_inRange hp' he' (hcfg ▸ hw) (hcfg ▸ h), pixelBit, hcfg, hbyte _ _ hc ho,
    hv _ (bitIndex_lt_eight hw _)]

/-- Settles O28: (a) and (b) for a SET or CLEAR in range, (c) for one out of range, (d) for the fills. -/
theorem pixelPropertiesOfTheSource : Obligations.PixelPropertiesOfTheSource := by
  intro s hp he hm hw
  refine ⟨fun x y c h => ?_, fun x y c h => ?_, fun x y c hxy => ?_, ?_, ?_⟩
  · rw [exec_setPixel_of_ready (.inr rfl) hp]
    exact getAnswer_after_modifyPixel setMask_putsBit hp he hm hw _ h
  · rw [exec_clearPixel_of_ready (.inr rfl) hp]
    exact getAnswer_after_modifyPixel clearMask_putsBit hp he hm hw _ h
  · have h : ¬ Claims.inRange s.cfg c x y := fun ⟨_, _, hvalid⟩ => hxy hvalid
    rw [exec_setPixel_of_ready (.inr rfl) hp, exec_clearPixel_of_ready (.inr rfl) hp]
    exact ⟨⟨_, modifyPixel_of_not_inRange _ _ h, rfl⟩, ⟨_, modifyPixel_of_not_inRange _ _ h, rfl⟩,
      getAnswer_of_not_inRange hp h⟩
  · exact getAnswer_after_fill (.inl ⟨rfl, rfl⟩) (by decide) hp he hm hw
  · exact getAnswer_after_fill (.inr ⟨rfl, rfl⟩) (by decide) hp he hm hw

end Sys2Proof.Machine
end

section
/-! PROOFS. The family of the chip select: which lines a select drives, to which level, and which bits of the mask it
reads. -/

namespace Sys2Proof.Machine

/-! ### One select line after a select (rules R140, R143) -/

/-- The line of a configured board is driven to its bit's active-low level. -/
theorem Lines.get_cs_selectCs_of_lt {L : Lines} {n i : Nat} (mask : Nat) (hi : i < n)
    (hc : (L.get (.cs i)).cfgd = true) :
    ({ L with cs := selectCs n mask L.cs } : Lines).get (.cs i) = .driven (!mask.testBit i) := by
  have hlt := lt_length_of_cfgd hc
  simp only [Lines.get, List.getD, getElem?_selectCs, List.getElem?_eq_getElem hlt, Option.map_some, if_pos hi,
    Option.getD_some]

/-- The line of any other board is left alone. -/
theorem Lines.get_cs_selectCs_of_ge {n i : Nat} (L : Lines) (mask : Nat) (hi : n ≤ i) :
    ({ L with cs := selectCs n mask L.cs } : Lines).get (.cs i) = L.get (.cs i) := by
  simp [Lines.get, List.getD, getElem?_selectCs, Nat.not_lt.mpr hi]

/-- Settles O32: the select completes with its events, and each line is read off the lines it leaves. -/
theorem selectDrivesEveryBoardLine : Obligations.SelectDrivesEveryBoardLine := by
  intro s mask hc
  refine ⟨_, select_spec mask hc, State.emitted_trace .., fun i hi => ?_, fun i hi => ?_, rfl⟩
  · rw [State.emitted_lines, Lines.get_cs_selectCs_of_lt mask hi (hc i hi)]
    cases mask.testBit i <;> rfl
  · exact Lines.get_cs_selectCs_of_ge s.lines mask hi

/-! ### The bits of the mask (rule R142) -/

/-- The events of a select read no bit of the mask at or above the board count. -/
theorem selectEvents_and_two_pow_sub_one (n mask : Nat) :
    selectEvents n (mask &&& (2 ^ n - 1)) = selectEvents n mask := by
  refine List.map_congr_left fun i hi => ?_
  rw [Nat.testBit_and, Nat.testBit_two_pow_sub_one, decide_eq_true (List.mem_range.mp hi), Bool.and_true]

/-- Settles O33: equal events make equal selects, and the levels are those of the multiplexer's first property. -/
theorem selectIgnoresHigherMaskBits : Obligations.SelectIgnoresHigherMaskBits := by
  intro s mask
  refine ⟨?_, fun hc => ?_⟩
  · rw [select, select, selectEvents_and_two_pow_sub_one]
  · obtain ⟨t, ht, -, hlevel, -⟩ := selectDrivesEveryBoardLine s mask hc
    refine ⟨t, ht, fun i hi => ?_⟩
    rw [hlevel i hi]
    cases mask.testBit i <;> decide

end Sys2Proof.Machine
end

section
/-! PROOFS. The family of the serial writer: what one field sends and where it leaves the lines, a field sent in two
parts, and what the events of any step can be: those of sequencer items, so WR is pulsed and CLK is left alone. -/

namespace Sys2Proof.Machine

/-! ### The bits of a field (rules R150, R151) -/

/-- A field of `m + n` bits is its high `m` bits, then its low `n` bits. -/
theorem bitsMSB_add (v m n : Nat) : bitsMSB v (m + n) = bitsMSB (v >>> n) m ++ bitsMSB v n := by
  induction m with
  | zero => rw [Nat.zero_add]; rfl
  | succ m ih =>
    rw [Nat.succ_add]
    simp only [bitsMSB, List.cons_append, ih, Nat.testBit_shiftRight, Nat.add_comm n m]

theorem bitsMSB_eq_map (v n : Nat) : bitsMSB v n = (List.range n).reverse.map fun j => v.testBit j := by
  induction n with
  | zero => rfl
  | succ n ih => simp [bitsMSB, ih, List.range_succ]

/-- The last bit of a field is bit 0 of its value. -/
theorem getLastD_bitsMSB (v n : Nat) (d : Bool) : (bitsMSB v (n + 1)).getLastD d = v.testBit 0 := by
  rw [bitsMSB_add]
  exact List.getLastD_concat

theorem Lines.canSend_of_level {L : Lines} (hlow : L.wr.level = .lo) (hwr : L.wr.cfgd = true)
    (hdata : L.data.cfgd = true) : L.canSend := by
  refine ⟨?_, hdata⟩
  show (⟨L.wr.level, L.wr.cfgd⟩ : LineState) = _
  rw [hlow, hwr]
  rfl

/-- Settles O34: the transmitter sends the field's bits, and the last one, if there is one, stays on DATA. -/
theorem writeBitsSendsTheLowBits : Obligations.WriteBitsSendsTheLowBits := by
  refine fun s v n => ⟨fun hlow hwr hdata => ?_, fun h => writeBits_of_strobe_not_low h v n⟩
  have hsend := Lines.canSend_of_level hlow hwr hdata
  refine ⟨s.transmit (bitsMSB v n), writeBits_spec hsend v n, ?_, ?_⟩
  · rw [State.transmit_trace, bitsMSB_eq_map]
    rfl
  · cases n with
    | zero => exact ⟨rfl, fun h => absurd h (Nat.lt_irrefl 0), fun _ => rfl, rfl⟩
    | succ n =>
      have ht := State.transmit_eq hsend (bs := bitsMSB v (n + 1)) (List.cons_ne_nil _ _)
      rw [getLastD_bitsMSB] at ht
      rw [ht]
      exact ⟨rfl, fun _ => rfl, fun h => absurd h (Nat.succ_ne_zero n), rfl⟩

/-! ### A field sent in two parts (rule R160) -/

/-- A write that gets through was to a configured line (rule R27). -/
theorem Lines.applyAll_w_cons {l : Line} {v : Bool} {rest : List LineEvent} {L L' : Lines}
    (h : Lines.applyAll (.w l v :: rest) L = some L') :
    (L.get l).cfgd = true ∧ Lines.applyAll rest (L.set l ⟨levelOf v, true⟩) = some L' := by
  by_cases hc : (L.get l).cfgd = true
  · exact ⟨hc, by simpa [Lines.applyAll, Lines.apply, hc] using h⟩
  · simp [Lines.applyAll, Lines.apply, hc] at h

/-- A field of at least one bit gets through only where both lines are configured. -/
theorem Lines.cfgd_of_applyAll_bits {b : Bool} {bs : List Bool} {L L' : Lines}
    (h : Lines.applyAll (bitsEvents (b :: bs)) L = some L') : L.data.cfgd = true ∧ L.wr.cfgd = true := by
  obtain ⟨hd, h⟩ := Lines.applyAll_w_cons h
  obtain ⟨hw, -⟩ := Lines.applyAll_w_cons (l := .wr) (v := true) (L := L.set .data ⟨levelOf b, true⟩) h
  exact ⟨hd, hw⟩

/-- Where a field gets through, it leaves the lines after its bits. -/
theorem Lines.eq_afterBits {bs : List Bool} {L L' : Lines} (h : Lines.applyAll (bitsEvents bs) L = some L') :
    L' = L.afterBits bs := by
  cases bs with
  | nil => exact (Option.some.inj h).symm
  | cons b bs =>
    obtain ⟨hd, hw⟩ := Lines.cfgd_of_applyAll_bits h
    exact Option.some.inj (h.symm.trans (Lines.applyAll_bits hd hw (b :: bs)))

theorem Lines.afterBits_wr_level {L : Lines} (h : L.wr.level = .lo) (bs : List Bool) :
    (L.afterBits bs).wr.level = .lo := by
  unfold Lines.afterBits
  split
  · exact h
  · rfl

/-- A field is sent only from WR low, and leaves it low (rule R152). -/
theorem strobeLow_of_writeBits {v n : Nat} {s t : State} (h : writeBits v n s = .next t) : strobeLow t = true := by
  unfold writeBits at h
  split_ifs at h with hs
  obtain ⟨L, hL, rfl⟩ := emit_eq_next h
  rw [strobeLow, State.emitted_lines, Lines.eq_afterBits hL]
  exact decide_eq_true (Lines.afterBits_wr_level (of_decide_eq_true hs) _)

/-- Settles O35: the events of the parts are those of the whole, and WR is low between the parts. -/
theorem splitFieldsSendTheSameEvents : Obligations.SplitFieldsSendTheSameEvents := by
  intro s v m n
  by_cases h : s.lines.wr.level = .lo
  · have hs (v n : Nat) : writeBits v n s = emit (bitsEvents (bitsMSB v n)) s := if_pos (decide_eq_true h)
    rw [hs v, bitsMSB_add, bitsEvents_append, emit_append, ← hs]
    cases hu : writeBits (v >>> n) m s with
    | next u => exact if_pos (strobeLow_of_writeBits hu)
    | fault f => rfl
    | refused q => rfl
  · rw [writeBits_of_strobe_not_low h, writeBits_of_strobe_not_low h, andThen_fault]

/-! ### The events of a step -/

/-- From `s` to `t` exactly the events `evs` happen: they act on the lines and are appended to the trace. -/
def State.Performs (s t : State) (evs : List LineEvent) : Prop :=
  Lines.applyAll evs s.lines = some t.lines ∧ t.trace = s.trace ++ evs

theorem State.Performs.silent {s t : State} (hl : t.lines = s.lines) (ht : t.traceRev = s.traceRev) :
    s.Performs t [] :=
  ⟨congrArg some hl.symm, by simp [State.trace, ht]⟩

theorem State.Performs.trans {s t u : State} {xs ys : List LineEvent} (h : s.Performs t xs) (k : t.Performs u ys) :
    s.Performs u (xs ++ ys) := by
  obtain ⟨hl, ht⟩ := h
  obtain ⟨kl, kt⟩ := k
  exact ⟨by rw [Lines.applyAll_append, hl, Option.bind_some, kl], by rw [kt, ht, List.append_assoc]⟩

theorem emit_performs {evs : List LineEvent} {s t : State} (h : emit evs s = .next t) : s.Performs t evs := by
  obtain ⟨L, hL, rfl⟩ := emit_eq_next h
  exact ⟨hL, State.emitted_trace ..⟩

theorem writeBits_performs {v n : Nat} {s t : State} (h : writeBits v n s = .next t) :
    s.Performs t (bitsEvents (bitsMSB v n)) := by
  unfold writeBits at h
  split_ifs at h
  exact emit_performs h

theorem writeSingleBit_performs {s t : State} (h : writeSingleBit s = .next t) : s.Performs t (bitsEvents [false]) := by
  unfold writeSingleBit at h
  split_ifs at h
  exact emit_performs h

theorem writeCommand_performs {c : Byte} {s t : State} (h : writeCommand c s = .next t) :
    s.Performs t (bitsEvents (commandBits c)) := by
  obtain ⟨u, hu, ht⟩ := andThen_eq_next h
  rw [commandBits, bitsEvents_append]
  exact (writeBits_performs hu).trans (writeSingleBit_performs ht)

/-- The events of one sequencer item that completes, with `n` boards. -/
def itemEvents (n : Nat) : SeqItem → List LineEvent
  | .configure l low => configureEvents l low
  | .select mask => selectEvents n mask
  | it => bitsEvents (itemBits it)

theorem runItem_performs {it : SeqItem} {s t : State} (h : runItem it s = .next t) :
    s.Performs t (itemEvents s.boardCount it) := by
  cases it with
  | configure l low => exact emit_performs h
  | select mask => exact emit_performs h
  | id v =>
    rw [runItem, sendId] at h
    split_ifs at h
    exact writeBits_performs h
  | command c =>
    rw [runItem, sendCommand] at h
    split_ifs at h
    exact writeCommand_performs h
  | address a => exact writeBits_performs h
  | data w => exact writeBits_performs h
  | record | allocate | allocFail | target | ready | respond => cases h; exact .silent rfl rfl

/-- The events of a list of items, each with the number of boards there is when it runs. -/
def sequenceEvents (items : List (Nat × SeqItem)) : List LineEvent := items.flatMap fun p => itemEvents p.1 p.2

theorem runItems_performs {items : List SeqItem} {s t : State} (h : runItems items s = .next t) :
    ∃ ps : List (Nat × SeqItem), ps.map Prod.snd = items ∧ s.Performs t (sequenceEvents ps) := by
  induction items generalizing s with
  | nil =>
    cases h
    exact ⟨[], rfl, .silent rfl rfl⟩
  | cons it rest ih =>
    obtain ⟨u, hu, ht⟩ := andThen_eq_next h
    obtain ⟨ps, rfl, hps⟩ := ih ht
    exact ⟨(s.boardCount, it) :: ps, rfl, (runItem_performs hu).trans hps⟩

theorem exec_performs {i : Instr} {s t : State} (h : exec i s = .next t) :
    ∃ ps, (∀ p ∈ ps, p.2.sparesClk = true) ∧ s.Performs t (sequenceEvents ps) := by
  rcases exec_cases h with hq | ⟨items, b, hclk, hrun⟩
  · exact ⟨[], nofun, .silent hq.lines hq.trace⟩
  · obtain ⟨ps, rfl, hps⟩ := runItems_performs hrun
    exact ⟨ps, fun p hp => hclk p.2 (List.mem_map_of_mem hp), hps⟩

/-- Everything that a step which completes does to the lines and the trace: the events of some sequencer items, none of
which touches CLK if the block was idle. -/
theorem step_performs {s t : State} (h : step s = .next t) :
    ∃ ps, (s.busy = false → ∀ p ∈ ps, p.2.sparesClk = true) ∧ s.Performs t (sequenceEvents ps) := by
  rcases step_cases h with
    ⟨-, -, rfl⟩ | ⟨it, rest, hb, -, h⟩ | ⟨-, -, rfl⟩ | ⟨w, rest, -, -, ⟨i, -, h⟩ | ⟨e, -, h⟩⟩
  · exact ⟨[], fun _ => nofun, .silent rfl rfl⟩
  · refine ⟨[(s.boardCount, it)], fun hidle => absurd (hb.symm.trans hidle) nofun, ?_⟩
    rw [sequenceEvents, List.flatMap_singleton]
    exact runItem_performs (s := { s with seqpos := rest }) h
  · exact ⟨[], fun _ => nofun, .silent rfl rfl⟩
  · obtain ⟨ps, hclk, hps⟩ := exec_performs h
    exact ⟨ps, fun _ => hclk, hps⟩
  · have hq := refuseWord_quiet h
    exact ⟨[], fun _ => nofun, .silent hq.lines hq.trace⟩

/-! ### The strobe (rules R151, R152, R156) -/

theorem pulsed_append {xs ys : List LineEvent} (hx : Claims.pulsed xs = true) (hy : Claims.pulsed ys = true) :
    Claims.pulsed (xs ++ ys) = true := by
  fun_induction Claims.pulsed xs with
  | case1 => exact hy
  | case2 e =>
    cases ys with
    | nil => exact hx
    | cons y ys => simp_all [Claims.pulsed]
  | case3 e e' rest ih => simp_all [Claims.pulsed]

theorem pulsed_flatMap {α : Type} {f : α → List LineEvent} (h : ∀ a, Claims.pulsed (f a) = true) (as : List α) :
    Claims.pulsed (as.flatMap f) = true := by
  induction as with
  | nil => rfl
  | cons a as ih => exact pulsed_append (h a) ih

theorem pulsed_bitsEvents (bs : List Bool) : Claims.pulsed (bitsEvents bs) = true :=
  pulsed_flatMap (by decide) bs

/-- A select writes no line but those of the boards. -/
theorem pulsed_selectEvents (n mask : Nat) : Claims.pulsed (selectEvents n mask) = true := by
  rw [selectEvents, List.map_eq_flatMap]
  exact pulsed_flatMap (fun i => by simp [Claims.pulsed]) _

theorem pulsed_itemEvents (n : Nat) (it : SeqItem) : Claims.pulsed (itemEvents n it) = true := by
  cases it with
  | configure l low => cases low <;> simp [itemEvents, configureEvents, Claims.pulsed]
  | select mask => exact pulsed_selectEvents n mask
  | _ => exact pulsed_bitsEvents _

/-- Settles O18: each item's events are pulsed, and so are they joined. -/
theorem strobeIsPulsedInEveryStep : Obligations.StrobeIsPulsedInEveryStep := by
  intro s t h
  obtain ⟨ps, -, -, htrace⟩ := step_performs h
  have hpulsed : ∀ p : Nat × SeqItem, Claims.pulsed (itemEvents p.1 p.2) = true := fun p => pulsed_itemEvents p.1 p.2
  exact ⟨_, htrace, pulsed_flatMap hpulsed ps⟩

/-! ### The clock line (rules R26, R159) -/

/-- An event that neither configures nor writes CLK. -/
def LineEvent.sparesClk (e : LineEvent) : Prop := e ≠ .cfg .clk ∧ ∀ v, e ≠ .w .clk v

theorem Lines.set_clk {l : Line} (h : l ≠ .clk) (L : Lines) (x : LineState) : (L.set l x).clk = L.clk := by
  cases l with
  | clk => exact absurd rfl h
  | cs i | wr | data => rfl

theorem Lines.apply_clk {e : LineEvent} (h : e.sparesClk) {L L' : Lines} (ha : L.apply e = some L') :
    L'.clk = L.clk := by
  obtain ⟨hcfg, hw⟩ := h
  cases e with
  | cfg l =>
    cases ha
    exact Lines.set_clk (fun hl => hcfg (hl ▸ rfl)) _ _
  | w l v =>
    rw [Lines.apply] at ha
    split_ifs at ha
    cases ha
    exact Lines.set_clk (fun hl => hw v (hl ▸ rfl)) _ _
  | settle => cases ha; rfl

theorem Lines.applyAll_clk {evs : List LineEvent} (h : ∀ e ∈ evs, e.sparesClk) {L L' : Lines}
    (ha : Lines.applyAll evs L = some L') : L'.clk = L.clk := by
  induction evs generalizing L with
  | nil => cases ha; rfl
  | cons e rest ih =>
    rw [Lines.applyAll] at ha
    split at ha
    · rename_i L₁ h₁
      rw [ih (fun e he => h e (List.mem_cons_of_mem _ he)) ha, Lines.apply_clk (h e List.mem_cons_self) h₁]
    · cases ha

theorem bitsEvents_sparesClk {bs : List Bool} : ∀ e ∈ bitsEvents bs, e.sparesClk := by
  intro e he
  obtain ⟨b, -, he⟩ := List.mem_flatMap.mp he
  simp only [bitCycle, List.mem_cons, List.not_mem_nil, or_false] at he
  rcases he with rfl | rfl | rfl | rfl | rfl <;> exact ⟨nofun, nofun⟩

theorem selectEvents_sparesClk {n mask : Nat} : ∀ e ∈ selectEvents n mask, e.sparesClk := by
  intro e he
  obtain ⟨i, -, rfl⟩ := List.mem_map.mp he
  exact ⟨nofun, nofun⟩

theorem configureEvents_sparesClk {l : Line} (h : l ≠ .clk) {low : Bool} :
    ∀ e ∈ configureEvents l low, e.sparesClk := by
  cases low <;> simp [configureEvents, LineEvent.sparesClk, h]

theorem itemEvents_sparesClk {n : Nat} {it : SeqItem} (h : it.sparesClk = true) :
    ∀ e ∈ itemEvents n it, e.sparesClk := by
  cases it with
  | configure l low => exact configureEvents_sparesClk (by rintro rfl; cases h)
  | select mask => exact selectEvents_sparesClk
  | _ => exact bitsEvents_sparesClk

/-- Settles O19: the items of an idle block's step leave CLK alone, so their events do, and so do the lines. -/
theorem clockLineIsNeverTouched : Obligations.ClockLineIsNeverTouched := by
  intro s t hidle h
  obtain ⟨ps, hclk, hlines, htrace⟩ := step_performs h
  have hspare : ∀ e ∈ sequenceEvents ps, e.sparesClk := by
    intro e he
    obtain ⟨p, hp, he⟩ := List.mem_flatMap.mp he
    exact itemEvents_sparesClk (hclk hidle p hp) e he
  exact ⟨Lines.applyAll_clk hspare hlines, _, htrace, hspare⟩

end Sys2Proof.Machine
end

section
/-! PROOFS. The family of the render sequencer: SELECT_RENDER_TARGET, what a request that needs a target does without
one, and RENDER as one transaction, with the places of its bits among its events. -/

namespace Sys2Proof.Machine

/-! ### The render target (rules R170, R171) -/

theorem validBoard_iff {n : Nat} {b : Int} : validBoard n b = true ↔ 0 ≤ b ∧ b < n := by
  simp [validBoard]

theorem exec_selectRenderTarget_of_ready {s : State} (hp : s.phase = .ready) (n : Int) :
    exec (.selectRenderTarget n) s =
      if decide (s.cfg.renderTargetPolicy = .storeAny) || validBoard s.boardCount n then
        respond (.instr (.selectRenderTarget n)) .ok .ack { s with renderTarget := n }
      else respond (.instr (.selectRenderTarget n)) .ignoredInvalidIndex .ack s := by
  rw [exec, execSelectRenderTarget, whenReady_ready hp]

/-- Settles O40: the request tests the policy and the index. -/
theorem selectRenderTargetStores : Obligations.SelectRenderTargetStores := by
  intro s n hp
  have hstores : (decide (s.cfg.renderTargetPolicy = .storeAny) || validBoard s.boardCount n) = true ↔
      s.cfg.renderTargetPolicy = .storeAny ∨ (0 ≤ n ∧ n < s.boardCount) := by
    rw [Bool.or_eq_true, validBoard_iff, decide_eq_true_eq]
  rw [exec_selectRenderTarget_of_ready hp]
  refine ⟨fun h => if_pos (hstores.mpr h), fun hpolicy hn => if_neg (mt hstores.mp ?_)⟩
  simp [hn, hpolicy]

theorem exec_render_of_no_target {s : State} (hp : s.phase = .ready)
    (ht : ¬ (0 ≤ s.renderTarget ∧ s.renderTarget < s.boardCount)) :
    exec .render s = .next (s.answered (.instr .render) .ignoredNoTarget .ack) := by
  rw [exec, execRender, whenReady_ready hp, if_neg (mt validBoard_iff.mp ht)]
  rfl

theorem resolveMask_sentinel_of_no_target {cfg : Config} {n : Nat} {b : Int} (ht : ¬ (0 ≤ b ∧ b < n)) :
    resolveMask cfg n b cfg.currentBoardSentinel = none := by
  rw [resolveMask, if_pos rfl, if_neg (mt validBoard_iff.mp ht)]

theorem brightness_of_no_target {s : State} (hp : s.phase = .ready)
    (ht : ¬ (0 ≤ s.renderTarget ∧ s.renderTarget < s.boardCount)) (level : Int) :
    brightness level s.cfg.currentBoardSentinel s =
      .next (s.answered (.instr (.setBrightness level s.cfg.currentBoardSentinel)) .ignoredNoTarget .ack) := by
  rw [brightness, whenReady_ready hp, resolveMask_sentinel_of_no_target ht]
  rfl

/-- Settles O42: the pseudo-request is the brightness request with the sentinel. -/
theorem invalidTargetDoesNothing : Obligations.InvalidTargetDoesNothing := by
  intro s i level hp ht hi
  simp only [List.mem_cons, List.not_mem_nil, or_false] at hi
  rcases hi with rfl | rfl | rfl
  · exact exec_render_of_no_target hp ht
  · exact brightness_of_no_target hp ht level
  · exact brightness_of_no_target hp ht level

/-! ### RENDER (rules R172 to R174) -/

/-- A request that is one transaction, from lines at rest: its events and its end (rules R58, R257). -/
theorem runRequest_bracket {s : State} {maxBoards : Nat} (h : s.lines.atRest s.boardCount maxBoards) (mask : Nat)
    {frame : List SeqItem} (hf : ∀ it ∈ frame, itemSends it = true) (req : RequestRef) :
    runRequest (bracket mask frame ++ [.respond req .ack]) s =
      .next ((s.emitted (transactionEvents s.boardCount mask (frame.flatMap itemBits))
        (s.lines.afterBits (frame.flatMap itemBits))).answered req .ok .ack) := by
  rw [runRequest, runItems_append, runItems_bracket (s := { s with busy := true }) h mask hf]
  rfl

/-- The bits of a RENDER: the header of its frame, then the whole buffer. -/
def renderBits (s : State) : List Bool := Claims.ramWriteHeader ++ Claims.bufferBits s

/-- The events of a RENDER to the render target. -/
def renderEvents (s : State) : List LineEvent :=
  transactionEvents s.boardCount (boardMask s.renderTarget.toNat) (renderBits s)

/-- The state that a RENDER with a valid target leaves. -/
def State.rendered (s : State) : State :=
  (s.emitted (renderEvents s) (s.lines.afterBits (renderBits s))).answered (.instr .render) .ok .ack

@[simp] theorem State.rendered_trace (s : State) : s.rendered.trace = s.trace ++ renderEvents s :=
  State.emitted_trace s (renderEvents s) (s.lines.afterBits (renderBits s))

/-- RENDER reads every byte of the buffer and sends them in one transaction with its target. -/
theorem exec_render_of_target {s : State} (hp : s.phase = .ready) (he : s.memExists = true)
    (hl : s.lines.atRest s.boardCount s.cfg.maxBoards)
    (ht : 0 ≤ s.renderTarget ∧ s.renderTarget < s.boardCount) : exec .render s = .next s.rendered := by
  have hread := memReadAll_spec (s := s) (addrs := allAddresses s.cfg) fun a ha =>
    (addressOk_iff s a.1 a.2).mpr ⟨he, mem_allAddresses.mp ha⟩
  have hrun := runRequest_bracket hl (boardMask s.renderTarget.toNat)
    (ramWriteItems_sends (bytes := (allAddresses s.cfg).map fun a => byteAt s a.1 a.2)) (.instr .render)
  rw [ramWriteItems_bufferBits] at hrun
  rw [exec, execRender, whenReady_ready hp, if_pos (validBoard_iff.mpr ht), hread]
  exact hrun

/-- The select of a RENDER is the select of its target alone (rule R144). -/
theorem renderEvents_eq {s : State} (ht : 0 ≤ s.renderTarget) :
    renderEvents s = Claims.selects s.boardCount (fun i => decide ((i : Int) ≠ s.renderTarget))
      ++ Claims.bits (Claims.ramWriteHeader ++ Claims.bufferBits s) ++ Claims.selects s.boardCount (fun _ => true) := by
  have hlevel (i : Nat) : decide (i ≠ s.renderTarget.toNat) = decide ((i : Int) ≠ s.renderTarget) :=
    decide_eq_decide.mpr (by omega)
  simp only [renderEvents, transactionEvents_eq, boardMask_testBit, hlevel, renderBits]

/-- The header ends with a 0, so DATA ends low too where the buffer has no bit. -/
theorem getLastD_renderBits (s : State) :
    (renderBits s).getLastD false = (Claims.bufferBits s).getLastD false := by
  simp only [renderBits, List.getLastD_eq_getLast?, List.getLast?_append]
  cases (Claims.bufferBits s).getLast? <;> rfl

/-- Settles O41: with a target RENDER is one transaction, whose last bit stays on DATA. -/
theorem renderSendsTheWholeBuffer : Obligations.RenderSendsTheWholeBuffer := by
  refine fun s hp he hl => ⟨fun ht => ⟨s.rendered, exec_render_of_target hp he hl ht, ?_, ?_⟩,
    exec_render_of_no_target hp⟩
  · rw [State.rendered_trace, renderEvents_eq ht.1]
    simp only [List.append_assoc]
  · have hlines := Lines.afterBits_eq hl.canSend (bs := renderBits s) (List.cons_ne_nil _ _)
    rw [getLastD_renderBits] at hlines
    rw [← hlines]
    rfl

/-- Settles O44: a RENDER leaves everything that a RENDER reads, so the second one sends the same. -/
theorem renderTwiceSendsTheSame : Obligations.RenderTwiceSendsTheSame := by
  intro s t hp he hl h
  by_cases ht : 0 ≤ s.renderTarget ∧ s.renderTarget < s.boardCount
  · cases (exec_render_of_target hp he hl ht).symm.trans h
    exact ⟨s.rendered.rendered, renderEvents s, exec_render_of_target (s := s.rendered) hp he (hl.afterBits _) ht,
      s.rendered_trace, s.rendered.rendered_trace, rfl, rfl⟩
  · cases (exec_render_of_no_target hp ht).symm.trans h
    exact ⟨_, [], exec_render_of_no_target (s := s.answered (.instr .render) .ignoredNoTarget .ack) hp ht,
      (List.append_nil _).symm, (List.append_nil _).symm, rfl, rfl⟩

/-! ### The places of the bits (rule R175) -/

/-- Where every element gives a block of the same length, an index is a block and a place in it. -/
theorem getElem?_flatMap_of_length {α β : Type} {f : α → List β} {m : Nat} (hf : ∀ a, (f a).length = m) (l : List α)
    (q : Nat) {r : Nat} (hr : r < m) : (l.flatMap f)[m * q + r]? = l[q]?.bind fun a => (f a)[r]? := by
  induction l generalizing q with
  | nil => rfl
  | cons a l ih =>
    rw [List.flatMap_cons]
    cases q with
    | zero => rw [Nat.mul_zero, Nat.zero_add, List.getElem?_append_left (by rw [hf]; exact hr)]; rfl
    | succ q =>
      have hindex : m * (q + 1) + r = (f a).length + (m * q + r) := by rw [hf]; ring
      rw [hindex, List.getElem?_append_right (Nat.le_add_right ..), Nat.add_sub_cancel_left, ih]
      rfl

theorem length_flatMap_of_length {α β : Type} {f : α → List β} {m : Nat} (hf : ∀ a, (f a).length = m) (l : List α) :
    (l.flatMap f).length = m * l.length := by
  simp [List.length_flatMap, hf, Nat.mul_comm]

/-- The first event of a bit's cycle is its DATA write (rule R151). -/
theorem getElem?_bitsEvents (bs : List Bool) (j : Nat) :
    (bitsEvents bs)[5 * j]? = bs[j]?.map fun b => .w .data b := by
  have h := getElem?_flatMap_of_length (f := bitCycle) (m := 5) (fun _ => rfl) bs j (r := 0) (by decide)
  rw [Nat.add_zero] at h
  rw [bitsEvents, h]
  cases bs[j]? <;> rfl

/-- A byte is sent most significant bit first (rule R174). -/
theorem getElem?_byteBits (b : Byte) {k : Nat} (hk : k < 8) : (bitsMSB b.toNat 8)[7 - k]? = some (b.getLsbD k) := by
  rw [bitsMSB_eq_map, List.getElem?_map, List.getElem?_reverse (by rw [List.length_range]; omega), List.length_range,
    show 8 - 1 - (7 - k) = k by omega, List.getElem?_range hk]
  rfl

/-- The bits of one channel. -/
theorem length_channelBits (s : State) (c : Nat) :
    ((List.range s.cfg.addrSpaceSize).flatMap fun o => bitsMSB (byteAt s c o).toNat 8).length =
      8 * s.cfg.addrSpaceSize := by
  rw [length_flatMap_of_length fun _ => length_bitsMSB _ _, List.length_range]

theorem length_bufferBits (s : State) :
    (Claims.bufferBits s).length = 8 * s.cfg.numChannel * s.cfg.addrSpaceSize := by
  rw [Claims.bufferBits, length_flatMap_of_length (length_channelBits s), List.length_range]
  ring

/-- Bit `k` of byte `o` of channel `c` in the order of rules R173 and R174. -/
theorem getElem?_bufferBits (s : State) {c o k : Nat} (hc : c < s.cfg.numChannel) (ho : o < s.cfg.addrSpaceSize)
    (hk : k < 8) :
    (Claims.bufferBits s)[8 * (c * s.cfg.addrSpaceSize + o) + (7 - k)]? = some ((byteAt s c o).getLsbD k) := by
  have hindex : 8 * (c * s.cfg.addrSpaceSize + o) + (7 - k) =
      8 * s.cfg.addrSpaceSize * c + (8 * o + (7 - k)) := by ring
  rw [hindex, Claims.bufferBits, getElem?_flatMap_of_length (length_channelBits s) _ c (by omega),
    List.getElem?_range hc, Option.bind_some,
    getElem?_flatMap_of_length (fun _ => length_bitsMSB _ _) _ o (by omega), List.getElem?_range ho, Option.bind_some,
    getElem?_byteBits _ hk]

theorem length_renderBits (s : State) :
    (renderBits s).length = 10 + 8 * s.cfg.numChannel * s.cfg.addrSpaceSize := by
  rw [renderBits, List.length_append, length_bufferBits]
  rfl

@[simp] theorem length_selectEvents (n mask : Nat) : (selectEvents n mask).length = n := by
  simp [selectEvents]

theorem length_transactionEvents (n mask : Nat) (bits : List Bool) :
    (transactionEvents n mask bits).length = 2 * n + 5 * bits.length := by
  simp only [transactionEvents, List.length_append, length_selectEvents, length_bitsEvents]
  ring

/-- The DATA write of a frame's bit `j` stands `5 * j` events after the select. -/
theorem getElem?_transactionEvents {n mask : Nat} {bits : List Bool} {j : Nat} {b : Bool} (h : bits[j]? = some b) :
    (transactionEvents n mask bits)[n + 5 * j]? = some (.w .data b) := by
  have hj : j < bits.length := (List.getElem?_eq_some_iff.mp h).1
  rw [transactionEvents, List.append_assoc, List.getElem?_append_right (by rw [length_selectEvents]; omega),
    length_selectEvents, Nat.add_sub_cancel_left, List.getElem?_append_left (by rw [length_bitsEvents]; omega),
    getElem?_bitsEvents, h]
  rfl

/-- Settles O43: a bit of the buffer stands in the frame behind the header's ten, and each bit is a cycle of five
events. -/
theorem renderCountsAndBitPlaces : Obligations.RenderCountsAndBitPlaces := by
  intro s t hp he hl ht h
  cases (exec_render_of_target hp he hl ht).symm.trans h
  rw [State.rendered_trace]
  refine ⟨?_, fun c o k hc ho hk => ?_⟩
  · rw [List.length_append, renderEvents, length_transactionEvents, length_renderBits, Nat.add_assoc]
  · have hbit : (renderBits s)[10 + 8 * (c * s.cfg.addrSpaceSize + o) + (7 - k)]? =
        some ((byteAt s c o).getLsbD k) := by
      have hheader : Claims.ramWriteHeader.length = 10 := rfl
      rw [renderBits, Nat.add_assoc, ← hheader, List.getElem?_append_right (Nat.le_add_right ..),
        Nat.add_sub_cancel_left, getElem?_bufferBits s hc ho hk]
    rw [Nat.add_assoc, List.getElem?_append_right (Nat.le_add_right ..), Nat.add_sub_cancel_left]
    exact getElem?_transactionEvents hbit

end Sys2Proof.Machine
end

section
/-! PROOFS. The family of the brightness sequence: the PWM word of a level, the resolution of a mask, and SET_BRIGHTNESS
as one transaction. -/

namespace Sys2Proof.Machine

/-! ### The PWM word (rules R191, R193, R194) -/

theorem toNat_pwmOfLevel (level : Int) :
    (ChipCommand.pwmOfLevel level).toNat = 0xA0 ||| ((level - 1) % 2 ^ 8).toNat := by
  rw [ChipCommand.pwmOfLevel, BitVec.toNat_or, BitVec.toNat_ofInt]
  rfl

/-- A duty of the chip is its offset from the PWM base: the low nibble of the base is zero (rule R83). -/
theorem toNat_pwmOfLevel_of_duty {d : Nat} (h1 : 1 ≤ d) (h16 : d ≤ 16) :
    (ChipCommand.pwmOfLevel d).toNat = 0xA0 + (d - 1) := by
  have hlow : (((d : Int) - 1) % 2 ^ 8).toNat = d - 1 := by omega
  have hbase : 0xA <<< 4 + (d - 1) = 0xA <<< 4 ||| (d - 1) := Nat.shiftLeft_add_eq_or_of_lt (by omega) 0xA
  rw [toNat_pwmOfLevel, hlow]
  exact hbase.symm

/-- Settles O45: the word of every level, its sum form on the chip's duties, and the words of levels 17 and 0. -/
theorem pwmWordOfEveryLevel : Obligations.PwmWordOfEveryLevel :=
  ⟨toNat_pwmOfLevel, fun _ => toNat_pwmOfLevel_of_duty, rfl, rfl⟩

/-! ### SET_BRIGHTNESS (rules R76, R190, R192) -/

theorem decode_setBrightness (a b : Byte) :
    decode (.request (0xE#4 ++ a ++ b ++ 0x000#12)) = .ok (.setBrightness a.toNat b.toNat) := by
  obtain ⟨-, -, -, -, -, -, -, -, -, -, -, -, -, h⟩ := requestWordFields a b 0#8
  exact h

/-- Mask resolution (rule R190): an explicit mask as given, the sentinel as the mask of a valid render target. -/
theorem resolveMask_eq_some_iff {cfg : Config} {n mask m : Nat} {b : Int} :
    resolveMask cfg n b mask = some m ↔
      (mask ≠ cfg.currentBoardSentinel ∧ m = mask)
        ∨ (mask = cfg.currentBoardSentinel ∧ 0 ≤ b ∧ b < n ∧ m = 1 <<< b.toNat) := by
  rw [resolveMask]
  split_ifs with hmask hboard
  · have hb := validBoard_iff.mp hboard
    simp [boardMask, hmask, hb, eq_comm]
  · refine iff_of_false nofun ?_
    rintro (⟨hexplicit, -⟩ | ⟨-, h0, hn, -⟩)
    · exact hexplicit hmask
    · exact hboard (validBoard_iff.mpr ⟨h0, hn⟩)
  · simp [hmask, eq_comm]

/-- The pseudo-request is the request with the sentinel as its mask (rule R76). -/
theorem exec_eq_brightness {s : State} {i : Instr} {level : Int} {mask : Nat}
    (hi : i = .setBrightness level mask ∨ (i = .setBrightnessCurrent level ∧ mask = s.cfg.currentBoardSentinel)) :
    exec i s = brightness level mask s := by
  rcases hi with rfl | ⟨rfl, rfl⟩ <;> rfl

/-- The bits of a brightness frame: the command ID, the PWM word, the padding. -/
def brightnessBits (level : Int) : List Bool :=
  [true, false, false] ++ bitsMSB (0xA0 ||| ((level - 1) % 2 ^ 8).toNat) 8 ++ [false]

theorem commandItems_pwmOfLevel_bits (level : Int) :
    (commandItems [ChipCommand.pwmOfLevel level]).flatMap itemBits = brightnessBits level := by
  rw [commandItems_bits, List.flatMap_singleton, commandBits, toNat_pwmOfLevel, ← List.append_assoc]
  rfl

theorem length_brightnessBits (level : Int) : (brightnessBits level).length = 12 := by
  simp [brightnessBits]

/-- The state that SET_BRIGHTNESS leaves once its mask is resolved to `m`. -/
def State.brightened (s : State) (level : Int) (mask m : Nat) : State :=
  (s.emitted (transactionEvents s.boardCount m (brightnessBits level))
    (s.lines.afterBits (brightnessBits level))).answered (.instr (.setBrightness level mask)) .ok .ack

/-- With a target, SET_BRIGHTNESS is one transaction with one command. -/
theorem brightness_of_target {s : State} (hp : s.phase = .ready) (hl : s.lines.atRest s.boardCount s.cfg.maxBoards)
    {mask m : Nat} (hm : resolveMask s.cfg s.boardCount s.renderTarget mask = some m) (level : Int) :
    brightness level mask s = .next (s.brightened level mask m) := by
  have hsends : ∀ it ∈ commandItems [ChipCommand.pwmOfLevel level], itemSends it = true :=
    commandItems_sends (by simp [pwmOfLevel_sendable])
  have hrun := runRequest_bracket hl m hsends (.instr (.setBrightness level mask))
  rw [commandItems_pwmOfLevel_bits] at hrun
  rw [brightness, whenReady_ready hp, hm]
  exact hrun

theorem State.brightened_trace (s : State) (level : Int) (mask m : Nat) :
    (s.brightened level mask m).trace = s.trace ++ transactionEvents s.boardCount m (brightnessBits level) :=
  State.emitted_trace s _ (s.lines.afterBits (brightnessBits level))

/-- The events of a brightness frame: the two selects and twelve bit cycles (rule R192). -/
theorem State.length_trace_brightened (s : State) (level : Int) (mask m : Nat) :
    (s.brightened level mask m).trace.length = s.trace.length + 2 * s.boardCount + 5 * 12 := by
  rw [State.brightened_trace, List.length_append, length_transactionEvents, length_brightnessBits, Nat.add_assoc]

/-- The padding bit is the last one, so DATA ends low; the rest of the state is as an answered request leaves it. -/
theorem State.brightened_eq {s : State} (h : s.lines.canSend) (level : Int) (mask m : Nat) :
    s.brightened level mask m =
      { s with busy := false, responses := s.responses ++ [.ack],
               outcome := some ⟨.instr (.setBrightness level mask), .ok⟩,
               traceRev := (s.brightened level mask m).traceRev,
               lines := { s.lines with data := ⟨.lo, true⟩ } } := by
  have hlines := Lines.afterBits_eq h (bs := brightnessBits level) (List.cons_ne_nil _ _)
  rw [brightnessBits, List.getLastD_concat, ← brightnessBits] at hlines
  exact congrArg (fun L => { s.brightened level mask m with lines := L }) hlines

/-- Settles O46: the resolved mask decides between one transaction and nothing at all. -/
theorem setBrightnessSendsOneCommandFrame : Obligations.SetBrightnessSendsOneCommandFrame := by
  refine ⟨decode_setBrightness, fun s i level mask hi hp hl => ?_⟩
  rw [exec_eq_brightness hi]
  refine ⟨fun m hm => ⟨s.brightened level mask m, brightness_of_target hp hl (resolveMask_eq_some_iff.mpr hm) level,
    ?_, s.length_trace_brightened level mask m, State.brightened_eq hl.canSend level mask m⟩, ?_⟩
  · rw [State.brightened_trace, transactionEvents_eq, ← List.append_assoc, ← List.append_assoc]
    rfl
  · rintro rfl ht
    exact brightness_of_no_target hp ht level

end Sys2Proof.Machine
end

section
/-! PROOFS. The family of the init sequencer: which INIT runs its sequence and which is refused, and the events and the end of
the sequence for either draw of the allocation. -/

namespace Sys2Proof.Machine

/-! ### The acceptance of INIT (rules R200, R225) -/

theorem exec_init_of_fatal {s : State} (hp : s.phase = .fatal) (n : Int) :
    exec (.init n) s = .fault .fatalStuck := by
  rw [exec, execInit, hp]

theorem exec_init_of_ready {s : State} (hp : s.phase = .ready) (n : Int) :
    exec (.init n) s = .next (s.refusedAs (.instr (.init n)) .refusedReinit) := by
  rw [exec, execInit, hp]
  rfl

theorem exec_init_of_bad_board_count {s : State} (hp : s.phase = .uninit) {n : Int}
    (hn : ¬ (1 ≤ n ∧ n ≤ s.cfg.maxBoards)) :
    exec (.init n) s = .next (s.refusedAs (.instr (.init n)) .refusedBadBoardCount) := by
  have hcheck : ¬ (decide (1 ≤ n) && decide (n ≤ (s.cfg.maxBoards : Int))) = true := by
    rwa [Bool.and_eq_true, decide_eq_true_eq, decide_eq_true_eq]
  rw [exec, execInit, hp]
  exact if_neg hcheck

/-- Settles O50: the phase decides before the board count does. -/
theorem initRefusals : Obligations.InitRefusals :=
  fun _ n => ⟨fun hp => exec_init_of_fatal hp n, fun hp => exec_init_of_ready hp n,
    fun hp => exec_init_of_bad_board_count hp⟩

/-- An INIT of an UNINIT block with a board count in range runs the sequence of its draw. -/
theorem exec_init_of_board_count {s : State} (hp : s.phase = .uninit) {n : Nat} (h1 : 1 ≤ n)
    (h2 : n ≤ s.cfg.maxBoards) :
    exec (.init n) s = runRequest (initSequence s.cfg s.allocOk n (.instr (.init n))) s :=
  (exec_of_requestSequence (requestSequence_init hp (by omega) (by omega))).1

theorem State.initConfigured_trace (s : State) (n : Nat) :
    (s.initConfigured n).trace = s.trace ++ initConfigureEvents n :=
  State.emitted_trace _ _ (.configured n s.cfg.maxBoards)

/-! ### The failed allocation (rule R204) -/

/-- Settles O49: what steps (a) to (c) leave stands in phase FATAL. -/
theorem initWithFailedAllocationIsFatal : Obligations.InitWithFailedAllocationIsFatal := by
  intro s n hp hl ha h1 h2
  have hrun := runRequest_initSequence_of_allocFail hl h2 (.instr (.init n))
  rw [← ha, ← exec_init_of_board_count hp h1 h2] at hrun
  refine ⟨_, hrun, ?_, rfl⟩
  have htrace := State.initConfigured_trace { s with busy := true } n
  simp only [initConfigureEvents, ← List.append_assoc] at htrace
  exact htrace

/-! ### The successful allocation (rules R204 to R209) -/

/-- The bits of the bring-up command frame: the command ID and the five commands of step (e) (rule R205). -/
def bringUpBits (cfg : Config) : List Bool :=
  [true, false, false]
    ++ bitsMSB 0x00 8 ++ [false] ++ bitsMSB cfg.commonModeCmd.toNat 8 ++ [false]
    ++ bitsMSB 0x01 8 ++ [false] ++ bitsMSB 0x03 8 ++ [false] ++ bitsMSB 0xAF 8 ++ [false]

theorem bringUpCommands_bits (cfg : Config) :
    (commandItems (bringUpCommands cfg)).flatMap itemBits = bringUpBits cfg := by
  rw [commandItems_bits]
  rfl

/-- The state that an INIT of `n` boards leaves once the buffer is allocated. -/
def State.broughtUp (s : State) (n : Nat) : State :=
  (({ ({ s with busy := true } : State).initConfigured n with
      memExists := true, mem := [], renderTarget := 0, phase := .ready } : State).emitted
    (initBringUpEvents s.cfg n) (.configured n s.cfg.maxBoards)).answered (.instr (.init n)) .ok .ack

theorem exec_init_of_allocOk {s : State} {n : Nat} (hp : s.phase = .uninit) (hw : s.cfg.wf = true)
    (hl : s.lines = .off s.cfg.maxBoards) (ha : s.allocOk = true) (h1 : 1 ≤ n) (h2 : n ≤ s.cfg.maxBoards) :
    exec (.init n) s = .next (s.broughtUp n) := by
  rw [exec_init_of_board_count hp h1 h2, ha]
  exact runRequest_initSequence_of_allocOk hw hl h2 _

theorem State.broughtUp_trace (s : State) (n : Nat) :
    (s.broughtUp n).trace = s.trace ++ initConfigureEvents n ++ initBringUpEvents s.cfg n := by
  rw [State.broughtUp, State.answered_trace, State.emitted_trace]
  exact congrArg (· ++ initBringUpEvents s.cfg n) (State.initConfigured_trace { s with busy := true } n)

/-- Settles O47: steps (a) to (c), the bring-up frame and the blank renders follow one another. -/
theorem initBringsTheBlockUp : Obligations.InitBringsTheBlockUp := by
  intro s n hp hw hl ha h1 h2
  refine ⟨s.broughtUp n, exec_init_of_allocOk hp hw hl ha h1 h2, ?_, rfl⟩
  rw [State.broughtUp_trace, initConfigureEvents, initBringUpEvents, transactionEvents_eq, bringUpCommands_bits]
  simp only [← List.append_assoc]
  rfl

/-! ### The number of events (rule R211) -/

theorem length_initConfigureEvents (n : Nat) : (initConfigureEvents n).length = 2 * n + 4 := by
  simp only [initConfigureEvents, Claims.selects, List.length_append, List.length_map, List.length_range,
    List.length_cons, List.length_nil]
  omega

theorem length_bringUpBits (cfg : Config) : (bringUpBits cfg).length = 48 := by
  simp [bringUpBits]

/-- A blank render is a transaction with its board. -/
theorem blankRenderEvents_eq (cfg : Config) (n b : Nat) :
    blankRenderEvents cfg n b = transactionEvents n (boardMask b)
      (Claims.ramWriteHeader ++ List.replicate (8 * cfg.numChannel * cfg.addrSpaceSize) false) := by
  simp only [transactionEvents_eq, boardMask_testBit]
  rfl

theorem length_blankRenderEvents (cfg : Config) (n b : Nat) :
    (blankRenderEvents cfg n b).length = 2 * n + 5 * (10 + 8 * cfg.numChannel * cfg.addrSpaceSize) := by
  rw [blankRenderEvents_eq, length_transactionEvents, List.length_append, List.length_replicate]
  rfl

theorem length_initBringUpEvents (cfg : Config) (n : Nat) :
    (initBringUpEvents cfg n).length =
      2 * n + 240 + n * (2 * n + 5 * (10 + 8 * cfg.numChannel * cfg.addrSpaceSize)) := by
  rw [initBringUpEvents, List.length_append, length_transactionEvents, bringUpCommands_bits, length_bringUpBits,
    length_flatMap_of_length (length_blankRenderEvents cfg n), List.length_range]
  ring

/-- Settles O48: the total of the sequence's parts. -/
theorem initEventCount : Obligations.InitEventCount := by
  intro s t n hp hw hl ha h1 h2 h
  cases (exec_init_of_allocOk hp hw hl ha h1 h2).symm.trans h
  rw [State.broughtUp_trace, List.length_append, List.length_append, length_initConfigureEvents,
    length_initBringUpEvents]
  ring

end Sys2Proof.Machine
end

section
/-! PROOFS. The family of the exceptions: a stuck block, the checks of an issued request word in their order, and that
every step from a request boundary completes. -/

namespace Sys2Proof.Machine

/-! ### A stuck block (rules R224, R228) -/

/-- Settles O9. -/
theorem fatalBlockHasNoStep : Obligations.FatalBlockHasNoStep := by
  intro s hw hp
  rw [step, nextStep, whenConfigured, if_pos hw, hp]

/-! ### The step of an idle block -/

theorem step_of_idle {s : State} (hw : s.cfg.wf = true) (hf : s.phase ≠ .fatal) (hb : s.busy = false) :
    step s = acceptRequest s := by
  rw [step_of_live hw hf, hb, if_neg Bool.false_ne_true]

theorem acceptRequest_of_decode {s : State} {w : Word} {rest : List Word} {i : Instr} (hp : s.port = w :: rest)
    (hd : decode (.request w) = .ok i) : acceptRequest s = exec i { s with port := rest } := by
  simp only [acceptRequest, hp, hd]

theorem acceptRequest_of_decode_error {s : State} {w : Word} {rest : List Word} {e : DecodeError}
    (hp : s.port = w :: rest) (hd : decode (.request w) = .error e) :
    acceptRequest s = refuseWord w { s with port := rest } := by
  simp only [acceptRequest, hp, hd]

/-- Settles O6. -/
theorem stepRunsTheDecodedRequest : Obligations.StepRunsTheDecodedRequest :=
  fun _ _ _ _ hw hf hb hp hd => (step_of_idle hw hf hb).trans (acceptRequest_of_decode hp hd)

/-! ### The phase before a request's own rule (rule R225, checks 1 and 3) -/

/-- Every host request but INIT is accepted by its phase first, and recorded as the request it expands to. -/
theorem exec_eq_whenReady {i : Instr} (hi : i.isRequest = true) (hinit : ∀ n, i ≠ .init n) (s : State) :
    ∃ k, exec i s = whenReady (.instr (i.expand s.cfg)) s k := by
  cases i with
  | init n => exact absurd rfl (hinit n)
  | selectWriteChannel | selectRenderTarget => exact ⟨fun _ => _, rfl⟩
  | setPixel | clearPixel | getPixel | setPixelCh | clearPixelCh | getPixelCh => exact ⟨fun _ => _, rfl⟩
  | fill | fillAll | clear | render => exact ⟨fun _ => _, rfl⟩
  | setBrightness | setBrightnessCurrent => exact ⟨fun _ => _, rfl⟩
  | _ => cases hi

theorem exec_request_of_uninit {s : State} (hp : s.phase = .uninit) {i : Instr} (hi : i.isRequest = true)
    (hinit : ∀ n, i ≠ .init n) :
    exec i s = .next (s.refusedAs (.instr (i.expand s.cfg)) .refusedNotInitialized) := by
  obtain ⟨k, hk⟩ := exec_eq_whenReady hi hinit s
  rw [hk, whenReady, hp]
  rfl

theorem exec_request_of_fatal {s : State} (hp : s.phase = .fatal) {i : Instr} (hi : i.isRequest = true)
    (hinit : ∀ n, i ≠ .init n) : exec i s = .fault .fatalStuck := by
  obtain ⟨k, hk⟩ := exec_eq_whenReady hi hinit s
  rw [hk, whenReady, hp]

/-- Settles O51. -/
theorem requestsBeforeInitAreRefused : Obligations.RequestsBeforeInitAreRefused :=
  fun _ _ hi hinit => ⟨fun hp => exec_request_of_uninit hp hi hinit, fun hp => exec_request_of_fatal hp hi hinit⟩

/-! ### Illegal request words (rules R74, R86) -/

/-- The illegal words of rule R74 by the fields of rule R71. -/
theorem illegalWord_iff (w : Word) :
    Claims.illegalWord w ↔
      (Word.op w).toNat = 0x0 ∨ (Word.op w).toNat = 0xF ∨ Word.rsv w ≠ 0
        ∨ ((Word.op w).toNat ∈ [0xA, 0xB, 0xC, 0xD] ∧ Word.fieldA w ≠ 0)
        ∨ ((Word.op w).toNat ∈ [0x1, 0x2, 0x3, 0xA, 0xB, 0xC, 0xD] ∧ Word.fieldB w ≠ 0)
        ∨ ((Word.op w).toNat ∈ [0x1, 0x2, 0x3, 0x4, 0x5, 0x6, 0xA, 0xB, 0xC, 0xD, 0xE] ∧ Word.fieldC w ≠ 0) := by
  have hop : w.toNat / 2 ^ 28 = (Word.op w).toNat := by
    rw [Word.op, BitVec.extractLsb'_toNat, Nat.shiftRight_eq_div_pow]
    have := w.isLt
    omega
  have hrsv : w.toNat % 2 ^ 4 = (Word.rsv w).toNat := by
    rw [Word.rsv, BitVec.extractLsb'_toNat, Nat.shiftRight_zero]
  have hfield (k : Nat) : w.toNat / 2 ^ k % 2 ^ 8 = (w.extractLsb' k 8).toNat := by
    rw [BitVec.extractLsb'_toNat, Nat.shiftRight_eq_div_pow]
  have hzero {n : Nat} (f : BitVec n) : f.toNat ≠ 0 ↔ f ≠ 0 := not_congr (BitVec.toNat_inj (y := 0#n))
  simp only [Claims.illegalWord, hop, hrsv, hfield, hzero, Word.fieldA, Word.fieldB, Word.fieldC]

/-- A row with unused fields gives its request exactly where they are zero (rule R74). -/
theorem ifZero_gives_request_iff {w : Word} {unused : Bool} {j : Instr} (hj : j.isRequest = true) :
    (∃ i, ifZero w unused j = .ok i ∧ i.isRequest = true) ↔ unused = true := by
  refine ⟨fun ⟨_, h, _⟩ => unused_of_ifZero h, ?_⟩
  rintro rfl
  exact ⟨j, rfl, hj⟩

/-- The legal words are those that decode to a host request, row by row (rule R86). -/
theorem decodes_to_request_iff (w : Word) :
    (∃ i, decode (.request w) = .ok i ∧ i.isRequest = true) ↔ ¬ Claims.illegalWord w := by
  rw [illegalWord_iff, decode, decodeRequest]
  split
  case h_1 hop => simp [hop, Instr.isRequest]
  case h_16 =>
    have hlt := (Word.op w).isLt
    have hop : (Word.op w).toNat = 15 := by
      simp only [imp_false] at *
      omega
    simp [hop, Instr.isRequest]
  all_goals
    rename_i hop
    rw [ifZero_gives_request_iff rfl]
    simp [hop, and_comm, and_assoc]

/-- No word decodes to the pseudo-request (rule R76). -/
theorem expand_of_decode {w : Word} {i : Instr} (h : decode (.request w) = .ok i) (cfg : Config) :
    i.expand cfg = i := by
  have h : decodeRequest w = .ok i := h
  unfold decodeRequest at h
  split at h
  case h_1 | h_16 => cases h; rfl
  all_goals
    cases eq_of_ifZero h
    rfl

/-- A reserved row is the refusal of the word that holds it (rule R74). -/
theorem exec_reserved_of_decode {w : Word} {i : Instr} (hd : decode (.request w) = .ok i)
    (hi : (∃ p, i = .reservedOp0 p) ∨ ∃ p, i = .reservedOpF p) (s : State) : exec i s = refuseWord w s := by
  have hword := encodeOfDecodedWordIsTheWord s.cfg w i hd
  rcases hi with ⟨p, rfl⟩ | ⟨p, rfl⟩ <;> cases hword <;> rfl

theorem acceptRequest_of_illegalWord {s : State} {w : Word} {rest : List Word} (hf : s.phase ≠ .fatal)
    (hp : s.port = w :: rest) (h : Claims.illegalWord w) :
    acceptRequest s = .next (({ s with port := rest } : State).refusedAs (.word w) .refusedReservedEncoding) := by
  refine Eq.trans ?_ (refuseWord_of_not_fatal (s := { s with port := rest }) hf w)
  cases hd : decode (.request w) with
  | error e => exact acceptRequest_of_decode_error hp hd
  | ok i =>
    rw [acceptRequest_of_decode hp hd]
    rcases hostRow_of_decode hd with hi | hi
    · exact absurd h ((decodes_to_request_iff w).mp ⟨i, hd, hi⟩)
    · exact exec_reserved_of_decode hd hi _

/-! ### The checks in their order (rule R225) -/

theorem refusedAs_withPort_of_idle {s : State} (hb : s.busy = false) (rest : List Word) (req : RequestRef)
    (o : ReqOutcome) :
    ({ s with port := rest } : State).refusedAs req o =
      { s with port := rest, refusedMark := true, outcome := some ⟨req, o⟩ } := by
  rw [State.refusedAs, ← hb]

/-- A block inside a sequence accepts nothing. -/
theorem step_port_of_busy {s t : State} (hb : s.busy = true) (h : step s = .next t) : t.port = s.port := by
  rcases step_cases h with ⟨hidle, -⟩ | ⟨it, rest, -, -, h⟩ | ⟨-, -, rfl⟩ | ⟨w, rest, hidle, -⟩
  · simp [hb] at hidle
  · exact (runItem_follows h).port
  · rfl
  · simp [hb] at hidle

/-- Settles O5: the word decides first, then the phase, then the board count. -/
theorem acceptanceChecksInOrder : Obligations.AcceptanceChecksInOrder := by
  refine fun s w rest hw hport => ⟨fatalBlockHasNoStep s hw, fun _ hb t => step_port_of_busy hb,
    fun hf hb => ⟨fun hill => ?_, fun hlegal => ?_⟩⟩
  · rw [step_of_idle hw hf hb, acceptRequest_of_illegalWord hf hport hill, refusedAs_withPort_of_idle hb]
  · obtain ⟨i, hd, hi⟩ := (decodes_to_request_iff w).mpr hlegal
    have hstep := stepRunsTheDecodedRequest s w rest i hw hf hb hport hd
    simp only [← refusedAs_withPort_of_idle hb]
    refine ⟨i, hd, fun hp hinit => ?_, fun hp ⟨n, hn⟩ => ?_, fun hp ⟨n, hn, hcount⟩ => ?_, hstep⟩
    · rw [hstep, exec_request_of_uninit (s := { s with port := rest }) hp hi hinit, expand_of_decode hd]
    · rw [hstep, hn]
      exact exec_init_of_ready (s := { s with port := rest }) hp n
    · rw [hstep, hn]
      exact exec_init_of_bad_board_count (s := { s with port := rest }) hp hcount

/-! ### From a request boundary every step completes (rule R235) -/

theorem whenReady_completes {s : State} (hp : s.phase = .ready) {req : RequestRef} {k : State → Result}
    (hk : ∃ t, k s = .next t) : ∃ t, whenReady req s k = .next t := by
  rwa [whenReady_ready hp]

theorem modifyPixel_completes {s : State} (h : s.Up) (req : RequestRef) (c x y : Int) (f : Byte → Byte → Byte) :
    ∃ t, modifyPixel req c x y f s = .next t := by
  by_cases hr : Claims.inRange s.cfg c x y
  · exact ⟨_, modifyPixel_of_inRange f req h.memExists h.cfg_wf hr⟩
  · exact ⟨_, modifyPixel_of_not_inRange f req hr⟩

theorem readPixel_completes {s : State} (h : s.Up) (req : RequestRef) (c x y : Int) :
    ∃ t, readPixel req c x y s = .next t := by
  by_cases hr : Claims.inRange s.cfg c x y
  · exact ⟨_, readPixel_of_inRange req h.memExists h.cfg_wf hr⟩
  · exact ⟨_, readPixel_of_not_inRange req hr⟩

theorem fillAll_completes {s : State} (h : s.Up) (req : RequestRef) (v : Byte) :
    ∃ t, fillAddresses req v (allAddresses s.cfg) s = .next t := by
  obtain ⟨m, hrun, -⟩ := fillAddresses_spec v req h.mem_wf fun a ha =>
    (addressOk_iff s a.1 a.2).mpr ⟨h.memExists, mem_allAddresses.mp ha⟩
  exact ⟨_, hrun⟩

theorem brightness_completes {s : State} (h : s.Up) (level : Int) (mask : Nat) :
    ∃ t, brightness level mask s = .next t := by
  cases hm : resolveMask s.cfg s.boardCount s.renderTarget mask with
  | none => exact ⟨_, by rw [brightness, whenReady_ready h.phase, hm]; rfl⟩
  | some m => exact ⟨_, brightness_of_target h.phase h.atRest hm level⟩

/-- Every host request of a READY block completes: the buffer exists and the lines are at rest. -/
theorem State.Up.exec_completes {s : State} (h : s.Up) {i : Instr} (hi : i.isRequest = true) :
    ∃ t, exec i s = .next t := by
  cases i with
  | init n => exact ⟨_, exec_init_of_ready h.phase n⟩
  | selectWriteChannel n =>
    rw [exec_selectWriteChannel_of_ready h.phase]
    split_ifs <;> exact ⟨_, rfl⟩
  | selectRenderTarget n =>
    rw [exec_selectRenderTarget_of_ready h.phase]
    split_ifs <;> exact ⟨_, rfl⟩
  | setPixel | clearPixel | setPixelCh | clearPixelCh =>
    exact whenReady_completes h.phase (modifyPixel_completes h _ _ _ _ _)
  | getPixel | getPixelCh => exact whenReady_completes h.phase (readPixel_completes h _ _ _ _)
  | fillAll | clear => exact whenReady_completes h.phase (fillAll_completes h _ _)
  | fill =>
    obtain ⟨-, hfill⟩ := fillSetsTheWriteChannel
    obtain ⟨hvalid, hinvalid⟩ := hfill s h.phase h.memExists h.mem_wf
    by_cases hc : 0 ≤ s.writeChannel ∧ s.writeChannel < s.cfg.numChannel
    · exact (hvalid hc).imp fun _ ht => ht.1
    · exact ⟨_, hinvalid hc⟩
  | render =>
    by_cases ht : 0 ≤ s.renderTarget ∧ s.renderTarget < s.boardCount
    · exact ⟨_, exec_render_of_target h.phase h.memExists h.atRest ht⟩
    · exact ⟨_, exec_render_of_no_target h.phase ht⟩
  | setBrightness level mask => exact brightness_completes h level mask
  | setBrightnessCurrent level => exact brightness_completes h level s.cfg.currentBoardSentinel
  | _ => cases hi

/-- INIT from power-on's lines completes: refused, or run to READY or to FATAL by the draw. -/
theorem State.Inv.exec_init_completes {s : State} (h : s.Inv) (hp : s.phase = .uninit) (n : Int) :
    ∃ t, exec (.init n) s = .next t := by
  obtain ⟨-, -, -, hl, -⟩ := h.uninit hp
  by_cases hn : 1 ≤ n ∧ n ≤ s.cfg.maxBoards
  · obtain ⟨m, rfl⟩ := Int.eq_ofNat_of_zero_le (by omega : 0 ≤ n)
    have h1 : 1 ≤ m := by omega
    have h2 : m ≤ s.cfg.maxBoards := by omega
    cases ha : s.allocOk with
    | false => exact (initWithFailedAllocationIsFatal s m hp hl ha h1 h2).imp fun _ ht => ht.1
    | true => exact ⟨_, exec_init_of_allocOk hp h.cfg_wf hl ha h1 h2⟩
  · exact ⟨_, exec_init_of_bad_board_count hp hn⟩

theorem State.Inv.exec_request_completes {s : State} (h : s.Inv) (hf : s.phase ≠ .fatal) {i : Instr}
    (hi : i.isRequest = true) : ∃ t, exec i s = .next t := by
  cases hp : s.phase with
  | fatal => exact absurd hp hf
  | ready => exact (h.up hp).exec_completes hi
  | uninit =>
    by_cases hinit : ∃ n, i = .init n
    · obtain ⟨n, rfl⟩ := hinit
      exact h.exec_init_completes hp n
    · exact ⟨_, exec_request_of_uninit hp hi (not_exists.mp hinit)⟩

/-- Settles O14: a block at a request boundary waits, refuses an illegal word, or runs a request to its end. -/
theorem noFaultIsReached : Obligations.NoFaultIsReached := by
  intro s h hf
  rw [step_of_idle h.cfg_wf hf (h.idle.2 hf)]
  cases hport : s.port with
  | nil => exact ⟨s, by rw [acceptRequest, hport]⟩
  | cons w rest =>
    by_cases hill : Claims.illegalWord w
    · exact ⟨_, acceptRequest_of_illegalWord hf hport hill⟩
    · obtain ⟨i, hd, hi⟩ := (decodes_to_request_iff w).mpr hill
      rw [acceptRequest_of_decode hport hd]
      exact (h.withPort rest).exec_request_completes hf hi

end Sys2Proof.Machine
end

section
/-! PROOFS. The family of the reset and the hazards: an idle block waits for a request, and a configuration with a
repeated pin is refused. -/

namespace Sys2Proof.Machine

/-! ### The wait for a request (rule R250) -/

theorem acceptRequest_of_empty_port {s : State} (hp : s.port = []) : acceptRequest s = .next s := by
  rw [acceptRequest, hp]

/-- Settles O8. -/
theorem stepWaitsForARequest : Obligations.StepWaitsForARequest :=
  fun _ hw hf hb hp => (step_of_idle hw hf hb).trans (acceptRequest_of_empty_port hp)

/-! ### A repeated pin (rule R258) -/

theorem Config.pins_nodup_of_wf {cfg : Config} (h : cfg.wf = true) : cfg.pins.Nodup :=
  of_decide_eq_true (List.all_eq_true.mp h (decide cfg.pins.Nodup) (by simp only [List.mem_cons, true_or, or_true]))

theorem step_of_not_wf {s : State} (hw : ¬ s.cfg.wf = true) : step s = .refused .invalidConfiguration := by
  rw [step, nextStep, whenConfigured, if_neg hw]

/-- Settles O10: a repeated pin breaks the last constraint of `Config.wf`, whatever the phase and the port. -/
theorem repeatedPinIsRefused : Obligations.RepeatedPinIsRefused :=
  fun _ hpins => step_of_not_wf (mt Config.pins_nodup_of_wf hpins)

end Sys2Proof.Machine
end
